-- ==== Sys2Proof/Word.lean ====
section
/-! DEFINITION. The machine's word types. Every value of the block is an unsigned natural number of a
stated width (00_scope.md R10); registers are 32 bits (10_state.md section 2). -/

namespace Sys2Proof

/-- One byte of a buffer, or an 8-bit field. -/
abbrev Byte := BitVec 8

/-- A 16-bit field, counter, length or checksum. -/
abbrev Half := BitVec 16

/-- A register, a command word or a word of a log record. -/
abbrev Word := BitVec 32

/-- A host byte address (20_memory.md R70: 18 bits). -/
abbrev Addr := BitVec 18

end Sys2Proof
end

