-- ==== Sys2Proof/Syntax.lean ====
section
/-! DEFINITION. The commands of 30_encoding.md R104, one constructor per row of the opcode table, and the fields of a
command word (R101). An illegal word is no command: R105 gives it a meaning of its own, outside `Instr`. -/

namespace Sys2Proof

/-- The buffer a `*.BUF` command works on: the BSEL bit (R101). -/
inductive Buf where
  /-- BSEL = 0. -/
  | rx
  /-- BSEL = 1. -/
  | tx
  deriving DecidableEq, Repr

/-- A command (R104). -/
inductive Instr where
  /-- `NOP` (R240). -/
  | nop
  /-- `CSUM.CLR` (R133). -/
  | csumClr
  /-- `CSUM.BYTE imm8` (R134). -/
  | csumByte (imm8 : Byte)
  /-- `CSUM.WORD imm16` (R135). -/
  | csumWord (imm16 : Half)
  /-- `CSUM.BUF rx|tx` (R136). -/
  | csumBuf (b : Buf)
  /-- `CSUM.FIN` (R137). -/
  | csumFin
  /-- `DECODE` (R150). -/
  | decode
  /-- `ENCODE` (R163). -/
  | encode
  /-- `ENT.CLR` (R184). -/
  | entClr
  /-- `ENT.BYTE imm8` (R185). -/
  | entByte (imm8 : Byte)
  /-- `ENT.BUF rx|tx` (R186). -/
  | entBuf (b : Buf)
  /-- `ENT.CLASSIFY` (R187). -/
  | entClassify
  /-- `PROCESS` (R210). -/
  | process
  /-- `LOG.POP` (R222). -/
  | logPop
  /-- `SRESET` (R241). -/
  | sreset
  deriving DecidableEq, Repr

/-- The four fields of a command word (R101). -/
structure CmdFields where
  /-- OP, bits 7:0. -/
  op : Byte
  /-- BSEL, bit 8. -/
  bsel : Bool
  /-- RSV, bits 15:9. -/
  rsv : BitVec 7
  /-- IMM, bits 31:16. -/
  imm : Half
  deriving DecidableEq, Repr

/-- Why a word is no command: the five cases of R105. -/
inductive Illegal where
  /-- "an unassigned OP". -/
  | unassignedOp
  /-- "a nonzero RSV". -/
  | reservedBits
  /-- "BSEL = 1 on a command without a bsel operand". -/
  | bselUnused
  /-- "a nonzero IMM on a command without an immediate". -/
  | immUnused
  /-- "IMM[15:8] nonzero on CSUM.BYTE or ENT.BYTE". -/
  | immHighByte
  deriving DecidableEq, Repr

end Sys2Proof
end

