-- ==== Sys2Proof/WellFormed.lean ====
section
/-! DEFINITION. When the fields of a command word name a command: none of the cases of 30_encoding.md R105 holds. Every
term of `Instr` is a command by its type (an `imm8` is a byte, a buffer is one of two), so the checks are on the raw
fields. -/

namespace Sys2Proof

/-- The assigned opcodes of R104 (every other OP is reserved, R106). -/
def CmdFields.assignedOps : List Byte :=
  [0x00, 0x01, 0x02, 0x03, 0x04, 0x05, 0x10, 0x11, 0x20, 0x21, 0x22, 0x23, 0x30, 0x31, 0xFF]

/-- The opcodes with a bsel operand (R101: CSUM.BUF and ENT.BUF). -/
def CmdFields.bselOps : List Byte := [0x04, 0x22]

/-- The opcodes with a byte immediate (R101: CSUM.BYTE and ENT.BYTE). -/
def CmdFields.imm8Ops : List Byte := [0x02, 0x21]

/-- The opcode with a 16-bit immediate (R101: CSUM.WORD). -/
def CmdFields.imm16Ops : List Byte := [0x03]

/-- OP is assigned. -/
def CmdFields.opOk (f : CmdFields) : Bool := CmdFields.assignedOps.contains f.op

/-- RSV is zero. -/
def CmdFields.rsvOk (f : CmdFields) : Bool := f.rsv == 0

/-- BSEL is 0 unless the command has a bsel operand. -/
def CmdFields.bselOk (f : CmdFields) : Bool := !f.bsel || CmdFields.bselOps.contains f.op

/-- IMM is 0 unless the command has an immediate. -/
def CmdFields.immOk (f : CmdFields) : Bool :=
  f.imm == 0 || CmdFields.imm8Ops.contains f.op || CmdFields.imm16Ops.contains f.op

/-- IMM[15:8] is 0 on a command with a byte immediate. -/
def CmdFields.immHighOk (f : CmdFields) : Bool :=
  f.imm.extractLsb' 8 8 == 0 || !CmdFields.imm8Ops.contains f.op

/-- The fields are those of some command. -/
def CmdFields.wellFormed (f : CmdFields) : Bool :=
  f.opOk && f.rsvOk && f.bselOk && f.immOk && f.immHighOk

end Sys2Proof
end

