-- ==== Sys2Proof/Decode.lean ====
section
/-! DEFINITION. Decoding and encoding of command words (30_encoding.md R100-R106, R111). One format, one word, no mode bit:
a decoder needs no length decision (R100). -/

namespace Sys2Proof

/-- The fields of a command word (R101). -/
def CmdFields.ofWord (w : Word) : CmdFields where
  op := w.extractLsb' 0 8
  bsel := w.getLsbD 8
  rsv := w.extractLsb' 9 7
  imm := w.extractLsb' 16 16

/-- The command word with the given fields, "{IMM, RSV, BSEL, OP}" (R111). -/
def CmdFields.toWord (f : CmdFields) : Word :=
  f.imm ++ (f.rsv ++ (BitVec.ofBool f.bsel ++ f.op))

/-- BSEL of a buffer (R101). -/
def Buf.bsel : Buf → Bool
  | .rx => false
  | .tx => true

/-- The buffer BSEL selects (R101). -/
def Buf.ofBsel : Bool → Buf
  | false => .rx
  | true => .tx

/-- A command without operand: BSEL and IMM must be 0 (R101). -/
def decodePlain (i : Instr) (f : CmdFields) : Except Illegal Instr :=
  if f.bsel then .error .bselUnused
  else if f.imm ≠ 0 then .error .immUnused
  else .ok i

/-- A command with a byte immediate `IMM[7:0]`; `IMM[15:8]` must be 0 (R101, R102). -/
def decodeImm8 (mk : Byte → Instr) (f : CmdFields) : Except Illegal Instr :=
  if f.bsel then .error .bselUnused
  else if f.imm.extractLsb' 8 8 ≠ 0 then .error .immHighByte
  else .ok (mk (f.imm.extractLsb' 0 8))

/-- A command with a 16-bit immediate (R101, R102). -/
def decodeImm16 (mk : Half → Instr) (f : CmdFields) : Except Illegal Instr :=
  if f.bsel then .error .bselUnused
  else .ok (mk f.imm)

/-- A command with a bsel operand; IMM must be 0 (R101). -/
def decodeBsel (mk : Buf → Instr) (f : CmdFields) : Except Illegal Instr :=
  if f.imm ≠ 0 then .error .immUnused
  else .ok (mk (Buf.ofBsel f.bsel))

/-- The opcode map (R104); an OP outside it is unassigned (R106). -/
def decodeOp (f : CmdFields) : Except Illegal Instr :=
  match f.op.toNat with
  | 0x00 => decodePlain .nop f
  | 0x01 => decodePlain .csumClr f
  | 0x02 => decodeImm8 .csumByte f
  | 0x03 => decodeImm16 .csumWord f
  | 0x04 => decodeBsel .csumBuf f
  | 0x05 => decodePlain .csumFin f
  | 0x10 => decodePlain .decode f
  | 0x11 => decodePlain .encode f
  | 0x20 => decodePlain .entClr f
  | 0x21 => decodeImm8 .entByte f
  | 0x22 => decodeBsel .entBuf f
  | 0x23 => decodePlain .entClassify f
  | 0x30 => decodePlain .process f
  | 0x31 => decodePlain .logPop f
  | 0xFF => decodePlain .sreset f
  | _ => .error .unassignedOp

/-- The command the fields name, or why they name none (R105). -/
def decodeFields (f : CmdFields) : Except Illegal Instr :=
  if f.rsv ≠ 0 then .error .reservedBits else decodeOp f

/-- The command a latched word names, or why it is illegal (R104, R105). Total on every word. -/
def decodeWord (w : Word) : Except Illegal Instr := decodeFields (CmdFields.ofWord w)

/-- The OP byte of a command (R104). -/
def Instr.opcode : Instr → Byte
  | .nop => 0x00
  | .csumClr => 0x01
  | .csumByte _ => 0x02
  | .csumWord _ => 0x03
  | .csumBuf _ => 0x04
  | .csumFin => 0x05
  | .decode => 0x10
  | .encode => 0x11
  | .entClr => 0x20
  | .entByte _ => 0x21
  | .entBuf _ => 0x22
  | .entClassify => 0x23
  | .process => 0x30
  | .logPop => 0x31
  | .sreset => 0xFF

/-- The BSEL bit of a command (R101). -/
def Instr.bsel : Instr → Bool
  | .csumBuf b => b.bsel
  | .entBuf b => b.bsel
  | _ => false

/-- The IMM field of a command (R101): a byte immediate has 0 above it. -/
def Instr.imm : Instr → Half
  | .csumByte b => b.setWidth 16
  | .entByte b => b.setWidth 16
  | .csumWord h => h
  | _ => 0

/-- The fields of a command's word. -/
def Instr.fields (i : Instr) : CmdFields where
  op := i.opcode
  bsel := i.bsel
  rsv := 0
  imm := i.imm

/-- The encoder: the assembled word of a command (R111). -/
def encodeInstr (i : Instr) : Word := i.fields.toWord

/-- One row of the opcode table: `w` is this command when `(w & mask) = pattern` (R104). -/
structure OpRow where
  /-- The mnemonic of R104. -/
  mnemonic : String
  /-- The `match` column. -/
  pattern : Word
  /-- The `mask` column. -/
  mask : Word
  deriving DecidableEq, Repr

/-- The row selects the word (R104). -/
def OpRow.selects (r : OpRow) (w : Word) : Bool := w &&& r.mask == r.pattern

/-- The row of the opcode table each command stands for, with its own match and mask columns (R104). -/
def Instr.row : Instr → OpRow
  | .nop => ⟨"NOP", 0x00000000, 0xFFFFFFFF⟩
  | .csumClr => ⟨"CSUM.CLR", 0x00000001, 0xFFFFFFFF⟩
  | .csumByte _ => ⟨"CSUM.BYTE", 0x00000002, 0xFF00FFFF⟩
  | .csumWord _ => ⟨"CSUM.WORD", 0x00000003, 0x0000FFFF⟩
  | .csumBuf _ => ⟨"CSUM.BUF", 0x00000004, 0xFFFFFEFF⟩
  | .csumFin => ⟨"CSUM.FIN", 0x00000005, 0xFFFFFFFF⟩
  | .decode => ⟨"DECODE", 0x00000010, 0xFFFFFFFF⟩
  | .encode => ⟨"ENCODE", 0x00000011, 0xFFFFFFFF⟩
  | .entClr => ⟨"ENT.CLR", 0x00000020, 0xFFFFFFFF⟩
  | .entByte _ => ⟨"ENT.BYTE", 0x00000021, 0xFF00FFFF⟩
  | .entBuf _ => ⟨"ENT.BUF", 0x00000022, 0xFFFFFEFF⟩
  | .entClassify => ⟨"ENT.CLASSIFY", 0x00000023, 0xFFFFFFFF⟩
  | .process => ⟨"PROCESS", 0x00000030, 0xFFFFFFFF⟩
  | .logPop => ⟨"LOG.POP", 0x00000031, 0xFFFFFFFF⟩
  | .sreset => ⟨"SRESET", 0x000000FF, 0xFFFFFFFF⟩

/-- The 15 rows of the opcode table in its order (R104). -/
def opTable : List OpRow :=
  [Instr.nop.row, Instr.csumClr.row, (Instr.csumByte 0).row, (Instr.csumWord 0).row, (Instr.csumBuf .rx).row,
   Instr.csumFin.row, Instr.decode.row, Instr.encode.row] ++
  [Instr.entClr.row, (Instr.entByte 0).row, (Instr.entBuf .rx).row, Instr.entClassify.row,
   Instr.process.row, Instr.logPop.row, Instr.sreset.row]

/-- What the decoder reads from an opcode-table word: `nbits` is the row's width (32 for every row), bit 0 the least
significant bit of the command word. -/
def decodeTableWord (nbits w : Nat) : Option Instr :=
  match decodeWord (BitVec.ofNat 32 (w % 2 ^ nbits)) with
  | .ok i => some i
  | .error _ => none

end Sys2Proof
end

