-- ==== Sys2Proof/Config.lean ====
section
/-! DEFINITION. What this hardware fixes (00_scope.md R8), and the two free values the spec leaves open: the draws of
R17, U1 and U2. A free value has no body: nothing can evaluate it, so a claim about it holds for every draw. -/

namespace Sys2Proof

/-- `BUF_SIZE`: bytes of RXBUF and of TXBUF (R8, R57). -/
abbrev Config.bufSize : Nat := 65536

/-- Host address of `RX[0]` (R72). -/
abbrev Config.rxBase : Nat := 0x00000

/-- Host address of `TX[0]` (R72). -/
abbrev Config.txBase : Nat := 0x10000

/-- `REG_BASE`, the host address of the register window (R72). -/
abbrev Config.regBase : Nat := 0x20000

/-- The first host address past the register window (R72). -/
abbrev Config.regEnd : Nat := 0x20800

/-- The constant the `ID` register reads (R28). -/
def Config.id : Word := 0x4E570001

/-- `MIN_OUTER_HDR`, in bytes (R8, R153). -/
abbrev Config.minOuterHdr : Nat := 20

/-- Size of the inner echo header in bytes (R8, R107). -/
abbrev Config.innerHdr : Nat := 8

/-- Capture offset of the outer header's protocol byte (R8, R108). -/
abbrev Config.protoOff : Nat := 9

/-- Capture offset of the outer source address (R8, R108). -/
abbrev Config.srcOff : Nat := 12

/-- Capture offset of the outer destination address (R8, R108). -/
abbrev Config.dstOff : Nat := 16

/-- `PAD_BYTE` (R8). -/
def Config.padByte : Byte := 0x20

/-- `LOG_DEPTH` in this spec's vectors (R8: "16 by default", an OPEN parameter of 1..255). The depth itself is a field of
State that no step changes, so that statements hold for every depth (DESIGN CHOICE, assumption 3). -/
def Config.logDepthDefault : BitVec 8 := 16

/-- FREE VALUE (assumption 2). The byte at host address `a` after the `epoch`-th hardware reset and before anything has
written it: "each byte is an arbitrary value a model takes as a draw" (R60, R281, U1). -/
opaque Config.bufferByte (epoch a : Nat) : Byte

/-- FREE VALUE (assumption 5). The data word of the `k`-th host read that finds the block busy at an address other than
`STATUS`: "an unspecified value (a model draws it)" (R83, U2). -/
opaque Config.busyRead (k : Nat) : Word

end Sys2Proof
end

