-- ==== Sys2Proof/Machine/State.lean ====
section
/-! DEFINITION. The state of the block (10_state.md), as plain data: every register by its fields, the two buffers as one
sparse memory, the log FIFO, the hidden command latch, the model-only fault mark, and what the model itself keeps (the
inputs not yet taken and the observation of 00_scope.md R18). A register's reserved bits read 0 (20_memory.md R80), so
only its fields are stored; the 32-bit words software sees are computed from them in Machine/Flags.lean. -/

namespace Sys2Proof.Machine

/-- `STATUS.ERR` (R22, R252): the codes 7-15 are never produced, so there is no constructor for them. -/
inductive CmdError where
  /-- 0: command completed. -/
  | ok
  /-- 1: the word matches no opcode row. -/
  | illegal
  /-- 2: `ARG.OFF + ARG.LEN > 65536`. -/
  | range
  /-- 3: the payload does not fit the frame. -/
  | encTooLarge
  /-- 4: the histogram count would pass 0xFFFF. -/
  | entFull
  /-- 5: LOG holds LOG_DEPTH records. -/
  | logFull
  /-- 6: LOG is empty. -/
  | logEmpty
  deriving DecidableEq, Repr

/-- `CTRL.MODE` (R24): 3 is reserved and never stored. -/
inductive Mode where
  /-- 0: classify and log only. -/
  | observe
  /-- 1: log, block, no reply. -/
  | passive
  /-- 2: log, block, reply to passed frames. -/
  | active
  deriving DecidableEq, Repr

/-- `DEC_STATUS.DRES` (R34). -/
inductive DecodeResult where
  /-- 0: no decode since reset. -/
  | none
  /-- 1: decoded. -/
  | ok
  /-- 2: TruncatedFrame. -/
  | truncated
  /-- 3: WrongProtocol. -/
  | wrongProto
  deriving DecidableEq, Repr

/-- `ENT_RESULT.VERDICT` (R52): 3 is never produced. -/
inductive Verdict where
  /-- 0. -/
  | benign
  /-- 1. -/
  | suspiciousHigh
  /-- 2. -/
  | suspiciousLow
  deriving DecidableEq, Repr

/-- `FSTATE.STATE` (R54): 7 is never produced; `received` is internal to PROCESS and never left in `FSTATE` (R212). -/
inductive FilterState where
  /-- 0: reset; no PROCESS since. -/
  | idle
  /-- 1: never visible. -/
  | received
  /-- 2: MODE = OBSERVE. -/
  | classified
  /-- 3: a suspicious frame in PASSIVE or ACTIVE. -/
  | blocked
  /-- 4: a benign frame in PASSIVE. -/
  | passed
  /-- 5: a benign frame in ACTIVE; a reply is in TXBUF. -/
  | replied
  /-- 6: decode failed. -/
  | dropped
  deriving DecidableEq, Repr

/-- `STATUS` (R22). -/
structure Status where
  /-- BUSY. -/
  busy : Bool
  /-- ERR. -/
  err : CmdError
  /-- LAST_OP. -/
  lastOp : Byte
  deriving DecidableEq, Repr

/-- `CTRL` (R24). -/
structure Ctrl where
  /-- CSUM_VERIFY. -/
  csumVerify : Bool
  /-- MODE. -/
  mode : Mode
  /-- LOG_MALFORMED. -/
  logMalformed : Bool
  deriving DecidableEq, Repr

/-- `ARG` (R26). -/
structure Arg where
  /-- OFF. -/
  off : Half
  /-- LEN. -/
  len : Half
  deriving DecidableEq, Repr

/-- The checksum unit: `CSUM_ACC` (R30), `CSUM_STAT.PAR` (R31), `CSUM_RES` (R32). -/
structure Csum where
  /-- CSUM_ACC. -/
  acc : Word
  /-- PAR: the next byte is the low byte of a word. -/
  par : Bool
  /-- CSUM_RES. -/
  res : Half
  deriving DecidableEq, Repr

/-- The seven decode result registers (R34-R40). -/
structure Dec where
  /-- DEC_STATUS.DRES. -/
  dres : DecodeResult
  /-- DEC_STATUS.CSUM_CHECKED. -/
  csumChecked : Bool
  /-- DEC_STATUS.CSUM_BAD. -/
  csumBad : Bool
  /-- DEC_TC.TYPE. -/
  typ : Byte
  /-- DEC_TC.CODE. -/
  code : Byte
  /-- DEC_TC.PROTO. -/
  proto : Byte
  /-- DEC_TC.IHL. -/
  ihl : BitVec 4
  /-- DEC_CSUM.STORED. -/
  stored : Half
  /-- DEC_CSUM.COMPUTED. -/
  computed : Half
  /-- DEC_IDSEQ.ID. -/
  id : Half
  /-- DEC_IDSEQ.SEQ. -/
  seq : Half
  /-- DEC_PAY.OFF. -/
  off : Half
  /-- DEC_PAY.LEN. -/
  len : Half
  /-- DEC_SRC. -/
  src : Word
  /-- DEC_DST. -/
  dst : Word
  deriving DecidableEq, Repr

/-- The encode registers `ENC_TC`, `ENC_IDSEQ`, `ENC_LEN` (R42-R44). -/
structure Enc where
  /-- ENC_TC.TYPE. -/
  typ : Byte
  /-- ENC_TC.CODE. -/
  code : Byte
  /-- ENC_IDSEQ.ID. -/
  id : Half
  /-- ENC_IDSEQ.SEQ. -/
  seq : Half
  /-- ENC_LEN.PLEN. -/
  plen : Half
  /-- ENC_LEN.FSIZE. -/
  fsize : Half
  deriving DecidableEq, Repr

/-- `TX_INFO` (R45) and `TX_DST` (R46). -/
structure TxRegs where
  /-- TX_INFO.LEN. -/
  len : Half
  /-- TX_INFO.CSUM. -/
  csum : Half
  /-- TX_DST. -/
  dst : Word
  deriving DecidableEq, Repr

/-- `TH_HIGH` (R48), `TH_LOW` (R49), `LEN_FLOOR` (R50). -/
structure Thresholds where
  /-- TH_HIGH, Q4.12. -/
  high : Half
  /-- TH_LOW, Q4.12. -/
  low : Half
  /-- LEN_FLOOR. -/
  floor : Half
  deriving DecidableEq, Repr

/-- The entropy unit: `HIST` (R53), `ENT_N` (R51), `ENT_RESULT` (R52). -/
structure Ent where
  /-- HIST[0..255]. -/
  hist : Vector Half 256
  /-- ENT_N.N. -/
  n : Half
  /-- ENT_RESULT.SCORE. -/
  score : Half
  /-- ENT_RESULT.VERDICT. -/
  verdict : Verdict
  /-- ENT_RESULT.VALID. -/
  valid : Bool
  deriving DecidableEq, Repr

/-- A log record: four 32-bit words (R220). -/
structure LogRecord where
  /-- W0: kind, verdict, flags, score. -/
  w0 : Word
  /-- W1: source address. -/
  w1 : Word
  /-- W2: trimmed payload. -/
  w2 : Word
  /-- W3: identifier and sequence. -/
  w3 : Word
  deriving DecidableEq, Repr

/-- The buffer bytes that hold a known value: `RX[a]` under key `a`, `TX[a]` under `0x10000 + a` (R72). Keys strictly
rise; a key that is not listed has no known value (its byte is a draw, R281). -/
abbrev Memory := List Host.Cell

/-- Width of a host access in bytes (R74, R77). -/
inductive Width where
  /-- 1 byte. -/
  | w1
  /-- 2 bytes. -/
  | w2
  /-- 4 bytes. -/
  | w4
  deriving DecidableEq, Repr

/-- One host bus access (20_memory.md). -/
inductive HostAccess where
  /-- A read of the given width. -/
  | read (addr : Addr) (width : Width)
  /-- A write of the low bytes of `data`. -/
  | write (addr : Addr) (width : Width) (data : Word)
  deriving DecidableEq, Repr

/-- What the outside does to the block: a bus access, the platform's hardware reset (R280), or nothing, so that the
engine may move (the scheduling that R289 leaves open). -/
inductive Input where
  /-- The host's next bus access. -/
  | access (a : HostAccess)
  /-- The engine's turn: it executes the latched command if BUSY = 1. -/
  | engineTurn
  /-- A hardware reset. -/
  | hardReset
  deriving DecidableEq, Repr

/-- The response the host gets to an access. -/
inductive Response where
  /-- A read's data word. -/
  | data (v : Word)
  /-- A write was accepted. -/
  | written
  /-- The bus error response (R79). -/
  | busError
  /-- No response is specified: a write while busy (R258). -/
  | unspecified
  deriving DecidableEq, Repr

/-- One element of the observation: an access and its response (R18). -/
structure Exchange where
  /-- The access. -/
  access : HostAccess
  /-- Its response. -/
  response : Response
  deriving DecidableEq, Repr

/-- What the model keeps that the block does not (R17, R18): the inputs not yet taken, the observation, and the counters
that number the two kinds of draw. -/
structure Env where
  /-- Inputs not yet taken, first one first. -/
  inputs : List Input
  /-- Accesses done, first one first. -/
  seen : List Exchange
  /-- Hardware resets so far; numbers the buffer draws (assumption 2). -/
  resets : Nat
  /-- Reads while busy so far; numbers the read draws (assumption 5). -/
  draws : Nat
  deriving DecidableEq, Repr

/-- The reasons a step stops. -/
inductive Fault where
  /-- `HostFault(WriteWhileBusy)` (R258, U3): raised by a host write to a buffer address or register while
  `STATUS.BUSY = 1`. The write leaves the mark in the FAULT set, and every later step but a hardware reset stops with it.
  Safe: the run is refuted, so nothing is claimed of the unspecified behaviour that follows. -/
  | writeWhileBusy
  deriving DecidableEq, Repr

/-- Why an instruction has no meaning. -/
inductive Refusal where
  /-- The instruction is rejected by name: raised by an arm of exec that has no meaning yet (none at present). Safe. -/
  | notModelled (mnemonic : String)
  deriving DecidableEq, Repr

/-- The whole machine. -/
structure State where
  /-- STATUS (R22). -/
  status : Status
  /-- The hidden command latch CMDL (R23, R58). -/
  cmdl : Word
  /-- CTRL (R24). -/
  ctrl : Ctrl
  /-- CAP_LEN.LEN (R25). -/
  capLen : Half
  /-- ARG (R26). -/
  arg : Arg
  /-- EXP_PROTO.PROTO (R27). -/
  expProto : Byte
  /-- The checksum unit (R30-R32). -/
  csum : Csum
  /-- The decode result registers (R34-R40). -/
  dec : Dec
  /-- The encode registers (R42-R44). -/
  enc : Enc
  /-- The transmit registers (R45, R46). -/
  tx : TxRegs
  /-- The thresholds (R48-R50). -/
  th : Thresholds
  /-- The entropy unit (R51-R53). -/
  ent : Ent
  /-- FSTATE.STATE (R54). -/
  fstate : FilterState
  /-- The log FIFO, head first (R56); LOG_COUNT is its length (R55). -/
  log : List LogRecord
  /-- RXBUF and TXBUF (R57). -/
  mem : Memory
  /-- The model-only FAULT set (R58, R258). -/
  faults : List Fault
  /-- LOG_DEPTH (R8, R17): a parameter, changed by no step. -/
  logDepth : BitVec 8
  /-- The model's own environment. -/
  env : Env
  deriving DecidableEq, Repr

/-- The decode registers "cleared to 0" (10_state.md section 6, R151). -/
def Dec.cleared : Dec where
  dres := .none
  csumChecked := false
  csumBad := false
  typ := 0
  code := 0
  proto := 0
  ihl := 0
  stored := 0
  computed := 0
  id := 0
  seq := 0
  off := 0
  len := 0
  src := 0
  dst := 0

/-- The entropy unit after ENT.CLR and at reset (R184, R280). -/
def Ent.cleared : Ent where
  hist := Vector.replicate 256 0
  n := 0
  score := 0
  verdict := .benign
  valid := false

/-- The state right after a first hardware reset: the table of R280, no input, nothing observed. -/
def State.reset : State where
  status := { busy := false, err := .ok, lastOp := 0 }
  cmdl := 0
  ctrl := { csumVerify := true, mode := .passive, logMalformed := false }
  capLen := 0
  arg := { off := 0, len := 0 }
  expProto := 1
  csum := { acc := 0, par := false, res := 0 }
  dec := Dec.cleared
  enc := { typ := 8, code := 0, id := 0, seq := 0, plen := 0, fsize := 0 }
  tx := { len := 0, csum := 0, dst := 0 }
  th := { high := 0x6800, low := 0x1000, floor := 0x0010 }
  ent := Ent.cleared
  fstate := .idle
  log := []
  mem := []
  faults := []
  logDepth := Config.logDepthDefault
  env := { inputs := [], seen := [], resets := 0, draws := 0 }

end Sys2Proof.Machine
end

