-- ==== Sys2Proof/Machine/Ops.lean ====
section
/-! DEFINITION. The named operations over memory and state: reading and writing buffer bytes, ending a command (with
success or with an error code: the block's form of taking an exception, R250-R252, R257), the log FIFO, and the two
resets. -/

namespace Sys2Proof.Machine

open Sys2Proof

/-- The entries below address `a`. -/
def Memory.below (m : Memory) (a : Nat) : Memory := m.takeWhile fun c => decide (c.1 < a)

/-- The entries at or above address `a`. -/
def Memory.atOrAbove (m : Memory) (a : Nat) : Memory := m.dropWhile fun c => decide (c.1 < a)

/-- The byte of the first entry, if that entry is for address `a`. -/
def Memory.headByte (m : Memory) (a : Nat) : Option Byte :=
  match m with
  | [] => none
  | c :: _ => if c.1 = a then some c.2 else none

/-- The known byte at `a`, if `a` is listed. -/
def Memory.lookup (m : Memory) (a : Nat) : Option Byte := (m.atOrAbove a).headByte a

/-- The `n` bytes from `a` on, in one pass; `d` gives the bytes of addresses that are not listed. -/
def Memory.run (d : Nat → Byte) (m : Memory) (a : Nat) : Nat → List Byte
  | 0 => []
  | n + 1 => ((m.atOrAbove a).headByte a).getD (d a) :: Memory.run d (m.atOrAbove a) (a + 1) n

/-- The entries of the bytes `bs` from address `a` on. -/
def Memory.cells (a : Nat) : List Byte → Memory
  | [] => []
  | b :: bs => (a, b) :: Memory.cells (a + 1) bs

/-- Store the bytes `bs` from address `a` on. -/
def Memory.write (m : Memory) (a : Nat) (bs : List Byte) : Memory :=
  m.below a ++ (Memory.cells a bs ++ m.atOrAbove (a + bs.length))

/-- The canonical form: keys strictly rise and are buffer addresses (R72). An unlisted address has no known value, so no
entry can equal what an unlisted address holds. -/
abbrev Memory.wf (m : Memory) : Prop :=
  m.Pairwise (fun c d => c.1 < d.1) ∧ ∀ c ∈ m, c.1 < Config.regBase

/-- Host address of a buffer's byte 0 (R72). -/
def bufBase : Buf → Nat
  | .rx => Config.rxBase
  | .tx => Config.txBase

/-- What an unlisted address reads as: the draw of R281. -/
def State.drawn (s : State) (a : Nat) : Byte := Config.bufferByte s.env.resets a

/-- The byte at host address `a` of the buffers: the byte last written, or the draw (R57, R86, R281). -/
def State.byteAt (s : State) (a : Nat) : Byte := (s.mem.lookup a).getD (s.drawn a)

/-- The `n` bytes from host address `a` on. -/
def State.bytesAt (s : State) (a n : Nat) : List Byte := s.mem.run s.drawn a n

/-- `B[a]` (R11). -/
def State.bufByte (s : State) (b : Buf) (a : Nat) : Byte := s.byteAt (bufBase b + a)

/-- `B[a .. a+n)` (R11). -/
def State.bufBytes (s : State) (b : Buf) (a n : Nat) : List Byte := s.bytesAt (bufBase b + a) n

/-- Store bytes from host address `a` on. -/
def State.writeAt (s : State) (a : Nat) (bs : List Byte) : State := { s with mem := s.mem.write a bs }

/-- Store bytes at offset `a` of a buffer. -/
def State.writeBuf (s : State) (b : Buf) (a : Nat) (bs : List Byte) : State := s.writeAt (bufBase b + a) bs

/-- The end of a command: `LAST_OP` is its OP byte, `ERR` its result, and `BUSY` is cleared (R14, R250, R257). This one
operation is the block's whole exception mechanism: nothing is saved and control goes nowhere. -/
def State.finish (s : State) (op : Byte) (e : CmdError) : State :=
  { s with status := { busy := false, err := e, lastOp := op } }

/-- `done` (R13): the command `i` completes. -/
def State.done (s : State) (i : Instr) : State := s.finish i.opcode .ok

/-- `raise CmdError(e)` (R13): the command `i` ends with a code and writes nothing else (R251). -/
def State.raise (s : State) (i : Instr) (e : CmdError) : State := s.finish i.opcode e

/-- `Push(r)` (R11, R221). -/
def State.push (s : State) (r : LogRecord) : State := { s with log := s.log ++ [r] }

/-- `Pop()` (R11, R222). -/
def State.popLog (s : State) : State := { s with log := s.log.tail }

/-- LOG holds LOG_DEPTH records (R210, R211). -/
def State.logIsFull (s : State) : Bool := s.log.length == s.logDepth.toNat

/-- Every register, HIST and LOG at its reset value; the buffers, FAULT, the parameter, CMDL and the environment are kept
(R241, R282). -/
def State.softReset (s : State) : State :=
  { State.reset with
    cmdl := s.cmdl
    mem := s.mem
    faults := s.faults
    logDepth := s.logDepth
    env := s.env }

/-- A hardware reset: the table of R280, new draws for every buffer byte (R281), no command pending (R282), FAULT empty. -/
def State.hardReset (s : State) : State :=
  { State.reset with
    logDepth := s.logDepth
    env := { s.env with resets := s.env.resets + 1 } }

end Sys2Proof.Machine
end

