-- ==== Sys2Proof/Machine/Control.lean ====
section
/-! DEFINITION. The control commands NOP and SRESET, and what the engine does with an illegal word (44_control.md). -/

namespace Sys2Proof.Machine

open Sys2Proof

/-- `NOP` (R240): it clears a previous ERR. -/
def execNop (s : State) : Host.Outcome State Fault Refusal := .next (s.done .nop)

/-- `SRESET` (R241): RXBUF, TXBUF and FAULT are kept (R282). -/
def execSreset (s : State) : Host.Outcome State Fault Refusal := .next (s.softReset.done .sreset)

/-- A latched word that matches no row (R242): `LAST_OP` records its OP byte, `ERR` is ILLEGAL, nothing else changes. -/
def execIllegal (w : Word) (s : State) : Host.Outcome State Fault Refusal :=
  .next (s.finish (w.extractLsb' 0 8) .illegal)

end Sys2Proof.Machine
end

