-- ==== Sys2Proof/Machine/Operands.lean ====
section
/-! DEFINITION. The operand forms of the commands (30_encoding.md R102): the ARG range of a `*.BUF` command, and the
engine's big-endian view of a buffer, MemRead and MemWrite (00_scope.md R12, 20_memory.md R73). -/

namespace Sys2Proof.Machine

open Sys2Proof

/-- `ARG.OFF + ARG.LEN <= 65536`: no RANGE error (R136, R186, R252). -/
def State.argInRange (s : State) : Bool := decide (s.arg.off.toNat + s.arg.len.toNat ≤ Config.bufSize)

/-- `B[ARG.OFF .. ARG.OFF+ARG.LEN)` (R26). -/
def State.argBytes (s : State) (b : Buf) : List Byte := s.bufBytes b s.arg.off.toNat s.arg.len.toNat

/-- The big-endian value of a byte string (R12). -/
def beValue (bs : List Byte) : Nat := bs.foldl (fun v b => v * 256 + b.toNat) 0

/-- The `n` big-endian bytes of `v` (R12). -/
def beBytes : Nat → Nat → List Byte
  | 0, _ => []
  | n + 1, v => BitVec.ofNat 8 (v / 256 ^ n) :: beBytes n v

/-- `MemRead(B, a, n)` (R12). -/
def State.memRead (s : State) (b : Buf) (a n : Nat) : Nat := beValue (s.bufBytes b a n)

/-- `MemWrite(B, a, n, v)` (R12). -/
def State.memWrite (s : State) (b : Buf) (a n v : Nat) : State := s.writeBuf b a (beBytes n v)

/-- `MemRead(RX, a, 2)` as a 16-bit field. -/
def State.rxHalf (s : State) (a : Nat) : Half := BitVec.ofNat 16 (s.memRead .rx a 2)

/-- `MemRead(RX, a, 4)` as a 32-bit register. -/
def State.rxWord (s : State) (a : Nat) : Word := BitVec.ofNat 32 (s.memRead .rx a 4)

end Sys2Proof.Machine
end

