-- ==== Sys2Proof/Machine/Checksum.lean ====
section
/-! DEFINITION. The ChecksumEngine (40_checksum.md): the accumulator over big-endian 16-bit words, the finaliser, and the
five CSUM commands. The same function, in a copy of its own, serves DECODE, ENCODE and PROCESS. -/

namespace Sys2Proof.Machine

open Sys2Proof

/-- `AddByte((acc, par), b)` (R130). -/
def addByte (t : Word × Bool) (b : Byte) : Word × Bool :=
  if t.2 then (t.1 + b.setWidth 32, false) else (t.1 + b.setWidth 32 <<< 8, true)

/-- `AddBytes(t, s)` (R130). -/
def addBytes (t : Word × Bool) (bs : List Byte) : Word × Bool := bs.foldl addByte t

/-- `Fold(acc)`: two folds of the carries and the complement (R132). -/
def foldSum (acc : Word) : Half :=
  let s1 := acc.toNat % 65536 + acc.toNat / 65536
  let s2 := s1 % 65536 + s1 / 65536
  BitVec.ofNat 16 (65535 - s2 % 65536)

/-- `Checksum(s)` (R131). -/
def checksum (bs : List Byte) : Half := foldSum (addBytes (0, false) bs).1

/-- `ChecksumZ(s, z)`: the checksum with the field at offset `z` read as 0 (R131). -/
def checksumZ (bs : List Byte) (z : Nat) : Half := checksum ((bs.set z 0).set (z + 1) 0)

/-- Add bytes to the visible accumulator. -/
def State.accumulate (s : State) (bs : List Byte) : State :=
  { s with csum := { s.csum with
      acc := (addBytes (s.csum.acc, s.csum.par) bs).1
      par := (addBytes (s.csum.acc, s.csum.par) bs).2 } }

/-- `CSUM.CLR` (R133): `CSUM_RES` is kept. -/
def execCsumClr (s : State) : Host.Outcome State Fault Refusal :=
  .next ({ s with csum := { s.csum with acc := 0, par := false } }.done .csumClr)

/-- `CSUM.BYTE imm8` (R134). -/
def execCsumByte (imm8 : Byte) (s : State) : Host.Outcome State Fault Refusal :=
  .next ((s.accumulate [imm8]).done (.csumByte imm8))

/-- `CSUM.WORD imm16` (R135): two bytes, high first. -/
def execCsumWord (imm16 : Half) (s : State) : Host.Outcome State Fault Refusal :=
  .next ((s.accumulate [imm16.extractLsb' 8 8, imm16.extractLsb' 0 8]).done (.csumWord imm16))

/-- `CSUM.BUF rx|tx` (R136). -/
def execCsumBuf (b : Buf) (s : State) : Host.Outcome State Fault Refusal :=
  if s.argInRange then .next ((s.accumulate (s.argBytes b)).done (.csumBuf b))
  else .next (s.raise (.csumBuf b) .range)

/-- `CSUM.FIN` (R137): the accumulator is kept. -/
def execCsumFin (s : State) : Host.Outcome State Fault Refusal :=
  .next ({ s with csum := { s.csum with res := foldSum s.csum.acc } }.done .csumFin)

end Sys2Proof.Machine
end

