-- ==== Sys2Proof/Machine/Codec.lean ====
section
/-! DEFINITION. The FrameCodec (41_codec.md): DecodeFrame, EncodeFrame, and the commands DECODE and ENCODE. -/

namespace Sys2Proof.Machine

open Sys2Proof

/-- `RX[a]` (R11). -/
def State.rx (s : State) (a : Nat) : Byte := s.bufByte .rx a

/-- Step (1) of the decode: the header-length field, 0 for an empty capture (R152). -/
def State.frameIhl (s : State) : BitVec 4 :=
  if 1 ≤ s.capLen.toNat then (s.rx 0).extractLsb' 0 4 else 0

/-- `hlen`, the declared outer-header length in bytes (R152). -/
def State.frameHlen (s : State) : Nat := 4 * s.frameIhl.toNat

/-- Step (2) fails: the frame is TruncatedFrame (R153). -/
def State.frameTruncated (s : State) : Bool :=
  decide (s.frameHlen < Config.minOuterHdr) || decide (s.capLen.toNat < s.frameHlen + Config.innerHdr)

/-- Step (3) fails: the frame is WrongProtocol (R154). -/
def State.frameWrongProto (s : State) : Bool := s.rx Config.protoOff != s.expProto

/-- The inner frame `RX[hlen .. L)`, header and payload (R157). -/
def State.innerFrame (s : State) : List Byte :=
  s.bufBytes .rx s.frameHlen (s.capLen.toNat - s.frameHlen)

/-- The recomputed checksum, with the checksum field read as 0 (R157). -/
def State.frameChecksum (s : State) : Half := checksumZ s.innerFrame 2

/-- Steps (4) and (5) and the verification: what a frame that passed both checks leaves (R151, R155-R157). -/
def State.decodeInner (s : State) : Dec :=
  let h := s.frameHlen
  let stored := s.rxHalf (h + 2)
  { dres := .ok
    csumChecked := s.ctrl.csumVerify
    csumBad := s.ctrl.csumVerify && s.frameChecksum != stored
    typ := s.rx h
    code := s.rx (h + 1)
    proto := s.rx Config.protoOff
    ihl := s.frameIhl
    stored := stored
    computed := if s.ctrl.csumVerify then s.frameChecksum else 0
    id := s.rxHalf (h + 4)
    seq := s.rxHalf (h + 6)
    off := BitVec.ofNat 16 (h + Config.innerHdr)
    len := BitVec.ofNat 16 (s.capLen.toNat - h - Config.innerHdr)
    src := s.rxWord Config.srcOff
    dst := s.rxWord Config.dstOff }

/-- `DecodeFrame()`: the seven DEC_* registers it leaves (R151). -/
def State.decodeFrame (s : State) : Dec :=
  if s.frameTruncated then { Dec.cleared with ihl := s.frameIhl, dres := .truncated }
  else if s.frameWrongProto then
    { Dec.cleared with ihl := s.frameIhl, proto := s.rx Config.protoOff, dres := .wrongProto }
  else s.decodeInner

/-- `DECODE` (R150). -/
def execDecode (s : State) : Host.Outcome State Fault Refusal :=
  .next ({ s with dec := s.decodeFrame }.done .decode)

/-- The inner header with a zero checksum field (R107, R164). -/
def echoHeader (typ code : Byte) (id seq : Half) : List Byte :=
  [typ, code] ++ (beBytes 2 0 ++ (beBytes 2 id.toNat ++ beBytes 2 seq.toNat))

/-- The header and the pad bytes of `EncodeFrame` in TXBUF, before the checksum is written (R164). -/
def State.layFrame (s : State) (typ code : Byte) (id seq : Half) (plen flen : Nat) : State :=
  (s.writeBuf .tx 0 (echoHeader typ code id seq)).writeBuf .tx (Config.innerHdr + plen)
    (List.replicate (flen - (Config.innerHdr + plen)) Config.padByte)

/-- Checksum the laid frame, write the checksum back and report it in `TX_INFO` (R164). -/
def State.sealFrame (s : State) (flen : Nat) : State :=
  let c := checksum (s.bufBytes .tx 0 flen)
  { s.memWrite .tx 2 2 c.toNat with tx := { s.tx with len := BitVec.ofNat 16 flen, csum := c } }

/-- `EncodeFrame(type, code, id, seq, plen, flen)` (R164). -/
def State.encodeFrame (s : State) (typ code : Byte) (id seq : Half) (plen flen : Nat) : State :=
  (s.layFrame typ code id seq plen flen).sealFrame flen

/-- `ENC_TOO_LARGE`: the 16-bit length check, then the fixed-size check (R163, R166, R254). -/
def State.encodeTooLarge (s : State) : Bool :=
  decide (0xFFFF < Config.innerHdr + s.enc.plen.toNat) ||
    (s.enc.fsize != 0 && decide (s.enc.fsize.toNat < Config.innerHdr + s.enc.plen.toNat))

/-- The frame length ENCODE builds (R163). -/
def State.encodeFlen (s : State) : Nat :=
  if s.enc.fsize = 0 then Config.innerHdr + s.enc.plen.toNat else s.enc.fsize.toNat

/-- `ENCODE` (R163). -/
def execEncode (s : State) : Host.Outcome State Fault Refusal :=
  if s.encodeTooLarge then .next (s.raise .encode .encTooLarge)
  else .next ((s.encodeFrame s.enc.typ s.enc.code s.enc.id s.enc.seq s.enc.plen.toNat s.encodeFlen).done .encode)

end Sys2Proof.Machine
end

