-- ==== Sys2Proof/Machine/Entropy.lean ====
section
/-! DEFINITION. The EntropyClassifier (42_entropy.md): the histogram, the exact comparison of the entropy with a Q4.12
threshold, the score and the verdict, and the four ENT commands. All numbers are naturals (R181): no logarithm is
computed. -/

namespace Sys2Proof.Machine

open Sys2Proof

/-- One more byte of value `b` (R185). -/
def bump (h : Vector Half 256) (b : Byte) : Vector Half 256 :=
  h.set b.toNat (h[b.toNat]'b.isLt + 1) b.isLt

/-- One more of each byte, in order (R186). -/
def bumpAll (h : Vector Half 256) (bs : List Byte) : Vector Half 256 := bs.foldl bump h

/-- The counts `c[0..255]` of a histogram (R180). -/
def counts (h : Vector Half 256) : List Nat := h.toList.map BitVec.toNat

/-- `P`, the product of `c[v]^c[v]` (R181); `0^0 = 1`, so unobserved values contribute nothing. -/
def countPower (c : List Nat) : Nat := (c.map fun k => k ^ k).prod

/-- `n^(4096*n)` (R181). -/
def totalPower (n : Nat) : Nat := (n ^ n) ^ 4096

/-- `2^(n*T) * P^4096` (R181). -/
def thresholdPower (c : List Nat) (t : Nat) : Nat := (2 ^ t) ^ c.sum * countPower c ^ 4096

/-- `H > T/4096`, decided exactly (R181). -/
def entropyAbove (c : List Nat) (t : Half) : Bool :=
  decide (0 < c.sum) && decide (thresholdPower c t.toNat < totalPower c.sum)

/-- `H < T/4096`, decided exactly (R181). -/
def entropyBelow (c : List Nat) (t : Half) : Bool :=
  if c.sum = 0 then decide (0 < t.toNat) else decide (totalPower c.sum < thresholdPower c t.toNat)

/-- `2^(n*k) * P^4096 <= n^(4096*n)`: the score is at least `k` (R182). -/
def scoreAtLeast (c : List Nat) (k : Nat) : Bool := decide (thresholdPower c k ≤ totalPower c.sum)

/-- The largest score below `k + 2^b` that R182 admits, found bit by bit; `k` is already admitted. -/
def searchScore (c : List Nat) : Nat → Nat → Nat
  | 0, k => k
  | b + 1, k => bif scoreAtLeast c (k + 2 ^ b) then searchScore c b (k + 2 ^ b) else searchScore c b k

/-- `Score(c) = floor(4096 * H(c))`: the largest `k` with `2^(n*k) * P^4096 <= n^(4096*n)`, and 0 for `n = 0` (R182). It
is a 16-bit field, and R182 bounds it by 0x8000, so the search is over 16 bits. -/
def entropyScore (c : List Nat) : Nat := if c.sum = 0 then 0 else searchScore c 16 0

/-- `Verdict(c, n)`, evaluated in this order (R183). -/
def verdictOf (c : List Nat) (n : Nat) (th : Thresholds) : Verdict :=
  if entropyAbove c th.high then .suspiciousHigh
  else if entropyBelow c th.low && decide (th.floor.toNat < n) then .suspiciousLow
  else .benign

/-- Classify the histogram: SCORE, VERDICT, VALID (R187, R213). -/
def State.classify (s : State) : State :=
  { s with ent := { s.ent with
      score := BitVec.ofNat 16 (entropyScore (counts s.ent.hist))
      verdict := verdictOf (counts s.ent.hist) s.ent.n.toNat s.th
      valid := true } }

/-- Count the bytes `bs` and clear VALID (R185, R186). -/
def State.count (s : State) (bs : List Byte) : State :=
  { s with ent := { s.ent with
      hist := bumpAll s.ent.hist bs
      n := s.ent.n + BitVec.ofNat 16 bs.length
      valid := false } }

/-- The count `ENT_N + k` still fits 16 bits: no ENT_FULL (R185, R186). -/
def State.entFits (s : State) (k : Nat) : Bool := decide (s.ent.n.toNat + k ≤ 0xFFFF)

/-- `ENT.CLR` (R184). -/
def execEntClr (s : State) : Host.Outcome State Fault Refusal :=
  .next ({ s with ent := Ent.cleared }.done .entClr)

/-- `ENT.BYTE imm8` (R185). -/
def execEntByte (imm8 : Byte) (s : State) : Host.Outcome State Fault Refusal :=
  if s.entFits 1 then .next ((s.count [imm8]).done (.entByte imm8))
  else .next (s.raise (.entByte imm8) .entFull)

/-- `ENT.BUF rx|tx`: RANGE is checked before ENT_FULL (R186, R254). -/
def execEntBuf (b : Buf) (s : State) : Host.Outcome State Fault Refusal :=
  if !s.argInRange then .next (s.raise (.entBuf b) .range)
  else if !s.entFits s.arg.len.toNat then .next (s.raise (.entBuf b) .entFull)
  else .next ((s.count (s.argBytes b)).done (.entBuf b))

/-- `ENT.CLASSIFY` (R187): the histogram is not changed. -/
def execEntClassify (s : State) : Host.Outcome State Fault Refusal :=
  .next (s.classify.done .entClassify)

end Sys2Proof.Machine
end

