-- ==== Sys2Proof/Machine/Flags.lean ====
section
/-! DEFINITION. The codes of the status fields and the 32-bit words in which software sees the registers (10_state.md
section 2). The block has no arithmetic condition codes (R59); these fields are its status flags. -/

namespace Sys2Proof.Machine

open Sys2Proof

/-- The code of a command result (R252). -/
def CmdError.toBits : CmdError → BitVec 4
  | .ok => 0
  | .illegal => 1
  | .range => 2
  | .encTooLarge => 3
  | .entFull => 4
  | .logFull => 5
  | .logEmpty => 6

/-- The code of a mode (R24). -/
def Mode.toBits : Mode → BitVec 2
  | .observe => 0
  | .passive => 1
  | .active => 2

/-- The mode a write of `v` to CTRL[2:1] leaves: 0b11 keeps the old one (R24). -/
def Mode.write (old : Mode) (v : BitVec 2) : Mode :=
  match v.toNat with
  | 0 => .observe
  | 1 => .passive
  | 2 => .active
  | _ => old

/-- The code of a decode result (R34). -/
def DecodeResult.toBits : DecodeResult → BitVec 2
  | .none => 0
  | .ok => 1
  | .truncated => 2
  | .wrongProto => 3

/-- The code of a verdict (R52). -/
def Verdict.toBits : Verdict → BitVec 2
  | .benign => 0
  | .suspiciousHigh => 1
  | .suspiciousLow => 2

/-- The code of a filter state (R54). -/
def FilterState.toBits : FilterState → BitVec 3
  | .idle => 0
  | .received => 1
  | .classified => 2
  | .blocked => 3
  | .passed => 4
  | .replied => 5
  | .dropped => 6

/-- One bit. -/
def bit (b : Bool) : BitVec 1 := BitVec.ofBool b

/-- `STATUS` (R22). -/
def State.statusWord (s : State) : Word :=
  (0 : BitVec 16) ++ (s.status.lastOp ++ (s.status.err.toBits ++ ((0 : BitVec 3) ++ bit s.status.busy)))

/-- `CTRL` (R24). -/
def State.ctrlWord (s : State) : Word :=
  (0 : BitVec 28) ++ (bit s.ctrl.logMalformed ++ (s.ctrl.mode.toBits ++ bit s.ctrl.csumVerify))

/-- Two 16-bit fields: `hi` in bits 31:16, `lo` in bits 15:0. -/
def halves (hi lo : Half) : Word := hi ++ lo

/-- A 16-bit field in bits 15:0; the upper half is reserved. -/
def lowHalf (lo : Half) : Word := halves 0 lo

/-- `DEC_STATUS` (R34). -/
def State.decStatusWord (s : State) : Word :=
  (0 : BitVec 28) ++ (bit s.dec.csumBad ++ (bit s.dec.csumChecked ++ s.dec.dres.toBits))

/-- `DEC_TC` (R35). -/
def State.decTcWord (s : State) : Word :=
  (0 : BitVec 4) ++ (s.dec.ihl ++ (s.dec.proto ++ (s.dec.code ++ s.dec.typ)))

/-- `ENT_RESULT` (R52). -/
def State.entResultWord (s : State) : Word :=
  bit s.ent.valid ++ ((0 : BitVec 13) ++ (s.ent.verdict.toBits ++ s.ent.score))

/-- `LOG_COUNT` (R55). -/
def State.logCountWord (s : State) : Word := BitVec.setWidth 32 (BitVec.ofNat 8 s.log.length)

/-- The head record of LOG, all zero when LOG is empty (R56). -/
def State.logHead (s : State) : LogRecord := s.log.headD { w0 := 0, w1 := 0, w2 := 0, w3 := 0 }

end Sys2Proof.Machine
end

