-- ==== Sys2Proof/Machine/Filter.lean ====
section
/-! DEFINITION. The DefenseEngine (43_filter.md): trimming, log records, the reply, and the commands PROCESS and
LOG.POP. -/

namespace Sys2Proof.Machine

open Sys2Proof

/-- The whitespace set W (R219). -/
def isSpace (b : Byte) : Bool := [0x09, 0x0A, 0x0B, 0x0C, 0x0D, 0x20].contains b

/-- How many leading bytes are whitespace. -/
def leadingSpaces (p : List Byte) : Nat := (p.takeWhile isSpace).length

/-- The payload the DEC_PAY register points to: `RX[OFF .. OFF+LEN)` (R38). -/
def State.payload (s : State) : List Byte := s.bufBytes .rx s.dec.off.toNat s.dec.len.toNat

/-- TRIM_OFF and TRIM_LEN (R218). -/
def State.trim (s : State) : Half × Half :=
  let p := s.payload
  if p.all isSpace then (s.dec.off, 0)
  else (s.dec.off + BitVec.ofNat 16 (leadingSpaces p),
    BitVec.ofNat 16 (p.length - leadingSpaces p - leadingSpaces p.reverse))

/-- W0 of a record: KIND 3:0, VERDICT 5:4, CSUM_BAD 6, DRES 9:8, SCORE 31:16 (R220). -/
def recordHead (kind : BitVec 4) (verdict : Verdict) (csumBad : Bool) (dres : DecodeResult) (score : Half) : Word :=
  score ++ ((0 : BitVec 6) ++ (dres.toBits ++ ((0 : BitVec 1) ++ (bit csumBad ++ (verdict.toBits ++ kind)))))

/-- The BLOCK record, KIND 1 (R220). -/
def State.blockRecord (s : State) : LogRecord where
  w0 := recordHead 1 s.ent.verdict s.dec.csumBad .ok s.ent.score
  w1 := s.dec.src
  w2 := 0
  w3 := halves s.dec.seq s.dec.id

/-- The PASS record, KIND 2 (R220): VERDICT 0, and the trimmed payload. -/
def State.passRecord (s : State) : LogRecord where
  w0 := recordHead 2 .benign s.dec.csumBad .ok s.ent.score
  w1 := s.dec.src
  w2 := halves s.trim.2 s.trim.1
  w3 := halves s.dec.seq s.dec.id

/-- The OBSERVE record, KIND 3 (R220). -/
def State.observeRecord (s : State) : LogRecord where
  w0 := recordHead 3 s.ent.verdict s.dec.csumBad .ok s.ent.score
  w1 := s.dec.src
  w2 := 0
  w3 := halves s.dec.seq s.dec.id

/-- The DROP record, KIND 4 (R220): only the decode result. -/
def State.dropRecord (s : State) : LogRecord where
  w0 := recordHead 4 .benign false s.dec.dres 0
  w1 := 0
  w2 := 0
  w3 := 0

/-- `BuildReply()` (R217): the untrimmed payload, type 0, code 0, the request's identifier and sequence, no padding. -/
def State.buildReply (s : State) : State :=
  let t := (s.writeBuf .tx Config.innerHdr s.payload).encodeFrame 0 0 s.dec.id s.dec.seq
    s.dec.len.toNat (Config.innerHdr + s.dec.len.toNat)
  { t with tx := { t.tx with dst := s.dec.src } }

/-- The terminal state of the machine. -/
def State.settle (s : State) (f : FilterState) : State := { s with fstate := f }

/-- A frame that failed decode: dropped, logged only if `CTRL.LOG_MALFORMED` (R212). -/
def State.dropFrame (s : State) : State :=
  let t := s.settle .dropped
  if s.ctrl.logMalformed then t.push t.dropRecord else t

/-- Received -> Classified: clear the entropy unit, count exactly the payload, classify (R213). -/
def State.classifyFrame (s : State) : State :=
  (({ s with ent := Ent.cleared } : State).count s.payload).classify

/-- The machine from Classified on (R214-R217, R223). -/
def State.filterVerdict (s : State) : State :=
  if s.ctrl.mode = .observe then (s.settle .classified).push s.observeRecord
  else if s.ent.verdict ≠ .benign then (s.settle .blocked).push s.blockRecord
  else if s.ctrl.mode = .passive then (s.settle .passed).push s.passRecord
  else ((s.push s.passRecord).buildReply).settle .replied

/-- `PROCESS` (R210): LOG_FULL is checked before anything is written (R211). -/
def execProcess (s : State) : Host.Outcome State Fault Refusal :=
  if s.logIsFull then .next (s.raise .process .logFull)
  else
    let t : State := { s with dec := s.decodeFrame }
    if t.dec.dres ≠ .ok then .next (t.dropFrame.done .process)
    else .next (t.classifyFrame.filterVerdict.done .process)

/-- `LOG.POP` (R222). -/
def execLogPop (s : State) : Host.Outcome State Fault Refusal :=
  if s.log.isEmpty then .next (s.raise .logPop .logEmpty)
  else .next (s.popLog.done .logPop)

end Sys2Proof.Machine
end

