-- ==== Sys2Proof/Machine/Dispatch.lean ====
section
/-! DEFINITION. The dispatch: one arm per command (30_encoding.md R104), each one call of its meaning. -/

namespace Sys2Proof.Machine

open Sys2Proof

def exec (i : Instr) (s : State) : Host.Outcome State Fault Refusal :=
  match i with
  -- 44_control.md
  | .nop => Sys2Proof.Machine.execNop s
  -- 40_checksum.md
  | .csumClr => Sys2Proof.Machine.execCsumClr s
  | .csumByte imm8 => Sys2Proof.Machine.execCsumByte imm8 s
  | .csumWord imm16 => Sys2Proof.Machine.execCsumWord imm16 s
  | .csumBuf b => Sys2Proof.Machine.execCsumBuf b s
  | .csumFin => Sys2Proof.Machine.execCsumFin s
  -- 41_codec.md
  | .decode => Sys2Proof.Machine.execDecode s
  | .encode => Sys2Proof.Machine.execEncode s
  -- 42_entropy.md
  | .entClr => Sys2Proof.Machine.execEntClr s
  | .entByte imm8 => Sys2Proof.Machine.execEntByte imm8 s
  | .entBuf b => Sys2Proof.Machine.execEntBuf b s
  | .entClassify => Sys2Proof.Machine.execEntClassify s
  -- 43_filter.md
  | .process => Sys2Proof.Machine.execProcess s
  | .logPop => Sys2Proof.Machine.execLogPop s
  -- 44_control.md
  | .sreset => Sys2Proof.Machine.execSreset s

end Sys2Proof.Machine
end

