-- ==== Sys2Proof/Machine/Host.lean ====
section
/-! DEFINITION. The host side of the block: the register map (10_state.md section 2), bus accesses with their responses
(20_memory.md), and the host's notation and macros (30_encoding.md R112, R113) as lists of inputs. -/

namespace Sys2Proof.Machine

open Sys2Proof

/-- The named registers of the map (10_state.md section 2). -/
inductive RegName where
  | cmd | status | ctrl | capLen | arg | expProto | id
  | csumAcc | csumStat | csumRes
  | decStatus | decTc | decCsum | decIdseq | decPay | decSrc | decDst
  | encTc | encIdseq | encLen | txInfo | txDst
  | thHigh | thLow | lenFloor | entN | entResult
  | fstate | logCount | logW0 | logW1 | logW2 | logW3
  deriving DecidableEq, Repr

/-- A register of the window: a named one, or a histogram counter (10_state.md section 2). -/
inductive Reg where
  /-- A named register. -/
  | named (r : RegName)
  /-- `HIST[v]`. -/
  | hist (v : Byte)
  deriving DecidableEq, Repr

/-- Offset of a named register from `REG_BASE` (10_state.md section 2). -/
def RegName.offset : RegName → Nat
  | .cmd => 0x000
  | .status => 0x004
  | .ctrl => 0x008
  | .capLen => 0x00C
  | .arg => 0x010
  | .expProto => 0x014
  | .id => 0x01C
  | .csumAcc => 0x020
  | .csumStat => 0x024
  | .csumRes => 0x028
  | .decStatus => 0x040
  | .decTc => 0x044
  | .decCsum => 0x048
  | .decIdseq => 0x04C
  | .decPay => 0x050
  | .decSrc => 0x054
  | .decDst => 0x058
  | .encTc => 0x060
  | .encIdseq => 0x064
  | .encLen => 0x068
  | .txInfo => 0x06C
  | .txDst => 0x070
  | .thHigh => 0x080
  | .thLow => 0x084
  | .lenFloor => 0x088
  | .entN => 0x08C
  | .entResult => 0x090
  | .fstate => 0x0A0
  | .logCount => 0x0A4
  | .logW0 => 0x0B0
  | .logW1 => 0x0B4
  | .logW2 => 0x0B8
  | .logW3 => 0x0BC

/-- Offset of a register from `REG_BASE` (10_state.md section 2). -/
def Reg.offset : Reg → Nat
  | .named r => r.offset
  | .hist v => 0x400 + 4 * v.toNat

/-- The named registers, in the order of the map. -/
def RegName.all : List RegName :=
  [.cmd, .status, .ctrl, .capLen, .arg, .expProto, .id, .csumAcc, .csumStat, .csumRes,
   .decStatus, .decTc, .decCsum, .decIdseq, .decPay, .decSrc, .decDst,
   .encTc, .encIdseq, .encLen, .txInfo, .txDst, .thHigh, .thLow, .lenFloor, .entN, .entResult,
   .fstate, .logCount, .logW0, .logW1, .logW2, .logW3]

/-- The register at a 4-aligned offset of the window; none at a reserved offset (R80). The histogram is the upper half of
the window: `0x400 + 4*v` has bit 10 set and `v` in bits 9:2 (R53). -/
def regAt (off : BitVec 11) : Option Reg :=
  if off.getLsbD 10 then some (.hist (off.extractLsb' 2 8))
  else (RegName.all.find? fun r => r.offset == off.toNat).map Reg.named

/-- The word a host read of a named register returns while the block is idle (10_state.md; reserved bits read 0, R80). -/
def State.readNamed (s : State) : RegName → Word
  | .cmd => 0
  | .status => s.statusWord
  | .ctrl => s.ctrlWord
  | .capLen => lowHalf s.capLen
  | .arg => halves s.arg.len s.arg.off
  | .expProto => s.expProto.setWidth 32
  | .id => Config.id
  | .csumAcc => s.csum.acc
  | .csumStat => (bit s.csum.par).setWidth 32
  | .csumRes => lowHalf s.csum.res
  | .decStatus => s.decStatusWord
  | .decTc => s.decTcWord
  | .decCsum => halves s.dec.computed s.dec.stored
  | .decIdseq => halves s.dec.seq s.dec.id
  | .decPay => halves s.dec.len s.dec.off
  | .decSrc => s.dec.src
  | .decDst => s.dec.dst
  | .encTc => lowHalf (s.enc.code ++ s.enc.typ)
  | .encIdseq => halves s.enc.seq s.enc.id
  | .encLen => halves s.enc.fsize s.enc.plen
  | .txInfo => halves s.tx.csum s.tx.len
  | .txDst => s.tx.dst
  | .thHigh => lowHalf s.th.high
  | .thLow => lowHalf s.th.low
  | .lenFloor => lowHalf s.th.floor
  | .entN => lowHalf s.ent.n
  | .entResult => s.entResultWord
  | .fstate => s.fstate.toBits.setWidth 32
  | .logCount => s.logCountWord
  | .logW0 => s.logHead.w0
  | .logW1 => s.logHead.w1
  | .logW2 => s.logHead.w2
  | .logW3 => s.logHead.w3

/-- The word a host read of a register returns while the block is idle (R53 for the histogram). -/
def State.readReg (s : State) : Reg → Word
  | .named r => s.readNamed r
  | .hist v => lowHalf (s.ent.hist[v.toNat]'v.isLt)

/-- Bits 15:0 of a data word. -/
def lo16 (v : Word) : Half := v.extractLsb' 0 16

/-- Bits 31:16 of a data word. -/
def hi16 (v : Word) : Half := v.extractLsb' 16 16

/-- A write to `CMD` while idle latches the word and sets BUSY (R23). -/
def State.latch (s : State) (w : Word) : State :=
  { s with cmdl := w, status := { s.status with busy := true } }

/-- A write to `CTRL` (R24). -/
def Ctrl.write (c : Ctrl) (v : Word) : Ctrl where
  csumVerify := v.getLsbD 0
  mode := c.mode.write (v.extractLsb' 1 2)
  logMalformed := v.getLsbD 3

/-- A host write of a named register while the block is idle; a write to a RO register is ignored (R81). -/
def State.writeNamed (s : State) (v : Word) : RegName → State
  | .cmd => s.latch v
  | .ctrl => { s with ctrl := s.ctrl.write v }
  | .capLen => { s with capLen := lo16 v }
  | .arg => { s with arg := { off := lo16 v, len := hi16 v } }
  | .expProto => { s with expProto := v.extractLsb' 0 8 }
  | .encTc => { s with enc := { s.enc with typ := v.extractLsb' 0 8, code := v.extractLsb' 8 8 } }
  | .encIdseq => { s with enc := { s.enc with id := lo16 v, seq := hi16 v } }
  | .encLen => { s with enc := { s.enc with plen := lo16 v, fsize := hi16 v } }
  | .thHigh => { s with th := { s.th with high := lo16 v } }
  | .thLow => { s with th := { s.th with low := lo16 v } }
  | .lenFloor => { s with th := { s.th with floor := lo16 v } }
  | _ => s

/-- A host write of a register while the block is idle; the histogram is RO (R53, R81). -/
def State.writeReg (s : State) (v : Word) : Reg → State
  | .named r => s.writeNamed v r
  | .hist _ => s

/-- Bytes moved by an access (R74). -/
def Width.bytes : Width → Nat
  | .w1 => 1
  | .w2 => 2
  | .w4 => 4

/-- Regions of the address map (R72). -/
inductive Region where
  /-- RXBUF or TXBUF. -/
  | buffer
  /-- The register window, at this offset from `REG_BASE`. -/
  | register (off : BitVec 11)
  /-- Unmapped. -/
  | unmapped
  deriving DecidableEq, Repr

/-- The region of a host address (R72). The window is 2048 bytes at a multiple of 2048, so the offset is bits 10:0. -/
def regionOf (a : Addr) : Region :=
  if a.toNat < Config.regBase then .buffer
  else if a.toNat < Config.regEnd then .register (a.extractLsb' 0 11)
  else .unmapped

/-- The access gets no bus error: mapped, aligned, and of a legal width (R77, R78, R79). -/
def busOk (a : Addr) (w : Width) : Bool :=
  match regionOf a with
  | .buffer => a.toNat % w.bytes == 0
  | .register _ => w == .w4 && a.toNat % 4 == 0
  | .unmapped => false

/-- The bytes a write of `v` moves, lane 0 first (R74). -/
def lanes (w : Width) (v : Word) : List Byte :=
  match w with
  | .w1 => [v.extractLsb' 0 8]
  | .w2 => [v.extractLsb' 0 8, v.extractLsb' 8 8]
  | .w4 => [v.extractLsb' 0 8, v.extractLsb' 8 8, v.extractLsb' 16 8, v.extractLsb' 24 8]

/-- The data word a read of `w` bytes returns: lane 0 first, unused upper bits 0 (R74). -/
def State.readLanes (s : State) (a : Nat) : Width → Word
  | .w1 => (s.byteAt a).setWidth 32
  | .w2 => (s.byteAt (a + 1) ++ s.byteAt a).setWidth 32
  | .w4 => s.byteAt (a + 3) ++ (s.byteAt (a + 2) ++ (s.byteAt (a + 1) ++ s.byteAt a))

/-- What an idle block answers to a read that gets no bus error (R74, R76, R80, R81). -/
def State.readData (s : State) (a : Addr) (w : Width) : Word :=
  match regionOf a with
  | .buffer => s.readLanes a.toNat w
  | .register off =>
    match regAt off with
    | some r => s.readReg r
    | none => 0
  | .unmapped => 0

/-- What a write that gets no bus error does to an idle block (R74, R80, R81). -/
def State.writeData (s : State) (a : Addr) (w : Width) (v : Word) : State :=
  match regionOf a with
  | .buffer => s.writeAt a.toNat (lanes w v)
  | .register off =>
    match regAt off with
    | some r => s.writeReg v r
    | none => s
  | .unmapped => s

/-- The host address of a named register. -/
def RegName.addr (r : RegName) : Addr := BitVec.ofNat 18 (Config.regBase + r.offset)

/-- A read while busy is a draw, but for `STATUS` (R83). -/
def State.readIsDraw (s : State) (a : Addr) : Bool := s.status.busy && a != RegName.status.addr

/-- The response to a read. -/
def State.readResponse (s : State) (a : Addr) (w : Width) : Response :=
  if !busOk a w then .busError
  else if s.readIsDraw a then .data (Config.busyRead s.env.draws)
  else .data (s.readData a w)

/-- The response to a write. -/
def State.writeResponse (s : State) (a : Addr) (w : Width) : Response :=
  if !busOk a w then .busError
  else if s.status.busy then .unspecified
  else .written

/-- `raise HostFault(WriteWhileBusy)`: add the reason to the FAULT set (R258). -/
def State.markFault (s : State) (f : Fault) : State :=
  { s with faults := if f ∈ s.faults then s.faults else s.faults ++ [f] }

/-- Record an access and its response in the observation (R18). -/
def State.observe (s : State) (a : HostAccess) (r : Response) : State :=
  { s with env := { s.env with seen := s.env.seen ++ [{ access := a, response := r }] } }

/-- A read changes nothing of the block (R83, R84); a draw uses up its number. -/
def State.afterRead (s : State) (a : Addr) (w : Width) : State :=
  { s with env := { s.env with draws := s.env.draws + (busOk a w && s.readIsDraw a).toNat } }

/-- A write: refused by the bus (R79), a host fault while busy (R258), or performed. -/
def State.afterWrite (s : State) (a : Addr) (w : Width) (v : Word) : State :=
  if !busOk a w then s
  else if s.status.busy then s.markFault .writeWhileBusy
  else s.writeData a w v

/-- One host access with its response (R82, R87). -/
def State.hostAccess (s : State) : HostAccess → State
  | .read a w => (s.afterRead a w).observe (.read a w) (s.readResponse a w)
  | .write a w v => (s.afterWrite a w v).observe (.write a w v) (s.writeResponse a w)

/-- Take the first input off the list. -/
def State.takeInput (s : State) : State := { s with env := { s.env with inputs := s.env.inputs.tail } }

end Sys2Proof.Machine
end

