-- ==== Sys2Proof/Machine/Program.lean ====
section
/-! DEFINITION. Host programs (30_encoding.md R112, R113): the notation and the macros as lists of inputs. A list of inputs
is fixed before it runs, so how often a loop goes round is an argument: every `P` of a macro has a number of busy polls of its
own, and `drain` one such number per record (assumption 4). -/

namespace Sys2Proof.Machine

open Sys2Proof

/-- `W <reg>, <v>` (R112). -/
def hostW (r : RegName) (v : Word) : Input := .access (.write r.addr .w4 v)

/-- `R <reg>` (R112). -/
def hostR (r : RegName) : Input := .access (.read r.addr .w4)

/-- `W8 <addr>, <v>` (R112). -/
def hostW8 (a : Addr) (v : Word) : Input := .access (.write a .w1 v)

/-- `W32 <addr>, <v>` (R112). -/
def hostW32 (a : Addr) (v : Word) : Input := .access (.write a .w4 v)

/-- `C <mnemonic operand>`: `W CMD, <assembled word>` (R112). -/
def hostC (i : Instr) : Input := hostW .cmd (encodeInstr i)

/-- `P` (R112): `k` polls that find the block busy, the engine's step, and the poll that reads BUSY = 0. The `k` is the
open latency of the command polled for, DESIGN CHOICE of form (R288, U5, assumption 4). -/
def hostPoll (k : Nat) : List Input := List.replicate k (hostR .status) ++ [.engineTurn, hostR .status]

/-- `do <cmd>` (R113). -/
def macroDo (k : Nat) (i : Instr) : List Input := hostC i :: hostPoll k

/-- `csum.range rx|tx, off, len` (R113). -/
def macroCsumRange (k : Nat) (b : Buf) (off len : Half) : List Input :=
  hostW .arg (halves len off) :: macroDo k (.csumBuf b)

/-- `checksum rx|tx, off, len` (R113): the latency of each of its three commands is its own. -/
def macroChecksum (kClr kBuf kFin : Nat) (b : Buf) (off len : Half) : List Input :=
  macroDo kClr .csumClr ++ (macroCsumRange kBuf b off len ++ (macroDo kFin .csumFin ++ [hostR .csumRes]))

/-- `ent.range rx|tx, off, len` (R113). -/
def macroEntRange (k : Nat) (b : Buf) (off len : Half) : List Input :=
  hostW .arg (halves len off) :: macroDo k (.entBuf b)

/-- `entropy rx|tx, off, len` (R113): the latency of each of its three commands is its own. -/
def macroEntropy (kClr kBuf kClassify : Nat) (b : Buf) (off len : Half) : List Input :=
  macroDo kClr .entClr ++ (macroEntRange kBuf b off len ++ (macroDo kClassify .entClassify ++ [hostR .entResult]))

/-- `decode n` (R113). -/
def macroDecode (k : Nat) (n : Half) : List Input := hostW .capLen (lowHalf n) :: macroDo k .decode

/-- `process n` (R113). -/
def macroProcess (k : Nat) (n : Half) : List Input := hostW .capLen (lowHalf n) :: macroDo k .process

/-- `encode type, code, id, seq, plen, fsize` (R113). -/
def macroEncode (k : Nat) (typ code : Byte) (id seq plen fsize : Half) : List Input :=
  [hostW .encTc (lowHalf (code ++ typ)), hostW .encIdseq (halves seq id), hostW .encLen (halves fsize plen)] ++
    macroDo k .encode

/-- `drain` on a log of as many records as the list is long (R113): each is read and popped, its LOG.POP with the latency
the list gives it, and the last read of LOG_COUNT finds 0. -/
def macroDrain : List Nat → List Input
  | [] => [hostR .logCount]
  | k :: ks =>
    [hostR .logCount, hostR .logW0, hostR .logW1, hostR .logW2, hostR .logW3] ++ (macroDo k .logPop ++ macroDrain ks)

end Sys2Proof.Machine
end

