-- ==== Sys2Proof/Machine/Step.lean ====
section
/-! DEFINITION. One step of the machine: the next input, or the engine's step (60_exceptions.md R250, 20_memory.md R87,
70_reset_and_hazards.md R289). -/

namespace Sys2Proof.Machine

open Sys2Proof

/-- The engine step (R250): enabled when BUSY = 1, it executes the latched word; otherwise the engine waits (R243, R283). -/
def engineStep (s : State) : Host.Outcome State Fault Refusal :=
  if s.status.busy then
    match decodeWord s.cmdl with
    | .ok i => exec i s
    | .error _ => execIllegal s.cmdl s
  else .next s

/-- What the next input does; with no input left the engine moves (weak fairness, R289). -/
def stepUnmarked (s : State) : Host.Outcome State Fault Refusal :=
  match s.env.inputs with
  | .access a :: _ => .next (s.takeInput.hostAccess a)
  | .hardReset :: _ => .next s.takeInput.hardReset
  | .engineTurn :: _ => engineStep s.takeInput
  | [] => engineStep s

/-- One step. A hardware reset wins over everything (R255); a marked state is refuted and goes no further (R258). -/
def step (s : State) : Host.Outcome State Fault Refusal :=
  if s.env.inputs.head? = some .hardReset then stepUnmarked s
  else
    match s.faults with
    | f :: _ => .fault f
    | [] => stepUnmarked s

/-- The command word `w` latched and the engine's turn next: what the host's write of `w` to `CMD` leaves (R23). -/
def State.withFetchWord (s : State) (nbits w : Nat) : State :=
  { s with
    cmdl := BitVec.ofNat 32 (w % 2 ^ nbits)
    status := { s.status with busy := true }
    faults := []
    env := { s.env with inputs := .engineTurn :: s.env.inputs } }

end Sys2Proof.Machine
end

