-- ==== Sys2Proof/Safety.lean ====
section
/-! DEFINITION. What counts as a safe run, in the terms the claims use: the host's contract (70_reset_and_hazards.md R285),
the unrefuted states (60_exceptions.md R258), the invariant of the machine, and runs of commands. -/

namespace Sys2Proof.Machine

open Sys2Proof

/-- No host fault is marked: the run is not refuted (R258). -/
abbrev State.Unmarked (s : State) : Prop := s.faults = []

/-- The next step is the engine's: the run is not refuted and no host access comes first (R250, R289). -/
abbrev State.EngineNext (s : State) : Prop := s.faults = [] ∧ s.env.inputs = []

/-- The next step is the host access `x` (R87). -/
abbrev State.HostNext (s : State) (x : HostAccess) : Prop := s.faults = [] ∧ s.env.inputs.head? = some (.access x)

/-- The next input keeps the host's contract: it is no write while the block is busy (R285). -/
def State.hostKeepsContract (s : State) : Bool :=
  match s.env.inputs with
  | .access (.write a w _) :: _ => !(s.status.busy && busOk a w)
  | _ => true

/-- What the decode registers can hold together (R34, R36, R151, R161). -/
structure Dec.Coherent (d : Dec) : Prop where
  /-- Before any decode every register is 0. -/
  none : d.dres = .none → d = Dec.cleared
  /-- A truncated frame leaves only IHL and DRES. -/
  truncated : d.dres = .truncated → d = { Dec.cleared with ihl := d.ihl, dres := .truncated }
  /-- A frame of the wrong protocol leaves only IHL, PROTO and DRES. -/
  wrongProto : d.dres = .wrongProto → d = { Dec.cleared with ihl := d.ihl, proto := d.proto, dres := .wrongProto }
  /-- The payload of a decoded frame starts behind both headers and ends inside a 16-bit capture. -/
  payload : d.dres = .ok →
    5 ≤ d.ihl.toNat ∧ d.off.toNat = 4 * d.ihl.toNat + 8 ∧ d.off.toNat + d.len.toNat ≤ 65535
  /-- Without verification there is no recomputed checksum and no flag. -/
  unchecked : d.csumChecked = false → d.csumBad = false ∧ d.computed = 0
  /-- With verification the flag says that the two checksums differ. -/
  checked : d.csumChecked = true → (d.csumBad = true ↔ d.computed ≠ d.stored)

/-- The invariant of the machine. -/
structure State.Inv (s : State) : Prop where
  /-- The buffer memory is in canonical form. -/
  mem : s.mem.wf
  /-- `ENT_N` is the sum of the histogram (R51, R188). -/
  count : s.ent.n.toNat = (counts s.ent.hist).sum
  /-- A valid score is that of the current histogram (R52). -/
  score : s.ent.valid = true → s.ent.score = BitVec.ofNat 16 (entropyScore (counts s.ent.hist))
  /-- The log holds at most LOG_DEPTH records (R56). -/
  log : s.log.length ≤ s.logDepth.toNat
  /-- LOG_DEPTH is at least 1 (R8). -/
  depth : 1 ≤ s.logDepth.toNat
  /-- RECEIVED is never left in FSTATE (R54, R212). -/
  fstate : s.fstate ≠ .received
  /-- The decode registers belong together. -/
  dec : s.dec.Coherent
  /-- FAULT is a set (R58). -/
  faults : s.faults.Nodup

/-- One piece of a run of commands: what the host leaves in `ARG` and in the buffers, and the command it then issues. -/
structure Feed where
  /-- ARG when the command runs. -/
  arg : Arg
  /-- RXBUF and TXBUF when the command runs. -/
  mem : Memory
  /-- The command. -/
  command : Instr
  deriving DecidableEq, Repr

/-- The state once the host has written the piece's `ARG` and buffers. -/
def Feed.place (f : Feed) (s : State) : State := { s with arg := f.arg, mem := f.mem }

/-- Run the pieces, one after another; none if a command does not complete. -/
def runFeeds : List Feed → State → Option State
  | [], s => some s
  | f :: fs, s =>
    match exec f.command (f.place s) with
    | .next t => runFeeds fs t
    | _ => none

end Sys2Proof.Machine
end

