-- ==== Sys2Proof/Certificates/Slice0/Obligations.lean ====
section
/-! DEFINITION. The statements for the provers, one `def Obligations.<Name> : Prop` each, from the numbered rules of spec/.
A next state is written as the old state with the fields that change, so each such statement is also the command's frame:
every field not named is unchanged. -/

namespace Sys2Proof.Machine

open Sys2Proof

/-! Words the statements use. They restate the spec and call no meaning of the machine. -/

/-- `STATUS` after a command with OP byte `op` ended with result `e` (R250). -/
def endStatus (op : Byte) (e : CmdError) : Status := { busy := false, err := e, lastOp := op }

/-- The bytes of a buffer from offset `off` on, one by one (R11). -/
def slice (s : State) (b : Buf) (off n : Nat) : List Byte := (List.range n).map fun k => s.bufByte b (off + k)

/-- The outer-header length in bytes that the capture declares (R152). -/
def declaredHlen (s : State) : Nat := if s.capLen = 0 then 0 else 4 * ((s.byteAt 0).toNat % 16)

/-- The 16-bit big-endian field at `RX[a]` (R12). -/
def rxField16 (s : State) (a : Nat) : Half := s.byteAt a ++ s.byteAt (a + 1)

/-- The 32-bit big-endian field at `RX[a]` (R12). -/
def rxField32 (s : State) (a : Nat) : Word :=
  (s.byteAt a ++ s.byteAt (a + 1)) ++ (s.byteAt (a + 2) ++ s.byteAt (a + 3))

/-- The high and the low byte of a 16-bit field, in wire order (R12). -/
def wire16 (v : Half) : List Byte := [v.extractLsb' 8 8, v.extractLsb' 0 8]

/-- The echo header with checksum field `c` (R107). -/
def wireHeader (typ code : Byte) (c id seq : Half) : List Byte :=
  [typ, code] ++ (wire16 c ++ (wire16 id ++ wire16 seq))

/-- The histogram `h` with the bytes `bs` counted (R186). -/
def counted (h : Vector Half 256) (bs : List Byte) : Vector Half 256 :=
  Vector.ofFn fun v => h[v] + BitVec.ofNat 16 (bs.countP fun b => b.toNat == v.val)

/-- The payload of the frame that decoding `s` finds (R156). -/
def framePayload (s : State) : List Byte := slice s .rx s.decodeFrame.off.toNat s.decodeFrame.len.toNat

/-- The entropy unit once exactly the frame's payload is classified (R213). -/
def frameEnt (s : State) : Ent :=
  let h := counted Ent.cleared.hist (framePayload s)
  { hist := h
    n := s.decodeFrame.len
    score := BitVec.ofNat 16 (entropyScore (counts h))
    verdict := verdictOf (counts h) s.decodeFrame.len.toNat s.th
    valid := true }

/-- W0 of a record as the sum of its fields at their bit positions (R220). -/
def recordW0 (kind verdict csumBad dres score : Nat) : Word :=
  BitVec.ofNat 32 (kind + 16 * verdict + 64 * csumBad + 256 * dres + 65536 * score)

/-- W3 of a record: ID in 15:0, SEQ in 31:16 (R220). -/
def recordW3 (d : Dec) : Word := BitVec.ofNat 32 (d.id.toNat + 65536 * d.seq.toNat)

/-- The PASS record of the frame that decoding `s` finds: TRIM_OFF in W2 15:0, TRIM_LEN in W2 31:16 (R220; the trimming is
the subject of a statement of its own). -/
def framePassRecord (s : State) : LogRecord :=
  let trim := ({ s with dec := s.decodeFrame } : State).trim
  { w0 := recordW0 2 0 s.decodeFrame.csumBad.toNat 1 (frameEnt s).score.toNat
    w1 := s.decodeFrame.src
    w2 := BitVec.ofNat 32 (trim.1.toNat + 65536 * trim.2.toNat)
    w3 := recordW3 s.decodeFrame }

/-- The result code each command ends with, by its cause and in the order of the checks (R252, R254). -/
def resultOf (s : State) : Instr → CmdError
  | .csumBuf _ => if 65536 < s.arg.off.toNat + s.arg.len.toNat then .range else .ok
  | .encode =>
    if 0xFFFF < 8 + s.enc.plen.toNat then .encTooLarge
    else if s.enc.fsize ≠ 0 ∧ s.enc.fsize.toNat < 8 + s.enc.plen.toNat then .encTooLarge
    else .ok
  | .entByte _ => if s.ent.n = 0xFFFF then .entFull else .ok
  | .entBuf _ =>
    if 65536 < s.arg.off.toNat + s.arg.len.toNat then .range
    else if 0xFFFF < s.ent.n.toNat + s.arg.len.toNat then .entFull
    else .ok
  | .process => if s.log.length = s.logDepth.toNat then .logFull else .ok
  | .logPop => if s.log = [] then .logEmpty else .ok
  | _ => .ok

/-- The bytes a checksum command adds to the stream, none for every other command (R134-R136). -/
def csumInput (s : State) : Instr → List Byte
  | .csumByte b => [b]
  | .csumWord h => wire16 h
  | .csumBuf b => slice s b s.arg.off.toNat s.arg.len.toNat
  | _ => []

/-- The commands that add bytes to the checksum stream (R140). -/
def addsToStream : Instr → Bool
  | .csumByte _ => true
  | .csumWord _ => true
  | .csumBuf _ => true
  | _ => false

/-- The entropy of a histogram, over the reals (R180). -/
noncomputable def realEntropy (c : List Nat) : ℝ :=
  (c.map fun k : Nat => if k = 0 then 0 else -((k : ℝ) / (c.sum : ℝ)) * Real.logb 2 ((k : ℝ) / (c.sum : ℝ))).sum

/-- The codes of `STATUS.ERR` (R22, R252). -/
def errCode : CmdError → Nat
  | .ok => 0
  | .illegal => 1
  | .range => 2
  | .encTooLarge => 3
  | .entFull => 4
  | .logFull => 5
  | .logEmpty => 6

/-- The codes of `CTRL.MODE` (R24). -/
def modeCode : Mode → Nat
  | .observe => 0
  | .passive => 1
  | .active => 2

/-- The codes of `DEC_STATUS.DRES` (R34). -/
def dresCode : DecodeResult → Nat
  | .none => 0
  | .ok => 1
  | .truncated => 2
  | .wrongProto => 3

/-- The codes of `ENT_RESULT.VERDICT` (R52). -/
def verdictCode : Verdict → Nat
  | .benign => 0
  | .suspiciousHigh => 1
  | .suspiciousLow => 2

/-- The codes of `FSTATE.STATE` (R54). -/
def fstateCode : FilterState → Nat
  | .idle => 0
  | .received => 1
  | .classified => 2
  | .blocked => 3
  | .passed => 4
  | .replied => 5
  | .dropped => 6

/-- The register word with the given fields, each as (its lowest bit, its value), and every other bit 0. -/
def fieldWord (fields : List (Nat × Nat)) : Word := BitVec.ofNat 32 (fields.map fun f => 2 ^ f.1 * f.2).sum

/-- `STATUS`: BUSY in bit 0, ERR in 7:4, LAST_OP in 15:8 (R22). -/
def statusFields (s : State) : Word :=
  fieldWord [(0, s.status.busy.toNat), (4, errCode s.status.err), (8, s.status.lastOp.toNat)]

/-- A word of the head record of LOG, 0 when LOG is empty (R56). -/
def headWord (f : LogRecord → Word) : List LogRecord → Word
  | [] => 0
  | r :: _ => f r

/-- The register map of 10_state.md section 2 as an idle block is read: each register with its offset from 0x20000 and its
word, the fields at their bit positions (R22-R28, R30-R32, R34-R40, R42-R46, R48-R52, R54-R56). That LOG_COUNT reads the
number of records modulo 256 is assumption 13. -/
def windowTable (s : State) : List (RegName × Nat × Word) :=
  [(.cmd, 0x000, 0),
   (.status, 0x004, statusFields s),
   (.ctrl, 0x008, fieldWord
     [(0, s.ctrl.csumVerify.toNat), (1, modeCode s.ctrl.mode), (3, s.ctrl.logMalformed.toNat)]),
   (.capLen, 0x00C, fieldWord [(0, s.capLen.toNat)]),
   (.arg, 0x010, fieldWord [(0, s.arg.off.toNat), (16, s.arg.len.toNat)]),
   (.expProto, 0x014, fieldWord [(0, s.expProto.toNat)]),
   (.id, 0x01C, 0x4E570001),
   (.csumAcc, 0x020, s.csum.acc),
   (.csumStat, 0x024, fieldWord [(0, s.csum.par.toNat)]),
   (.csumRes, 0x028, fieldWord [(0, s.csum.res.toNat)]),
   (.decStatus, 0x040, fieldWord [(0, dresCode s.dec.dres), (2, s.dec.csumChecked.toNat), (3, s.dec.csumBad.toNat)]),
   (.decTc, 0x044, fieldWord
     [(0, s.dec.typ.toNat), (8, s.dec.code.toNat), (16, s.dec.proto.toNat), (24, s.dec.ihl.toNat)]),
   (.decCsum, 0x048, fieldWord [(0, s.dec.stored.toNat), (16, s.dec.computed.toNat)]),
   (.decIdseq, 0x04C, fieldWord [(0, s.dec.id.toNat), (16, s.dec.seq.toNat)]),
   (.decPay, 0x050, fieldWord [(0, s.dec.off.toNat), (16, s.dec.len.toNat)]),
   (.decSrc, 0x054, s.dec.src),
   (.decDst, 0x058, s.dec.dst),
   (.encTc, 0x060, fieldWord [(0, s.enc.typ.toNat), (8, s.enc.code.toNat)]),
   (.encIdseq, 0x064, fieldWord [(0, s.enc.id.toNat), (16, s.enc.seq.toNat)]),
   (.encLen, 0x068, fieldWord [(0, s.enc.plen.toNat), (16, s.enc.fsize.toNat)]),
   (.txInfo, 0x06C, fieldWord [(0, s.tx.len.toNat), (16, s.tx.csum.toNat)]),
   (.txDst, 0x070, s.tx.dst),
   (.thHigh, 0x080, fieldWord [(0, s.th.high.toNat)]),
   (.thLow, 0x084, fieldWord [(0, s.th.low.toNat)]),
   (.lenFloor, 0x088, fieldWord [(0, s.th.floor.toNat)]),
   (.entN, 0x08C, fieldWord [(0, s.ent.n.toNat)]),
   (.entResult, 0x090, fieldWord
     [(0, s.ent.score.toNat), (16, verdictCode s.ent.verdict), (31, s.ent.valid.toNat)]),
   (.fstate, 0x0A0, fieldWord [(0, fstateCode s.fstate)]),
   (.logCount, 0x0A4, fieldWord [(0, s.log.length % 256)]),
   (.logW0, 0x0B0, headWord LogRecord.w0 s.log),
   (.logW1, 0x0B4, headWord LogRecord.w1 s.log),
   (.logW2, 0x0B8, headWord LogRecord.w2 s.log),
   (.logW3, 0x0BC, headWord LogRecord.w3 s.log)]

/-- The register table of R280, STATUS apart. -/
def resetTable : List (RegName × Word) :=
  [(.ctrl, 0x00000003), (.capLen, 0), (.arg, 0), (.expProto, 0x00000001), (.id, 0x4E570001), (.csumAcc, 0),
   (.csumStat, 0), (.csumRes, 0), (.decStatus, 0), (.decTc, 0), (.decCsum, 0), (.decIdseq, 0), (.decPay, 0),
   (.decSrc, 0), (.decDst, 0), (.encTc, 0x00000008), (.encIdseq, 0), (.encLen, 0), (.txInfo, 0), (.txDst, 0),
   (.thHigh, 0x00006800), (.thLow, 0x00001000), (.lenFloor, 0x00000010), (.entN, 0), (.entResult, 0),
   (.fstate, 0), (.logCount, 0), (.logW0, 0), (.logW1, 0), (.logW2, 0), (.logW3, 0)]

/-- Every register of the table, every counter and LOG are at their reset values (R280). -/
def AtResetTable (t : State) : Prop :=
  (∀ p ∈ resetTable, t.readNamed p.1 = p.2) ∧ (∀ v : Byte, t.readReg (.hist v) = 0) ∧ t.log = []

/-- What a write of `v` to a RW register other than CTRL makes of the state `s`: the register's offset from 0x20000 and
the state with that register's fields taken from their bits of `v` (R25-R27, R42-R44, R48-R50). -/
def writeTable (s : State) (v : Word) : List (Nat × State) :=
  [(0x00C, { s with capLen := v.extractLsb' 0 16 }),
   (0x010, { s with arg := { off := v.extractLsb' 0 16, len := v.extractLsb' 16 16 } }),
   (0x014, { s with expProto := v.extractLsb' 0 8 }),
   (0x060, { s with enc := { s.enc with typ := v.extractLsb' 0 8, code := v.extractLsb' 8 8 } }),
   (0x064, { s with enc := { s.enc with id := v.extractLsb' 0 16, seq := v.extractLsb' 16 16 } }),
   (0x068, { s with enc := { s.enc with plen := v.extractLsb' 0 16, fsize := v.extractLsb' 16 16 } }),
   (0x080, { s with th := { s.th with high := v.extractLsb' 0 16 } }),
   (0x084, { s with th := { s.th with low := v.extractLsb' 0 16 } }),
   (0x088, { s with th := { s.th with floor := v.extractLsb' 0 16 } })]

/-- The RW registers, CTRL apart, with their offsets from 0x20000 and their writable bits (10_state.md section 2). -/
def writableBits : List (RegName × Nat × Word) :=
  [(.capLen, 0x00C, 0x0000FFFF), (.arg, 0x010, 0xFFFFFFFF), (.expProto, 0x014, 0x000000FF),
   (.encTc, 0x060, 0x0000FFFF), (.encIdseq, 0x064, 0xFFFFFFFF), (.encLen, 0x068, 0xFFFFFFFF),
   (.thHigh, 0x080, 0x0000FFFF), (.thLow, 0x084, 0x0000FFFF), (.lenFloor, 0x088, 0x0000FFFF)]

/-- The access gets a bus error, by the cases of R72, R77 and R78. -/
def IsBusError (a : Addr) (w : Width) : Prop :=
  0x20800 ≤ a.toNat ∨
  (a.toNat < 0x20000 ∧ a.toNat % w.bytes ≠ 0) ∨
  (0x20000 ≤ a.toNat ∧ a.toNat < 0x20800 ∧ (w ≠ .w4 ∨ a.toNat % 4 ≠ 0))

/-- The address and the width of an access. -/
def HostAccess.target : HostAccess → Addr × Width
  | .read a w => (a, w)
  | .write a w _ => (a, w)

/-- The state after the host access at the head of the inputs is taken and answered, the block unchanged. -/
def answered (s : State) (x : HostAccess) (r : Response) : State :=
  { s with env := { s.env with
      inputs := s.env.inputs.tail
      seen := s.env.seen ++ [{ access := x, response := r }] } }

/-- Equal but for the command latch, which may differ while the block is idle (R58). -/
def SameButIdleLatch (s t : State) : Prop :=
  s = { t with cmdl := s.cmdl } ∧ (s.status.busy = true → s.cmdl = t.cmdl)

/-- Two outcomes of a step agree but for the idle latch. -/
def OutcomesAgree : Host.Outcome State Fault Refusal → Host.Outcome State Fault Refusal → Prop
  | .next s, .next t => SameButIdleLatch s t
  | .fault f, .fault g => f = g
  | .refused r, .refused q => r = q
  | _, _ => False

end Sys2Proof.Machine

open Sys2Proof Sys2Proof.Machine

/-! ## Encoding -/

/-- Every command, with every operand its type admits, is read back from its assembled word (R101, R104, R111). -/
def Obligations.DecodeInvertsEncode : Prop :=
  ∀ i : Instr, decodeWord (encodeInstr i) = .ok i

/-- A word has one meaning: the command it decodes to assembles to that word (R101, R104, R111). -/
def Obligations.EncodeInvertsDecode : Prop :=
  ∀ (w : Word) (i : Instr), decodeWord w = .ok i → encodeInstr i = w

/-- "A word w is command X when `(w & mask) = match`", row by row, with the operands of R102 (R104). -/
def Obligations.DecodeFollowsTheOpcodeTable : Prop :=
  ∀ w : Word,
    (w &&& 0xFFFFFFFF = 0x00000000 ↔ decodeWord w = .ok .nop) ∧
    (w &&& 0xFFFFFFFF = 0x00000001 ↔ decodeWord w = .ok .csumClr) ∧
    (w &&& 0xFF00FFFF = 0x00000002 ↔ decodeWord w = .ok (.csumByte (w.extractLsb' 16 8))) ∧
    (w &&& 0x0000FFFF = 0x00000003 ↔ decodeWord w = .ok (.csumWord (w.extractLsb' 16 16))) ∧
    (w &&& 0xFFFFFEFF = 0x00000004 ↔ decodeWord w = .ok (.csumBuf (if w.getLsbD 8 then .tx else .rx))) ∧
    (w &&& 0xFFFFFFFF = 0x00000005 ↔ decodeWord w = .ok .csumFin) ∧
    (w &&& 0xFFFFFFFF = 0x00000010 ↔ decodeWord w = .ok .decode) ∧
    (w &&& 0xFFFFFFFF = 0x00000011 ↔ decodeWord w = .ok .encode) ∧
    (w &&& 0xFFFFFFFF = 0x00000020 ↔ decodeWord w = .ok .entClr) ∧
    (w &&& 0xFF00FFFF = 0x00000021 ↔ decodeWord w = .ok (.entByte (w.extractLsb' 16 8))) ∧
    (w &&& 0xFFFFFEFF = 0x00000022 ↔ decodeWord w = .ok (.entBuf (if w.getLsbD 8 then .tx else .rx))) ∧
    (w &&& 0xFFFFFFFF = 0x00000023 ↔ decodeWord w = .ok .entClassify) ∧
    (w &&& 0xFFFFFFFF = 0x00000030 ↔ decodeWord w = .ok .process) ∧
    (w &&& 0xFFFFFFFF = 0x00000031 ↔ decodeWord w = .ok .logPop) ∧
    (w &&& 0xFFFFFFFF = 0x000000FF ↔ decodeWord w = .ok .sreset)

/-- A word is illegal exactly when its fields break one of the conditions of R105, exactly when no row selects it, and the
engine then ends it with ILLEGAL and its OP byte and changes nothing else (R105). -/
def Obligations.IllegalWordsAreTheCasesOfTheRule : Prop :=
  ∀ w : Word,
    ((∃ e, decodeWord w = .error e) ↔ (CmdFields.ofWord w).wellFormed = false) ∧
    ((∃ e, decodeWord w = .error e) ↔ ∀ r ∈ opTable, w &&& r.mask ≠ r.pattern) ∧
    (∀ s : State, s.EngineNext → s.status.busy = true → s.cmdl = w → (∃ e, decodeWord w = .error e) →
      step s = .next { s with status := endStatus (w.extractLsb' 0 8) .illegal })

/-- A few words written out from the spec's encodings (R111's examples among them) decode to their commands. -/
def Obligations.PrintedWordsDecode : Prop :=
  decodeWord 0x00AB0002 = .ok (.csumByte 0xAB) ∧ decodeWord 0x12340003 = .ok (.csumWord 0x1234) ∧
  decodeWord 0x00000122 = .ok (.entBuf .tx) ∧ decodeWord 0x00000104 = .ok (.csumBuf .tx) ∧
  decodeWord 0x00410021 = .ok (.entByte 0x41) ∧ decodeWord 0x00000010 = .ok .decode ∧
  decodeWord 0x00000030 = .ok .process ∧ decodeWord 0x000000FF = .ok .sreset

/-! ## The step -/

/-- A step of a busy, unrefuted block with no host access before it is exec of the latched command, and the same on the
state without the scheduling token when an engine turn is first in the inputs (R250; the token is assumption 4). -/
def Obligations.StepRunsTheLatchedCommand : Prop :=
  ∀ (s : State) (i : Instr), s.faults = [] → s.status.busy = true → decodeWord s.cmdl = .ok i →
    (s.env.inputs = [] → step s = exec i s) ∧
    (s.env.inputs.head? = some .engineTurn → step s = exec i s.takeInput)

/-- A latched word that matches no row sets ERR to ILLEGAL and LAST_OP to its OP byte, and nothing else changes (R242); with
the scheduling token of assumption 4 first in the inputs, the same on the state without the token. -/
def Obligations.IllegalWordChangesOnlyStatus : Prop :=
  ∀ s : State, s.faults = [] → s.status.busy = true → (∀ r ∈ opTable, s.cmdl &&& r.mask ≠ r.pattern) →
    (s.env.inputs = [] → step s = .next { s with status := endStatus (s.cmdl.extractLsb' 0 8) .illegal }) ∧
    (s.env.inputs.head? = some .engineTurn →
      step s = .next { s.takeInput with status := endStatus (s.cmdl.extractLsb' 0 8) .illegal })

/-- When BUSY = 1 and the host does nothing, the next step ends the command, whatever it is (R289's fairness, R250). -/
def Obligations.EngineStepClearsBusy : Prop :=
  ∀ s : State, s.EngineNext → s.status.busy = true →
    ∃ t, step s = .next t ∧ t.status.busy = false ∧ t.status.lastOp = s.cmdl.extractLsb' 0 8

/-- The engine is enabled only when BUSY = 1: an idle block with no host access waits, nothing changes (R250, R283). -/
def Obligations.IdleEngineWaits : Prop :=
  ∀ s : State, s.EngineNext → s.status.busy = false → step s = .next s

/-- CMDL is never observable while the block is idle: two states that differ only in the idle latch step to outcomes that
do (R58, U4). -/
def Obligations.IdleLatchIsUnobservable : Prop :=
  ∀ s t : State, SameButIdleLatch s t → OutcomesAgree (step s) (step t)

/-! ## All commands -/

/-- Every command ends in a next state: BUSY is cleared, LAST_OP is its OP byte, ERR is the result of R252 for its cause
in the order of R254, and FAULT, LOG_DEPTH, CMDL and the environment are unchanged (R250, R252, R254). -/
def Obligations.EveryCommandEndsWithItsResult : Prop :=
  ∀ (i : Instr) (s : State), ∃ t, exec i s = .next t ∧ t.status = endStatus i.opcode (resultOf s i) ∧
    t.faults = s.faults ∧ t.logDepth = s.logDepth ∧ t.cmdl = s.cmdl ∧ t.env = s.env

/-- All-or-nothing: a command that ends in an error has changed nothing but STATUS (R251). -/
def Obligations.ErrorsChangeOnlyStatus : Prop :=
  ∀ (i : Instr) (s t : State), exec i s = .next t → t.status.err ≠ .ok → t = { s with status := t.status }

/-- The engine never writes RXBUF, and it writes TXBUF only in ENCODE and in a PROCESS that replies (R57, R85, R165,
R217). -/
def Obligations.EngineWritesOnlyTxbuf : Prop :=
  ∀ (i : Instr) (s t : State), exec i s = .next t →
    (∀ a < 0x10000, t.byteAt a = s.byteAt a) ∧
    (t.mem ≠ s.mem → i = .encode ∨ (i = .process ∧ t.fstate = .replied))

/-- Each register group changes only by the commands the spec names for it: configuration by SRESET alone, the checksum
unit by the CSUM commands and SRESET, DEC_* by DECODE and PROCESS, and so on (R30, R53, R56, R168, R210). -/
def Obligations.RegistersHaveTheirWriters : Prop :=
  ∀ (i : Instr) (s t : State), exec i s = .next t → i ≠ .sreset →
    (t.ctrl = s.ctrl ∧ t.capLen = s.capLen ∧ t.arg = s.arg ∧ t.expProto = s.expProto ∧ t.enc = s.enc ∧ t.th = s.th) ∧
    ((t.csum.acc ≠ s.csum.acc ∨ t.csum.par ≠ s.csum.par) → i = .csumClr ∨ addsToStream i = true) ∧
    (t.csum.res ≠ s.csum.res → i = .csumFin) ∧
    (t.dec ≠ s.dec → i = .decode ∨ i = .process) ∧
    (t.tx ≠ s.tx → i = .encode ∨ (i = .process ∧ t.fstate = .replied)) ∧
    (t.ent ≠ s.ent → i = .entClr ∨ (∃ b, i = .entByte b) ∨ (∃ b, i = .entBuf b) ∨ i = .entClassify ∨
      (i = .process ∧ t.fstate ≠ .dropped)) ∧
    (t.fstate ≠ s.fstate → i = .process)

/-- The log is a FIFO: only PROCESS pushes, one record at the tail and never past LOG_DEPTH; only LOG.POP pops, the head
record; SRESET empties it (R56, R211, R221). -/
def Obligations.LogIsAFifo : Prop :=
  ∀ (i : Instr) (s t : State), exec i s = .next t → s.log.length ≤ s.logDepth.toNat →
    t.log = s.log ∨
    (i = .process ∧ (∃ r, t.log = s.log ++ [r]) ∧ t.log.length ≤ t.logDepth.toNat) ∨
    (i = .logPop ∧ ∃ r, s.log = r :: t.log) ∨
    (i = .sreset ∧ t.log = [])

/-! ## Control commands -/

/-- NOP only ends: ERR is cleared, LAST_OP is 0 (R240). -/
def Obligations.NopOnlyEnds : Prop :=
  ∀ s : State, exec .nop s = .next { s with status := endStatus 0x00 .ok }

/-- SRESET gives every register, counter and LOG its reset value, keeps RXBUF, TXBUF and FAULT, and leaves
`STATUS = 0x0000FF00` (R241, R282). -/
def Obligations.SresetRestoresTheTable : Prop :=
  ∀ s : State, ∃ t, exec .sreset s = .next t ∧ AtResetTable t ∧ t.readNamed .status = 0x0000FF00 ∧
    (∀ a, t.byteAt a = s.byteAt a) ∧ t.mem = s.mem ∧ t.faults = s.faults ∧ t.logDepth = s.logDepth ∧ t.env = s.env

/-! ## ChecksumEngine -/

/-- CSUM.CLR zeroes the accumulator and the parity and keeps CSUM_RES (R133). -/
def Obligations.CsumClrZeroesTheAccumulator : Prop :=
  ∀ s : State, exec .csumClr s =
    .next { s with csum := { acc := 0, par := false, res := s.csum.res }, status := endStatus 0x01 .ok }

/-- CSUM.BYTE adds the byte modulo 2^32, shifted left by 8 when PAR = 0, and flips PAR; a word of its opcode with a nonzero
bit in 31:24 is illegal (R134, with AddByte of R130 written out). -/
def Obligations.CsumByteAddsByParity : Prop :=
  (∀ (b : Byte) (s : State), exec (.csumByte b) s = .next { s with
    csum := { s.csum with
      acc := BitVec.ofNat 32 (s.csum.acc.toNat + if s.csum.par then b.toNat else b.toNat * 256)
      par := !s.csum.par }
    status := endStatus 0x02 .ok }) ∧
  (∀ w : Word, w.extractLsb' 0 8 = 0x02 → w.extractLsb' 24 8 ≠ 0 → ∃ e, decodeWord w = .error e)

/-- CSUM.WORD adds the word when PAR = 0 and the byte-swapped word when PAR = 1, and keeps PAR (R135). -/
def Obligations.CsumWordKeepsParity : Prop :=
  ∀ (h : Half) (s : State), exec (.csumWord h) s = .next { s with
    csum := { s.csum with
      acc := BitVec.ofNat 32 (s.csum.acc.toNat +
        if s.csum.par then h.toNat % 256 * 256 + h.toNat / 256 else h.toNat) }
    status := endStatus 0x03 .ok }

/-- CSUM.BUF adds the bytes `ARG.OFF .. ARG.OFF+ARG.LEN-1` of the selected buffer in order, so an odd length flips PAR; a
range that ends exactly at 65536 is in range, one that ends past it raises RANGE and changes nothing (R136). -/
def Obligations.CsumBufAddsTheRange : Prop :=
  ∀ (b : Buf) (s : State),
    (s.arg.off.toNat + s.arg.len.toNat ≤ 65536 → exec (.csumBuf b) s = .next { s with
      csum := { s.csum with
        acc := (addBytes (s.csum.acc, s.csum.par) (slice s b s.arg.off.toNat s.arg.len.toNat)).1
        par := s.csum.par ^^ decide (s.arg.len.toNat % 2 = 1) }
      status := endStatus 0x04 .ok }) ∧
    (65536 < s.arg.off.toNat + s.arg.len.toNat →
      exec (.csumBuf b) s = .next { s with status := endStatus 0x04 .range })

/-- CSUM.FIN's result is the complement of the ones'-complement sum of the two halves of CSUM_ACC: 0 stays 0, and every
other sum is its residue modulo 65535 with 65535 for residue 0. CSUM_ACC and PAR are kept (R132, R137, R139). -/
def Obligations.CsumFinIsTheOnesComplement : Prop :=
  ∀ s : State, exec .csumFin s = .next { s with
    csum := { s.csum with
      res := BitVec.ofNat 16 (65535 -
        if s.csum.acc.toNat = 0 then 0
        else if s.csum.acc.toNat % 65535 = 0 then 65535 else s.csum.acc.toNat % 65535) }
    status := endStatus 0x05 .ok }

/-- The checksum of a byte string is the fold of the sum modulo 2^32 of its big-endian 16-bit words, a final odd byte being
the high byte of a zero-padded word; ChecksumZ is the checksum with the two bytes of the field at z read as 0 (R131). -/
def Obligations.ChecksumIsTheWordSum : Prop :=
  (∀ bs : List Byte, checksum bs = foldSum (BitVec.ofNat 32
    (((List.range (bs.length / 2)).map fun i => (bs.getD (2 * i) 0).toNat * 256 + (bs.getD (2 * i + 1) 0).toNat).sum +
      if bs.length % 2 = 1 then (bs.getD (bs.length - 1) 0).toNat * 256 else 0))) ∧
  (∀ (bs : List Byte) (z : Nat), z % 2 = 0 → z + 1 < bs.length →
    checksumZ bs z = checksum (bs.take z ++ ([0, 0] ++ bs.drop (z + 2))))

/-- Streaming equals whole-buffer: after CSUM.CLR, any sequence of CSUM.BYTE, CSUM.WORD and CSUM.BUF, each CSUM.BUF over
a range of its own, and then CSUM.FIN, leave the checksum of all their bytes; between the commands the host may write ARG
and the buffers (R140; CSUM.WORD at any parity, D38). -/
def Obligations.StreamingEqualsWholeBuffer : Prop :=
  ∀ (fs : List Feed) (s : State),
    (∀ f ∈ fs, addsToStream f.command = true ∧
      ∀ b, f.command = .csumBuf b → f.arg.off.toNat + f.arg.len.toNat ≤ 65536) →
    ∃ t u v, exec .csumClr s = .next t ∧ runFeeds fs t = some u ∧ exec .csumFin u = .next v ∧
      v.csum.res = checksum (fs.flatMap fun f => csumInput (f.place s) f.command)

/-- Self-consistency: a byte string whose checksum field, at an even offset, holds the checksum computed with that field
zero has checksum 0, while the word sum cannot wrap (R141). -/
def Obligations.ChecksumSelfConsistent : Prop :=
  ∀ (bs : List Byte) (z : Nat), z % 2 = 0 → z + 1 < bs.length → bs.length ≤ 131074 →
    checksum ((bs.set z ((checksumZ bs z).extractLsb' 8 8)).set (z + 1) ((checksumZ bs z).extractLsb' 0 8)) = 0

/-! ## FrameCodec -/

/-- DECODE. A capture shorter than its declared headers, or with a declared outer header below 20 bytes, leaves TRUNCATED
and the header-length field; a long enough capture whose protocol byte differs from EXP_PROTO leaves WRONG_PROTO, the
header-length field and the protocol byte; in both every other DEC_* field is 0. Any other capture fills every DEC_* field,
and the checksum is verified over the inner frame when CSUM_VERIFY = 1. Nothing else changes but STATUS (R150-R157). -/
def Obligations.DecodeFollowsItsSteps : Prop :=
  ∀ s : State,
    ((declaredHlen s < 20 ∨ s.capLen.toNat < declaredHlen s + 8) →
      exec .decode s = .next { s with
        dec := { Dec.cleared with ihl := BitVec.ofNat 4 (declaredHlen s / 4), dres := .truncated }
        status := endStatus 0x10 .ok }) ∧
    (20 ≤ declaredHlen s → declaredHlen s + 8 ≤ s.capLen.toNat → s.byteAt 9 ≠ s.expProto →
      exec .decode s = .next { s with
        dec := { Dec.cleared with
          ihl := BitVec.ofNat 4 (declaredHlen s / 4), proto := s.byteAt 9, dres := .wrongProto }
        status := endStatus 0x10 .ok }) ∧
    (20 ≤ declaredHlen s → declaredHlen s + 8 ≤ s.capLen.toNat → s.byteAt 9 = s.expProto →
      exec .decode s = .next { s with
        dec :=
          { dres := .ok
            csumChecked := s.ctrl.csumVerify
            csumBad := s.ctrl.csumVerify && decide
              (checksumZ (slice s .rx (declaredHlen s) (s.capLen.toNat - declaredHlen s)) 2 ≠
                rxField16 s (declaredHlen s + 2))
            typ := s.byteAt (declaredHlen s)
            code := s.byteAt (declaredHlen s + 1)
            proto := s.byteAt 9
            ihl := BitVec.ofNat 4 (declaredHlen s / 4)
            stored := rxField16 s (declaredHlen s + 2)
            computed := if s.ctrl.csumVerify then
                checksumZ (slice s .rx (declaredHlen s) (s.capLen.toNat - declaredHlen s)) 2
              else 0
            id := rxField16 s (declaredHlen s + 4)
            seq := rxField16 s (declaredHlen s + 6)
            off := BitVec.ofNat 16 (declaredHlen s + 8)
            len := BitVec.ofNat 16 (s.capLen.toNat - declaredHlen s - 8)
            src := rxField32 s 12
            dst := rxField32 s 16 }
        status := endStatus 0x10 .ok })

/-- ENCODE of a payload that fits builds header, payload in place and pad in `TX[0 .. flen)`, reports length and checksum in
TX_INFO, and changes nothing else: no other byte, not TX_DST (R163, R164, R165, R168). -/
def Obligations.EncodeBuildsTheFrame : Prop :=
  ∀ (s : State) (flen : Nat), 8 + s.enc.plen.toNat ≤ 0xFFFF →
    (s.enc.fsize = 0 ∧ flen = 8 + s.enc.plen.toNat ∨
      s.enc.fsize ≠ 0 ∧ flen = s.enc.fsize.toNat ∧ 8 + s.enc.plen.toNat ≤ flen) →
    ∃ t, exec .encode s = .next t ∧
      t = { s with
        mem := t.mem
        tx := { len := BitVec.ofNat 16 flen, csum := t.tx.csum, dst := s.tx.dst }
        status := endStatus 0x11 .ok } ∧
      t.tx.csum = checksum (wireHeader s.enc.typ s.enc.code 0 s.enc.id s.enc.seq ++
        (slice s .tx 8 s.enc.plen.toNat ++ List.replicate (flen - (8 + s.enc.plen.toNat)) 0x20)) ∧
      slice t .tx 0 flen = wireHeader s.enc.typ s.enc.code t.tx.csum s.enc.id s.enc.seq ++
        (slice s .tx 8 s.enc.plen.toNat ++ List.replicate (flen - (8 + s.enc.plen.toNat)) 0x20) ∧
      (∀ k, flen ≤ k → t.bufByte .tx k = s.bufByte .tx k) ∧ (∀ a < 0x10000, t.byteAt a = s.byteAt a)

/-- ENC_TOO_LARGE exactly when `8 + PLEN > 0xFFFF` or the payload does not fit the fixed size, and then nothing but STATUS
changes (R163, R166). -/
def Obligations.EncodeRejectsTooLarge : Prop :=
  ∀ s : State,
    (0xFFFF < 8 + s.enc.plen.toNat ∨ (s.enc.fsize ≠ 0 ∧ s.enc.fsize.toNat < 8 + s.enc.plen.toNat)) ↔
      exec .encode s = .next { s with status := endStatus 0x11 .encTooLarge }

/-- Round trip: an encoded frame copied after a 20-byte outer header of the expected protocol decodes to what was encoded,
with both checksums equal to TX_INFO.CSUM (R169; CSUM_VERIFY = 1, as R169's COMPUTED needs). -/
def Obligations.EncodeThenDecodeRoundTrip : Prop :=
  ∀ s t u : State, exec .encode s = .next t → t.status.err = .ok →
    u.capLen.toNat = 20 + t.tx.len.toNat → (u.byteAt 0).toNat % 16 = 5 → u.byteAt 9 = u.expProto →
    u.ctrl.csumVerify = true → (∀ k < t.tx.len.toNat, u.bufByte .rx (20 + k) = t.bufByte .tx k) →
    ∃ v, exec .decode u = .next v ∧ v.dec.dres = .ok ∧
      v.dec.typ = s.enc.typ ∧ v.dec.code = s.enc.code ∧ v.dec.id = s.enc.id ∧ v.dec.seq = s.enc.seq ∧
      v.dec.stored = t.tx.csum ∧ v.dec.computed = t.tx.csum ∧ v.dec.csumBad = false ∧
      v.dec.off = 28 ∧ v.dec.len.toNat = t.tx.len.toNat - 8 ∧
      slice v .rx 28 s.enc.plen.toNat = slice s .tx 8 s.enc.plen.toNat

/-! ## EntropyClassifier -/

/-- ENT.CLR zeroes the histogram, the count and the result (R184). -/
def Obligations.EntClrZeroesTheUnit : Prop :=
  ∀ s : State, exec .entClr s = .next { s with
    ent := { hist := Vector.ofFn fun _ => 0, n := 0, score := 0, verdict := .benign, valid := false }
    status := endStatus 0x20 .ok }

/-- ENT.BYTE with ENT_N below its maximum counts one byte, clears VALID and keeps SCORE and VERDICT; at the maximum it ends
with ENT_FULL and changes nothing; a word of its opcode with a nonzero bit in 31:24 is illegal (R185). -/
def Obligations.EntByteCountsOneByte : Prop :=
  (∀ (b : Byte) (s : State),
    (s.ent.n ≠ 0xFFFF → exec (.entByte b) s = .next { s with
      ent := { s.ent with hist := counted s.ent.hist [b], n := s.ent.n + 1, valid := false }
      status := endStatus 0x21 .ok }) ∧
    (s.ent.n = 0xFFFF → exec (.entByte b) s = .next { s with status := endStatus 0x21 .entFull })) ∧
  (∀ w : Word, w.extractLsb' 0 8 = 0x21 → w.extractLsb' 24 8 ≠ 0 → ∃ e, decodeWord w = .error e)

/-- ENT.BUF counts every byte of the range, adds its length to ENT_N and clears VALID while both checks pass; RANGE is
checked before ENT_FULL, and either leaves everything but STATUS unchanged (R186, R254). -/
def Obligations.EntBufCountsTheRange : Prop :=
  ∀ (b : Buf) (s : State),
    (s.arg.off.toNat + s.arg.len.toNat ≤ 65536 → s.ent.n.toNat + s.arg.len.toNat ≤ 0xFFFF →
      exec (.entBuf b) s = .next { s with
        ent := { s.ent with
          hist := counted s.ent.hist (slice s b s.arg.off.toNat s.arg.len.toNat)
          n := s.ent.n + s.arg.len
          valid := false }
        status := endStatus 0x22 .ok }) ∧
    (65536 < s.arg.off.toNat + s.arg.len.toNat →
      exec (.entBuf b) s = .next { s with status := endStatus 0x22 .range }) ∧
    (s.arg.off.toNat + s.arg.len.toNat ≤ 65536 → 0xFFFF < s.ent.n.toNat + s.arg.len.toNat →
      exec (.entBuf b) s = .next { s with status := endStatus 0x22 .entFull })

/-- The score of a histogram with n > 0 is the largest natural k with `2^(n*k) * P^4096 <= n^(4096*n)`, and it is at most
0x8000; it is 0 for n = 0 (R182). -/
def Obligations.ScoreIsTheLargestAdmitted : Prop :=
  ∀ h : Vector Half 256,
    ((counts h).sum = 0 → entropyScore (counts h) = 0) ∧
    (0 < (counts h).sum →
      IsGreatest {k : Nat | 2 ^ ((counts h).sum * k) * ((counts h).map fun c => c ^ c).prod ^ 4096 ≤
        (counts h).sum ^ (4096 * (counts h).sum)} (entropyScore (counts h))) ∧
    entropyScore (counts h) ≤ 0x8000

/-- The exact comparisons decide the real entropy: `H > T/4096` and `H < T/4096` for every Q4.12 threshold, n = 0
included (R180, R181). -/
def Obligations.ComparisonsDecideRealEntropy : Prop :=
  ∀ (h : Vector Half 256) (t : Half),
    (entropyAbove (counts h) t = true ↔ (t.toNat : ℝ) / 4096 < realEntropy (counts h)) ∧
    (entropyBelow (counts h) t = true ↔ realEntropy (counts h) < (t.toNat : ℝ) / 4096)

/-- ENT.CLASSIFY completes with `SCORE = floor(4096 * H)` and the verdict of R183 for the real entropy H of the histogram,
and changes nothing else but VALID and STATUS (R180, R182, R183, R187). -/
def Obligations.ClassifyFollowsRealEntropy : Prop :=
  ∀ s : State, ∃ t, exec .entClassify s = .next t ∧
    t = { s with
      ent := { s.ent with score := t.ent.score, verdict := t.ent.verdict, valid := true }
      status := endStatus 0x23 .ok } ∧
    (t.ent.score.toNat : ℤ) = ⌊4096 * realEntropy (counts s.ent.hist)⌋ ∧
    ((s.th.high.toNat : ℝ) / 4096 < realEntropy (counts s.ent.hist) → t.ent.verdict = .suspiciousHigh) ∧
    (realEntropy (counts s.ent.hist) ≤ (s.th.high.toNat : ℝ) / 4096 →
      (realEntropy (counts s.ent.hist) < (s.th.low.toNat : ℝ) / 4096 ∧ s.th.floor.toNat < s.ent.n.toNat →
        t.ent.verdict = .suspiciousLow) ∧
      (¬ (realEntropy (counts s.ent.hist) < (s.th.low.toNat : ℝ) / 4096 ∧ s.th.floor.toNat < s.ent.n.toNat) →
        t.ent.verdict = .benign))

/-- The extremes of R190: bytes that are all identical have score 0 whatever their number, and a histogram in which every
value occurs equally often, at least once, has score 0x8000 (R182, R190). -/
def Obligations.ScoreExtremes : Prop :=
  (∀ (b : Byte) (n : Nat), n ≤ 0xFFFF →
    entropyScore (counts (bumpAll Ent.cleared.hist (List.replicate n b))) = 0) ∧
  (∀ k : Half, k ≠ 0 → entropyScore (counts (Vector.replicate 256 k)) = 0x8000)

/-! ## DefenseEngine -/

/-- PROCESS with a full log raises LOG_FULL and changes nothing, not even the DEC_* registers, whatever the frame; and no
PROCESS pushes more than one record or loses one (R211). -/
def Obligations.ProcessStopsOnFullLog : Prop :=
  (∀ s : State, s.log.length = s.logDepth.toNat →
    exec .process s = .next { s with status := endStatus 0x30 .logFull }) ∧
  (∀ s t : State, exec .process s = .next t → t.log = s.log ∨ ∃ r, t.log = s.log ++ [r])

/-- PROCESS of a frame that fails decode drops it: no classification, no reply, the entropy unit and TXBUF kept, and a DROP
record only when LOG_MALFORMED = 1; and no PROCESS leaves RECEIVED in FSTATE (R212). -/
def Obligations.ProcessDropsMalformedFrames : Prop :=
  (∀ s : State, s.log.length ≠ s.logDepth.toNat → s.decodeFrame.dres ≠ .ok →
    exec .process s = .next { s with
      dec := s.decodeFrame
      fstate := .dropped
      log := if s.ctrl.logMalformed then
          s.log ++ [{ w0 := recordW0 4 0 0 (if s.decodeFrame.dres = .truncated then 2 else 3) 0, w1 := 0, w2 := 0, w3 := 0 }]
        else s.log
      status := endStatus 0x30 .ok }) ∧
  (∀ s t : State, exec .process s = .next t → t.fstate = .received → s.fstate = .received)

/-- PROCESS in OBSERVE stops in CLASSIFIED whatever the verdict, pushes one OBSERVE record and writes no TXBUF byte
(R210, R213, R214, R220). -/
def Obligations.ProcessObserves : Prop :=
  ∀ s : State, s.log.length ≠ s.logDepth.toNat → s.decodeFrame.dres = .ok → s.ctrl.mode = .observe →
    exec .process s = .next { s with
      dec := s.decodeFrame
      ent := frameEnt s
      fstate := .classified
      log := s.log ++ [
        { w0 := recordW0 3 (verdictCode (frameEnt s).verdict) s.decodeFrame.csumBad.toNat 1 (frameEnt s).score.toNat
          w1 := s.decodeFrame.src, w2 := 0, w3 := recordW3 s.decodeFrame }]
      status := endStatus 0x30 .ok }

/-- PROCESS of a suspicious frame in PASSIVE or ACTIVE: BLOCKED, exactly one BLOCK record, no reply, TXBUF untouched
(R210, R213, R215, R220, R224). -/
def Obligations.ProcessBlocksSuspiciousFrames : Prop :=
  ∀ s : State, s.log.length ≠ s.logDepth.toNat → s.decodeFrame.dres = .ok → s.ctrl.mode ≠ .observe →
    (frameEnt s).verdict ≠ .benign →
    exec .process s = .next { s with
      dec := s.decodeFrame
      ent := frameEnt s
      fstate := .blocked
      log := s.log ++ [
        { w0 := recordW0 1 (verdictCode (frameEnt s).verdict) s.decodeFrame.csumBad.toNat 1 (frameEnt s).score.toNat
          w1 := s.decodeFrame.src, w2 := 0, w3 := recordW3 s.decodeFrame }]
      status := endStatus 0x30 .ok }

/-- PROCESS of a benign frame in PASSIVE or ACTIVE pushes one PASS record with the trimmed payload and leaves RXBUF as it
was; in PASSIVE it stops in PASSED, with no reply and TXBUF untouched (R216). -/
def Obligations.ProcessPassesBenignFrames : Prop :=
  ∀ s : State, s.log.length ≠ s.logDepth.toNat → s.decodeFrame.dres = .ok → s.ctrl.mode ≠ .observe →
    (frameEnt s).verdict = .benign →
    (∃ t, exec .process s = .next t ∧ t.log = s.log ++ [framePassRecord s] ∧
      ∀ a < 0x10000, t.byteAt a = s.byteAt a) ∧
    (s.ctrl.mode = .passive → exec .process s = .next { s with
      dec := s.decodeFrame
      ent := frameEnt s
      fstate := .passed
      log := s.log ++ [framePassRecord s]
      status := endStatus 0x30 .ok })

/-- PROCESS of a benign frame in ACTIVE: REPLIED, one PASS record, and exactly one reply in `TX[0 .. 8+plen)` with type 0,
code 0, the request's identifier and sequence, the untrimmed payload bit for bit and the checksum of that frame; TX_DST is
the source address; no other byte changes (R210, R217, R224). -/
def Obligations.ProcessRepliesToBenignFrames : Prop :=
  ∀ s : State, s.log.length ≠ s.logDepth.toNat → s.decodeFrame.dres = .ok → s.ctrl.mode = .active →
    (frameEnt s).verdict = .benign → ∃ t, exec .process s = .next t ∧
      t = { s with
        dec := s.decodeFrame
        ent := frameEnt s
        fstate := .replied
        log := s.log ++ [framePassRecord s]
        mem := t.mem
        tx := { len := BitVec.ofNat 16 (8 + s.decodeFrame.len.toNat), csum := t.tx.csum, dst := s.decodeFrame.src }
        status := endStatus 0x30 .ok } ∧
      8 + s.decodeFrame.len.toNat ≤ 65515 ∧
      t.tx.csum = checksum (wireHeader 0 0 0 s.decodeFrame.id s.decodeFrame.seq ++ framePayload s) ∧
      slice t .tx 0 (8 + s.decodeFrame.len.toNat) =
        wireHeader 0 0 t.tx.csum s.decodeFrame.id s.decodeFrame.seq ++ framePayload s ∧
      (∀ k, 8 + s.decodeFrame.len.toNat ≤ k → t.bufByte .tx k = s.bufByte .tx k) ∧
      (∀ a < 0x10000, t.byteAt a = s.byteAt a)

/-- Trimming: an all-whitespace payload gives its own offset and length 0; otherwise the span runs from the first to the
last byte that is not whitespace, inclusive (R218, R219). -/
def Obligations.TrimIsTheNonSpaceSpan : Prop :=
  ∀ s : State,
    let p := slice s .rx s.dec.off.toNat s.dec.len.toNat
    let space := fun b : Byte => b.toNat ∈ [0x09, 0x0A, 0x0B, 0x0C, 0x0D, 0x20]
    ((∀ b ∈ p, space b) → s.trim = (s.dec.off, 0)) ∧
    (∀ i j : Nat, ∀ hi : i < p.length, ∀ hj : j < p.length, ¬ space p[i] → ¬ space p[j] →
      (∀ k, ∀ hk : k < p.length, k < i ∨ j < k → space p[k]) →
      s.trim = (s.dec.off + BitVec.ofNat 16 i, BitVec.ofNat 16 (j - i + 1)))

/-- LOG.POP removes the head record of a nonempty log, and ends with LOG_EMPTY and changes nothing on an empty one;
LOG_COUNT reads the number of records while it fits 8 bits, and LOG_W0 to LOG_W3 read the four words of the head record,
0 when the log is empty (R222, R56). -/
def Obligations.LogPopRemovesTheHead : Prop :=
  ∀ (s : State) (r : LogRecord) (rest : List LogRecord),
    (s.log = r :: rest → exec .logPop s = .next { s with log := rest, status := endStatus 0x31 .ok }) ∧
    (s.log = [] → exec .logPop s = .next { s with status := endStatus 0x31 .logEmpty }) ∧
    (s.log.length ≤ 255 → (s.readNamed .logCount).toNat = s.log.length) ∧
    (s.log = r :: rest → s.readNamed .logW0 = r.w0 ∧ s.readNamed .logW1 = r.w1 ∧ s.readNamed .logW2 = r.w2 ∧
      s.readNamed .logW3 = r.w3) ∧
    (s.log = [] → ∀ q ∈ [RegName.logW0, .logW1, .logW2, .logW3], s.readNamed q = 0)

/-! ## The host's side -/

/-- A bus error changes no state of the block: an unmapped address, a misaligned or wrong-width access, whether or not the
block is busy (R72, R77, R78, R79; while busy: assumption 7). -/
def Obligations.BusErrorsChangeNothing : Prop :=
  ∀ (s : State) (x : HostAccess), s.HostNext x → IsBusError x.target.1 x.target.2 →
    step s = .next (answered s x .busError)

/-- Host buffer accesses of an idle block. A write of width n to an aligned buffer address A stores data bits [8k+7:8k] at
`A+k` and changes no other byte and no register; a read returns the n bytes, lane 0 first, with the unused upper data bits
0, and changes nothing (R74). -/
def Obligations.BufferAccessesMoveTheirLanes : Prop :=
  ∀ (s : State) (a : Addr) (w : Width), s.status.busy = false → a.toNat < 0x20000 → a.toNat % w.bytes = 0 →
    (∀ v : Word, s.HostNext (.write a w v) → ∃ t, step s = .next t ∧
      t = { answered s (.write a w v) .written with mem := t.mem } ∧
      (∀ k < w.bytes, t.byteAt (a.toNat + k) = v.extractLsb' (8 * k) 8) ∧
      (∀ b, b < a.toNat ∨ a.toNat + w.bytes ≤ b → t.byteAt b = s.byteAt b)) ∧
    (s.HostNext (.read a w) →
      step s = .next (answered s (.read a w) (.data (BitVec.ofNat 32
        ((List.range w.bytes).map fun k => (s.byteAt (a.toNat + k)).toNat * 256 ^ k).sum))))

/-- Mixed widths: after a host 32-bit write of w to RXBUF address A the engine's `MemRead(RX, A, 2)` is the byte-swapped
low half of w (R75). -/
def Obligations.EngineSeesByteSwappedHalf : Prop :=
  ∀ (s : State) (a : Addr) (v : Word), s.HostNext (.write a .w4 v) → s.status.busy = false →
    a.toNat < 0x10000 → a.toNat % 4 = 0 →
    ∃ t, step s = .next t ∧ t.byteAt a.toNat = v.extractLsb' 0 8 ∧ t.byteAt (a.toNat + 1) = v.extractLsb' 8 8 ∧
      t.memRead .rx a.toNat 2 = v.toNat % 256 * 256 + v.toNat / 256 % 256

/-- The register window of an idle block: a 4-byte read at a register's offset returns the word of its fields, at HIST[v]'s
offset the counter, and at every other offset of the window 0, and changes nothing (R22-R56, R80, R84; LOG_COUNT of more
than 255 records is assumption 13). The words of `readNamed` and `readReg`, in which other statements speak, are these. -/
def Obligations.RegisterWindowReads : Prop :=
  ∀ s : State,
    (∀ p ∈ windowTable s, s.readNamed p.1 = p.2.2) ∧
    (∀ v : Byte, s.readReg (.hist v) = fieldWord [(0, (s.ent.hist[v.toNat]'v.isLt).toNat)]) ∧
    (∀ a : Addr, s.HostNext (.read a .w4) → s.status.busy = false →
      (∀ p ∈ windowTable s, a.toNat = 0x20000 + p.2.1 →
        step s = .next (answered s (.read a .w4) (.data p.2.2))) ∧
      (∀ v : Byte, a.toNat = 0x20400 + 4 * v.toNat →
        step s = .next (answered s (.read a .w4) (.data (fieldWord [(0, (s.ent.hist[v.toNat]'v.isLt).toNat)])))) ∧
      (0x20000 ≤ a.toNat → a.toNat < 0x20400 → a.toNat % 4 = 0 → (∀ p ∈ windowTable s, a.toNat ≠ 0x20000 + p.2.1) →
        step s = .next (answered s (.read a .w4) (.data 0))))

/-- A 4-byte write to an idle block's register window: a RW register's fields take their bits of the data word, which then
read back, and nothing else changes; a write at every other offset but those of CMD and CTRL (a RO register, a counter, a
reserved offset) changes nothing (R25-R27, R42-R44, R48-R50, R53, R80, R81). -/
def Obligations.RegisterWindowWrites : Prop :=
  ∀ (s : State) (a : Addr) (v : Word), s.HostNext (.write a .w4 v) → s.status.busy = false →
    (∀ p ∈ writeTable (answered s (.write a .w4 v) .written) v, a.toNat = 0x20000 + p.1 → step s = .next p.2) ∧
    (∀ q ∈ writableBits, a.toNat = 0x20000 + q.2.1 → ∃ t, step s = .next t ∧ t.readNamed q.1 = v &&& q.2.2) ∧
    (0x20000 ≤ a.toNat → a.toNat < 0x20800 → a.toNat % 4 = 0 → a ≠ 0x20000 → a ≠ 0x20008 →
      (∀ q ∈ writableBits, a.toNat ≠ 0x20000 + q.2.1) →
      step s = .next (answered s (.write a .w4 v) .written))

/-- A write to CTRL: bits [2:1] = 0b11 keep MODE and still write the other fields; otherwise bits 3:0 are taken; nothing
else changes (R24). -/
def Obligations.CtrlWriteKeepsALegalMode : Prop :=
  ∀ (s : State) (v : Word), s.HostNext (.write 0x20008 .w4 v) → s.status.busy = false →
    ∃ t, step s = .next t ∧ t = { answered s (.write 0x20008 .w4 v) .written with ctrl := t.ctrl } ∧
      t.readNamed .ctrl = if v &&& 6 = 6 then (v &&& 9) ||| (s.readNamed .ctrl &&& 6) else v &&& 0xF

/-- A write of w to CMD of an idle block latches w and sets BUSY, and changes nothing else; to a busy block it is a host
contract violation, which marks FAULT; a read of CMD of an idle block is 0 (R23). That LAST_OP and ERR stay as they were at
the latch is assumption 11; that the write to a busy block is a next state with the mark is assumption 6. -/
def Obligations.CmdWriteLatches : Prop :=
  ∀ (s : State) (v : Word),
    (s.status.busy = false → s.HostNext (.write 0x20000 .w4 v) → step s = .next
      { answered s (.write 0x20000 .w4 v) .written with cmdl := v, status := { s.status with busy := true } }) ∧
    (s.status.busy = true → s.HostNext (.write 0x20000 .w4 v) → ∃ t, step s = .next t ∧
      Fault.writeWhileBusy ∈ t.faults) ∧
    (s.status.busy = false → s.HostNext (.read 0x20000 .w4) →
      step s = .next (answered s (.read 0x20000 .w4) (.data 0)))

/-- While BUSY = 1 a legal read of STATUS returns its value and a legal read of any other address a draw; neither changes
the block (R83; the draw is assumption 5, and the statement holds for every value of it; that a read of CMD is one too is
assumption 10, and that a bus error comes first is assumption 7). -/
def Obligations.ReadsWhileBusyAreDraws : Prop :=
  ∀ (s : State) (a : Addr) (w : Width), s.HostNext (.read a w) → s.status.busy = true → ¬ IsBusError a w →
    (a = 0x20004 → step s = .next (answered s (.read a w) (.data (statusFields s)))) ∧
    (a ≠ 0x20004 → ∃ t d, step s = .next t ∧ t = { s with env := t.env } ∧
      t.env.seen = s.env.seen ++ [{ access := .read a w, response := .data d }])

/-- A host write to a buffer address or register while BUSY = 1 adds WriteWhileBusy to FAULT (R258). That the write is a next
state and that a marked state then faults at every step but a hardware reset is the model's form of "the run is refuted"
(assumptions 6 and 8). -/
def Obligations.WriteWhileBusyRefutesTheRun : Prop :=
  (∀ (s : State) (a : Addr) (w : Width) (v : Word), s.HostNext (.write a w v) → s.status.busy = true →
    ¬ IsBusError a w → ∃ t, step s = .next t ∧ Fault.writeWhileBusy ∈ t.faults) ∧
  (∀ s : State, Fault.writeWhileBusy ∈ s.faults → s.env.inputs.head? ≠ some .hardReset →
    step s = .fault .writeWhileBusy)

/-! ## Reset and invariants -/

/-- The state after the first hardware reset is the table of R280: idle, every register at its value, LOG and FAULT empty
(R60, R280). The buffer bytes are draws (assumption 2) and nothing is claimed of them. -/
def Obligations.ResetIsTheTable : Prop :=
  AtResetTable State.reset ∧ State.reset.readNamed .status = 0 ∧ State.reset.status.busy = false ∧
    State.reset.faults = []

/-- A hardware reset at any time gives the table of R280 and discards a latched command: BUSY = 0, so nothing is executed
later (R280, R282, R255). That FAULT is emptied although R58 says "never cleared" is assumption 8, and that LOG_DEPTH is
kept is assumption 3. -/
def Obligations.HardResetAtAnyTime : Prop :=
  ∀ s : State, s.env.inputs.head? = some .hardReset →
    ∃ t, step s = .next t ∧ AtResetTable t ∧ t.readNamed .status = 0 ∧ t.faults = [] ∧ t.logDepth = s.logDepth ∧
      t.env.inputs = s.env.inputs.tail

/-- Every step keeps the invariant: canonical memory, `ENT_N` the sum of the histogram, a valid score that of the
histogram, at most LOG_DEPTH records, RECEIVED never left in FSTATE, and coherent decode registers (R51, R52, R54, R56,
R161, R188). -/
def Obligations.EveryStepKeepsTheInvariant : Prop :=
  ∀ s t : State, s.Inv → step s = .next t → t.Inv

/-- The reset state meets the invariant. -/
def Obligations.ResetMeetsTheInvariant : Prop := State.reset.Inv
end

