-- ==== Sys2Proof/Laws/Memory.lean ====
section
/-! SUPPORT. The laws of the sparse buffer memory: a read after a write, reading a run of bytes, and the canonical form. -/

namespace Sys2Proof.Machine

open Sys2Proof

theorem Memory.atOrAbove_atOrAbove (m : Memory) {a b : Nat} (h : a ≤ b) :
    (m.atOrAbove a).atOrAbove b = m.atOrAbove b := by
  induction m with
  | nil => rfl
  | cons c m ih =>
    by_cases hc : c.1 < a
    · simpa [Memory.atOrAbove, hc, show c.1 < b by omega] using ih
    · simp [Memory.atOrAbove, hc]

/-- Dropping entries below `a` loses no byte at or above `a`. -/
theorem Memory.lookup_atOrAbove (m : Memory) {a b : Nat} (h : a ≤ b) : (m.atOrAbove a).lookup b = m.lookup b := by
  simp [Memory.lookup, m.atOrAbove_atOrAbove h]

/-- A run of bytes is the bytes one by one. -/
theorem Memory.run_eq_map (d : Nat → Byte) (m : Memory) (a n : Nat) :
    m.run d a n = (List.range' a n).map fun k => (m.lookup k).getD (d k) := by
  induction n generalizing m a with
  | zero => rfl
  | succ n ih =>
    rw [Memory.run, List.range'_succ, List.map_cons, ih]
    congr 1
    refine List.map_congr_left fun k hk => ?_
    rw [m.lookup_atOrAbove (by have := List.mem_range'_1.mp hk; omega)]

@[simp] theorem Memory.length_run (d : Nat → Byte) (m : Memory) (a n : Nat) : (m.run d a n).length = n := by
  simp [Memory.run_eq_map]

theorem Memory.mem_cells {a : Nat} {bs : List Byte} {c : Host.Cell} (h : c ∈ Memory.cells a bs) :
    a ≤ c.1 ∧ c.1 < a + bs.length := by
  induction bs generalizing a with
  | nil => simp [Memory.cells] at h
  | cons b bs ih =>
    simp only [Memory.cells, List.mem_cons] at h
    rcases h with rfl | h
    · simp
    · have := ih h
      simp only [List.length_cons]
      omega

theorem Memory.mem_below {m : Memory} {a : Nat} {c : Host.Cell} (h : c ∈ m.below a) : c ∈ m ∧ c.1 < a := by
  have h1 := List.takeWhile_prefix (l := m) (fun c => decide (c.1 < a))
  have h2 := List.mem_takeWhile_imp h
  exact ⟨h1.subset h, by simpa using h2⟩

theorem Memory.mem_atOrAbove {m : Memory} {a : Nat} {c : Host.Cell} (h : c ∈ m.atOrAbove a) : c ∈ m :=
  (List.dropWhile_suffix _).subset h

/-- In canonical form the entries at or above `a` are at or above `a`. -/
theorem Memory.le_of_mem_atOrAbove {m : Memory} (hm : m.Pairwise fun c d => c.1 < d.1) {a : Nat} {c : Host.Cell}
    (h : c ∈ m.atOrAbove a) : a ≤ c.1 := by
  induction m with
  | nil => simp [Memory.atOrAbove] at h
  | cons d m ih =>
    rw [List.pairwise_cons] at hm
    by_cases hd : d.1 < a
    · exact ih hm.2 (by simpa [Memory.atOrAbove, hd] using h)
    · simp only [Memory.atOrAbove, List.dropWhile_cons, hd, decide_false, Bool.false_eq_true, if_false,
        List.mem_cons] at h
      rcases h with rfl | h
      · omega
      · have := hm.1 c h
        omega

theorem Memory.cells_pairwise (a : Nat) (bs : List Byte) :
    (Memory.cells a bs).Pairwise fun c d => c.1 < d.1 := by
  induction bs generalizing a with
  | nil => simp [Memory.cells]
  | cons b bs ih =>
    rw [Memory.cells, List.pairwise_cons]
    exact ⟨fun c hc => by have := Memory.mem_cells hc; omega, ih _⟩

/-- A write inside the buffers keeps the canonical form. -/
theorem Memory.wf_write {m : Memory} (hm : m.wf) {a : Nat} {bs : List Byte} (h : a + bs.length ≤ Config.regBase) :
    (m.write a bs).wf := by
  obtain ⟨hp, hr⟩ := hm
  refine ⟨?_, fun c hc => ?_⟩
  · refine List.pairwise_append.mpr ⟨hp.sublist (List.takeWhile_prefix _).sublist, List.pairwise_append.mpr
      ⟨Memory.cells_pairwise a bs, hp.sublist (List.dropWhile_suffix _).sublist, ?_⟩, ?_⟩
    · intro c hc d hd
      have h1 := Memory.mem_cells hc
      have h2 := Memory.le_of_mem_atOrAbove hp hd
      omega
    · intro c hc d hd
      have h1 := (Memory.mem_below hc).2
      rcases List.mem_append.mp hd with hd | hd
      · have := Memory.mem_cells hd
        omega
      · have := Memory.le_of_mem_atOrAbove hp hd
        omega
  · rcases List.mem_append.mp hc with hc | hc
    · exact hr c (Memory.mem_below hc).1
    · rcases List.mem_append.mp hc with hc | hc
      · have := Memory.mem_cells hc
        omega
      · exact hr c (Memory.mem_atOrAbove hc)

theorem Memory.wf_nil : Memory.wf [] := by simp [Memory.wf]

theorem Memory.lookup_cells_append (a : Nat) (bs : List Byte) (m : Memory) (k : Nat) (h1 : a ≤ k)
    (h2 : k < a + bs.length) : Memory.lookup (Memory.cells a bs ++ m) k = bs[k - a]? := by
  induction bs generalizing a with
  | nil => simp only [List.length_nil] at h2; omega
  | cons b bs ih =>
    rcases Nat.lt_or_ge a k with h | h
    · have := ih (a + 1) (by omega) (by simp only [List.length_cons] at h2; omega)
      simp only [Memory.lookup, Memory.cells, List.cons_append, Memory.atOrAbove, List.dropWhile_cons, h,
        decide_true, if_true] at this ⊢
      rw [this, show k - a = (k - (a + 1)) + 1 by omega, List.getElem?_cons_succ]
    · obtain rfl : a = k := by omega
      simp [Memory.lookup, Memory.cells, Memory.atOrAbove, Memory.headByte]

theorem Memory.atOrAbove_append_of_lt {l : Memory} {k : Nat} (h : ∀ c ∈ l, c.1 < k) (m : Memory) :
    Memory.atOrAbove (l ++ m) k = m.atOrAbove k := by
  induction l with
  | nil => rfl
  | cons c l ih =>
    have hc := h c (by simp)
    simpa [Memory.atOrAbove, hc] using ih fun d hd => h d (by simp [hd])

/-- Reading a byte just written. -/
theorem Memory.lookup_write_inside (m : Memory) (a : Nat) (bs : List Byte) (k : Nat) (h1 : a ≤ k)
    (h2 : k < a + bs.length) : (m.write a bs).lookup k = bs[k - a]? := by
  rw [Memory.lookup, Memory.write, Memory.atOrAbove_append_of_lt fun c hc => by
    have := (Memory.mem_below hc).2; omega]
  exact Memory.lookup_cells_append a bs _ k h1 h2

theorem Memory.lookup_write_above (m : Memory) (a : Nat) (bs : List Byte) (k : Nat) (h : a + bs.length ≤ k) :
    (m.write a bs).lookup k = m.lookup k := by
  rw [Memory.lookup, Memory.write, Memory.atOrAbove_append_of_lt fun c hc => by
    have := (Memory.mem_below hc).2; omega, Memory.atOrAbove_append_of_lt fun c hc => by
    have := Memory.mem_cells hc; omega]
  exact m.lookup_atOrAbove h

theorem Memory.headByte_cells_append (a : Nat) (bs : List Byte) (r m : Memory) (k : Nat) (h : k < a)
    (hr : r = m.atOrAbove (a + bs.length)) (hm : ∀ c ∈ m.head?, a ≤ c.1) :
    (Memory.atOrAbove (Memory.cells a bs ++ r) k).headByte k = (m.atOrAbove k).headByte k := by
  have e : (m.atOrAbove k).headByte k = none := by
    cases m with
    | nil => rfl
    | cons c m =>
      have := hm c (by simp)
      simp [Memory.atOrAbove, Memory.headByte, show ¬ c.1 < k by omega, show ¬ c.1 = k by omega]
  rw [e]
  cases bs with
  | cons b bs =>
    simp [Memory.cells, Memory.atOrAbove, Memory.headByte, show ¬ a < k by omega, show ¬ a = k by omega]
  | nil =>
    subst hr
    simp only [Memory.cells, List.nil_append, List.length_nil, Nat.add_zero]
    cases m with
    | nil => rfl
    | cons c m =>
      have := hm c (by simp)
      simp [Memory.atOrAbove, Memory.headByte, show ¬ c.1 < k by omega, show ¬ c.1 = k by omega,
        show ¬ c.1 < a by omega]

theorem Memory.lookup_write_below (m : Memory) (a : Nat) (bs : List Byte) (k : Nat) (h : k < a) :
    (m.write a bs).lookup k = m.lookup k := by
  unfold Memory.write
  generalize hr : m.atOrAbove (a + bs.length) = r
  induction m with
  | nil => exact Memory.headByte_cells_append a bs r [] k h hr.symm (by simp)
  | cons c m ih =>
    by_cases hc : c.1 < a
    · have hr' : Memory.atOrAbove m (a + bs.length) = r := by
        simpa [Memory.atOrAbove, show c.1 < a + bs.length by omega] using hr
      have := ih hr'
      simp only [Memory.lookup, Memory.below, List.takeWhile_cons, hc, decide_true, if_true,
        List.cons_append] at this ⊢
      by_cases hk : c.1 < k
      · simpa [Memory.atOrAbove, hk] using this
      · simp [Memory.atOrAbove, hk, Memory.headByte]
    · have e : Memory.below (c :: m) a = [] := by simp [Memory.below, hc]
      rw [e, List.nil_append]
      exact Memory.headByte_cells_append a bs r (c :: m) k h hr.symm (by simp; omega)

/-- Reading after a write: the byte written, or the byte that was there. -/
theorem Memory.lookup_write (m : Memory) (a : Nat) (bs : List Byte) (k : Nat) :
    (m.write a bs).lookup k = if a ≤ k ∧ k < a + bs.length then bs[k - a]? else m.lookup k := by
  split
  · exact m.lookup_write_inside a bs k (by omega) (by omega)
  · rcases Nat.lt_or_ge k a with h | h
    · exact m.lookup_write_below a bs k h
    · exact m.lookup_write_above a bs k (by omega)

/-- The bytes from `a` on, one by one. -/
theorem State.bytesAt_eq_map (s : State) (a n : Nat) : s.bytesAt a n = (List.range' a n).map s.byteAt :=
  s.mem.run_eq_map s.drawn a n

@[simp] theorem State.length_bytesAt (s : State) (a n : Nat) : (s.bytesAt a n).length = n := by
  simp [State.bytesAt]

@[simp] theorem State.length_bufBytes (s : State) (b : Buf) (a n : Nat) : (s.bufBytes b a n).length = n := by
  simp [State.bufBytes]

/-- Reading a buffer byte after a write. -/
theorem State.byteAt_writeAt (s : State) (a : Nat) (bs : List Byte) (k : Nat) :
    (s.writeAt a bs).byteAt k = if h : a ≤ k ∧ k < a + bs.length then bs[k - a] else s.byteAt k := by
  unfold State.byteAt
  rw [show (s.writeAt a bs).mem = s.mem.write a bs from rfl, Memory.lookup_write]
  split
  · rw [List.getElem?_eq_getElem (by omega)]
    rfl
  · rfl

/-- A byte outside a write is unchanged. -/
theorem State.byteAt_writeAt_outside (s : State) {a : Nat} {bs : List Byte} {k : Nat}
    (h : k < a ∨ a + bs.length ≤ k) : (s.writeAt a bs).byteAt k = s.byteAt k := by
  rw [State.byteAt_writeAt, dif_neg (by omega)]

/-- Reading a byte of a run. -/
theorem State.getElem_bytesAt (s : State) (a n i : Nat) (h : i < (s.bytesAt a n).length) :
    (s.bytesAt a n)[i] = s.byteAt (a + i) := by
  simp [State.bytesAt_eq_map]

/-- Bytes outside a write are unchanged, as a run. -/
theorem State.bytesAt_writeAt_outside (s : State) {a : Nat} {bs : List Byte} {k n : Nat}
    (h : k + n ≤ a ∨ a + bs.length ≤ k) : (s.writeAt a bs).bytesAt k n = s.bytesAt k n := by
  simp only [State.bytesAt_eq_map]
  refine List.map_congr_left fun i hi => State.byteAt_writeAt_outside s ?_
  have := List.mem_range'_1.mp hi
  omega

/-- The run just written. -/
theorem State.bytesAt_writeAt_same (s : State) (a : Nat) (bs : List Byte) :
    (s.writeAt a bs).bytesAt a bs.length = bs := by
  refine List.ext_getElem (by simp) fun i h1 h2 => ?_
  rw [State.getElem_bytesAt, State.byteAt_writeAt, dif_pos (by omega)]
  simp

/-- A run split in two. -/
theorem State.bytesAt_add (s : State) (a n k : Nat) : s.bytesAt a (n + k) = s.bytesAt a n ++ s.bytesAt (a + n) k := by
  simp [State.bytesAt_eq_map, ← List.map_append, List.range'_append_1]

end Sys2Proof.Machine
end

