-- ==== Sys2Proof/Laws/State.lean ====
section
/-! SUPPORT. The small lemmas of the state updates: one per field per update, true by unfolding, so that no later proof
unfolds a record update. -/

namespace Sys2Proof.Machine

open Sys2Proof

variable (s : State)


/-! ### finish: ending a command writes only STATUS (R250, R251) -/

@[simp] theorem State.finish_status (op : Byte) (e : CmdError) :
    (s.finish op e).status = { busy := false, err := e, lastOp := op } := rfl
@[simp] theorem State.finish_cmdl (op : Byte) (e : CmdError) : (s.finish op e).cmdl = s.cmdl := rfl
@[simp] theorem State.finish_ctrl (op : Byte) (e : CmdError) : (s.finish op e).ctrl = s.ctrl := rfl
@[simp] theorem State.finish_capLen (op : Byte) (e : CmdError) : (s.finish op e).capLen = s.capLen := rfl
@[simp] theorem State.finish_arg (op : Byte) (e : CmdError) : (s.finish op e).arg = s.arg := rfl
@[simp] theorem State.finish_expProto (op : Byte) (e : CmdError) : (s.finish op e).expProto = s.expProto := rfl
@[simp] theorem State.finish_csum (op : Byte) (e : CmdError) : (s.finish op e).csum = s.csum := rfl
@[simp] theorem State.finish_dec (op : Byte) (e : CmdError) : (s.finish op e).dec = s.dec := rfl
@[simp] theorem State.finish_enc (op : Byte) (e : CmdError) : (s.finish op e).enc = s.enc := rfl
@[simp] theorem State.finish_tx (op : Byte) (e : CmdError) : (s.finish op e).tx = s.tx := rfl
@[simp] theorem State.finish_th (op : Byte) (e : CmdError) : (s.finish op e).th = s.th := rfl
@[simp] theorem State.finish_ent (op : Byte) (e : CmdError) : (s.finish op e).ent = s.ent := rfl
@[simp] theorem State.finish_fstate (op : Byte) (e : CmdError) : (s.finish op e).fstate = s.fstate := rfl
@[simp] theorem State.finish_log (op : Byte) (e : CmdError) : (s.finish op e).log = s.log := rfl
@[simp] theorem State.finish_mem (op : Byte) (e : CmdError) : (s.finish op e).mem = s.mem := rfl
@[simp] theorem State.finish_faults (op : Byte) (e : CmdError) : (s.finish op e).faults = s.faults := rfl
@[simp] theorem State.finish_logDepth (op : Byte) (e : CmdError) : (s.finish op e).logDepth = s.logDepth := rfl
@[simp] theorem State.finish_env (op : Byte) (e : CmdError) : (s.finish op e).env = s.env := rfl

/-! ### writeAt: storing bytes writes only the buffers -/

@[simp] theorem State.writeAt_status (a : Nat) (bs : List Byte) : (s.writeAt a bs).status = s.status := rfl
@[simp] theorem State.writeAt_cmdl (a : Nat) (bs : List Byte) : (s.writeAt a bs).cmdl = s.cmdl := rfl
@[simp] theorem State.writeAt_ctrl (a : Nat) (bs : List Byte) : (s.writeAt a bs).ctrl = s.ctrl := rfl
@[simp] theorem State.writeAt_capLen (a : Nat) (bs : List Byte) : (s.writeAt a bs).capLen = s.capLen := rfl
@[simp] theorem State.writeAt_arg (a : Nat) (bs : List Byte) : (s.writeAt a bs).arg = s.arg := rfl
@[simp] theorem State.writeAt_expProto (a : Nat) (bs : List Byte) : (s.writeAt a bs).expProto = s.expProto := rfl
@[simp] theorem State.writeAt_csum (a : Nat) (bs : List Byte) : (s.writeAt a bs).csum = s.csum := rfl
@[simp] theorem State.writeAt_dec (a : Nat) (bs : List Byte) : (s.writeAt a bs).dec = s.dec := rfl
@[simp] theorem State.writeAt_enc (a : Nat) (bs : List Byte) : (s.writeAt a bs).enc = s.enc := rfl
@[simp] theorem State.writeAt_tx (a : Nat) (bs : List Byte) : (s.writeAt a bs).tx = s.tx := rfl
@[simp] theorem State.writeAt_th (a : Nat) (bs : List Byte) : (s.writeAt a bs).th = s.th := rfl
@[simp] theorem State.writeAt_ent (a : Nat) (bs : List Byte) : (s.writeAt a bs).ent = s.ent := rfl
@[simp] theorem State.writeAt_fstate (a : Nat) (bs : List Byte) : (s.writeAt a bs).fstate = s.fstate := rfl
@[simp] theorem State.writeAt_log (a : Nat) (bs : List Byte) : (s.writeAt a bs).log = s.log := rfl
@[simp] theorem State.writeAt_mem (a : Nat) (bs : List Byte) : (s.writeAt a bs).mem = s.mem.write a bs := rfl
@[simp] theorem State.writeAt_faults (a : Nat) (bs : List Byte) : (s.writeAt a bs).faults = s.faults := rfl
@[simp] theorem State.writeAt_logDepth (a : Nat) (bs : List Byte) : (s.writeAt a bs).logDepth = s.logDepth := rfl
@[simp] theorem State.writeAt_env (a : Nat) (bs : List Byte) : (s.writeAt a bs).env = s.env := rfl

/-! ### push: Push writes only LOG (R221) -/

@[simp] theorem State.push_status (r : LogRecord) : (s.push r).status = s.status := rfl
@[simp] theorem State.push_cmdl (r : LogRecord) : (s.push r).cmdl = s.cmdl := rfl
@[simp] theorem State.push_ctrl (r : LogRecord) : (s.push r).ctrl = s.ctrl := rfl
@[simp] theorem State.push_capLen (r : LogRecord) : (s.push r).capLen = s.capLen := rfl
@[simp] theorem State.push_arg (r : LogRecord) : (s.push r).arg = s.arg := rfl
@[simp] theorem State.push_expProto (r : LogRecord) : (s.push r).expProto = s.expProto := rfl
@[simp] theorem State.push_csum (r : LogRecord) : (s.push r).csum = s.csum := rfl
@[simp] theorem State.push_dec (r : LogRecord) : (s.push r).dec = s.dec := rfl
@[simp] theorem State.push_enc (r : LogRecord) : (s.push r).enc = s.enc := rfl
@[simp] theorem State.push_tx (r : LogRecord) : (s.push r).tx = s.tx := rfl
@[simp] theorem State.push_th (r : LogRecord) : (s.push r).th = s.th := rfl
@[simp] theorem State.push_ent (r : LogRecord) : (s.push r).ent = s.ent := rfl
@[simp] theorem State.push_fstate (r : LogRecord) : (s.push r).fstate = s.fstate := rfl
@[simp] theorem State.push_log (r : LogRecord) : (s.push r).log = s.log ++ [r] := rfl
@[simp] theorem State.push_mem (r : LogRecord) : (s.push r).mem = s.mem := rfl
@[simp] theorem State.push_faults (r : LogRecord) : (s.push r).faults = s.faults := rfl
@[simp] theorem State.push_logDepth (r : LogRecord) : (s.push r).logDepth = s.logDepth := rfl
@[simp] theorem State.push_env (r : LogRecord) : (s.push r).env = s.env := rfl

/-! ### popLog: Pop writes only LOG (R222) -/

@[simp] theorem State.popLog_status : s.popLog.status = s.status := rfl
@[simp] theorem State.popLog_cmdl : s.popLog.cmdl = s.cmdl := rfl
@[simp] theorem State.popLog_ctrl : s.popLog.ctrl = s.ctrl := rfl
@[simp] theorem State.popLog_capLen : s.popLog.capLen = s.capLen := rfl
@[simp] theorem State.popLog_arg : s.popLog.arg = s.arg := rfl
@[simp] theorem State.popLog_expProto : s.popLog.expProto = s.expProto := rfl
@[simp] theorem State.popLog_csum : s.popLog.csum = s.csum := rfl
@[simp] theorem State.popLog_dec : s.popLog.dec = s.dec := rfl
@[simp] theorem State.popLog_enc : s.popLog.enc = s.enc := rfl
@[simp] theorem State.popLog_tx : s.popLog.tx = s.tx := rfl
@[simp] theorem State.popLog_th : s.popLog.th = s.th := rfl
@[simp] theorem State.popLog_ent : s.popLog.ent = s.ent := rfl
@[simp] theorem State.popLog_fstate : s.popLog.fstate = s.fstate := rfl
@[simp] theorem State.popLog_log : s.popLog.log = s.log.tail := rfl
@[simp] theorem State.popLog_mem : s.popLog.mem = s.mem := rfl
@[simp] theorem State.popLog_faults : s.popLog.faults = s.faults := rfl
@[simp] theorem State.popLog_logDepth : s.popLog.logDepth = s.logDepth := rfl
@[simp] theorem State.popLog_env : s.popLog.env = s.env := rfl

/-! ### settle: writes only FSTATE -/

@[simp] theorem State.settle_status (f : FilterState) : (s.settle f).status = s.status := rfl
@[simp] theorem State.settle_cmdl (f : FilterState) : (s.settle f).cmdl = s.cmdl := rfl
@[simp] theorem State.settle_ctrl (f : FilterState) : (s.settle f).ctrl = s.ctrl := rfl
@[simp] theorem State.settle_capLen (f : FilterState) : (s.settle f).capLen = s.capLen := rfl
@[simp] theorem State.settle_arg (f : FilterState) : (s.settle f).arg = s.arg := rfl
@[simp] theorem State.settle_expProto (f : FilterState) : (s.settle f).expProto = s.expProto := rfl
@[simp] theorem State.settle_csum (f : FilterState) : (s.settle f).csum = s.csum := rfl
@[simp] theorem State.settle_dec (f : FilterState) : (s.settle f).dec = s.dec := rfl
@[simp] theorem State.settle_enc (f : FilterState) : (s.settle f).enc = s.enc := rfl
@[simp] theorem State.settle_tx (f : FilterState) : (s.settle f).tx = s.tx := rfl
@[simp] theorem State.settle_th (f : FilterState) : (s.settle f).th = s.th := rfl
@[simp] theorem State.settle_ent (f : FilterState) : (s.settle f).ent = s.ent := rfl
@[simp] theorem State.settle_fstate (f : FilterState) : (s.settle f).fstate = f := rfl
@[simp] theorem State.settle_log (f : FilterState) : (s.settle f).log = s.log := rfl
@[simp] theorem State.settle_mem (f : FilterState) : (s.settle f).mem = s.mem := rfl
@[simp] theorem State.settle_faults (f : FilterState) : (s.settle f).faults = s.faults := rfl
@[simp] theorem State.settle_logDepth (f : FilterState) : (s.settle f).logDepth = s.logDepth := rfl
@[simp] theorem State.settle_env (f : FilterState) : (s.settle f).env = s.env := rfl

/-! ### accumulate: accumulating writes only the checksum unit (R130) -/

@[simp] theorem State.accumulate_status (bs : List Byte) : (s.accumulate bs).status = s.status := rfl
@[simp] theorem State.accumulate_cmdl (bs : List Byte) : (s.accumulate bs).cmdl = s.cmdl := rfl
@[simp] theorem State.accumulate_ctrl (bs : List Byte) : (s.accumulate bs).ctrl = s.ctrl := rfl
@[simp] theorem State.accumulate_capLen (bs : List Byte) : (s.accumulate bs).capLen = s.capLen := rfl
@[simp] theorem State.accumulate_arg (bs : List Byte) : (s.accumulate bs).arg = s.arg := rfl
@[simp] theorem State.accumulate_expProto (bs : List Byte) : (s.accumulate bs).expProto = s.expProto := rfl
@[simp] theorem State.accumulate_csum (bs : List Byte) :
    (s.accumulate bs).csum = { s.csum with acc := (addBytes (s.csum.acc, s.csum.par) bs).1, par := (addBytes (s.csum.acc, s.csum.par) bs).2 } := rfl
@[simp] theorem State.accumulate_dec (bs : List Byte) : (s.accumulate bs).dec = s.dec := rfl
@[simp] theorem State.accumulate_enc (bs : List Byte) : (s.accumulate bs).enc = s.enc := rfl
@[simp] theorem State.accumulate_tx (bs : List Byte) : (s.accumulate bs).tx = s.tx := rfl
@[simp] theorem State.accumulate_th (bs : List Byte) : (s.accumulate bs).th = s.th := rfl
@[simp] theorem State.accumulate_ent (bs : List Byte) : (s.accumulate bs).ent = s.ent := rfl
@[simp] theorem State.accumulate_fstate (bs : List Byte) : (s.accumulate bs).fstate = s.fstate := rfl
@[simp] theorem State.accumulate_log (bs : List Byte) : (s.accumulate bs).log = s.log := rfl
@[simp] theorem State.accumulate_mem (bs : List Byte) : (s.accumulate bs).mem = s.mem := rfl
@[simp] theorem State.accumulate_faults (bs : List Byte) : (s.accumulate bs).faults = s.faults := rfl
@[simp] theorem State.accumulate_logDepth (bs : List Byte) : (s.accumulate bs).logDepth = s.logDepth := rfl
@[simp] theorem State.accumulate_env (bs : List Byte) : (s.accumulate bs).env = s.env := rfl

/-! ### count: counting writes only the entropy unit (R185, R186) -/

@[simp] theorem State.count_status (bs : List Byte) : (s.count bs).status = s.status := rfl
@[simp] theorem State.count_cmdl (bs : List Byte) : (s.count bs).cmdl = s.cmdl := rfl
@[simp] theorem State.count_ctrl (bs : List Byte) : (s.count bs).ctrl = s.ctrl := rfl
@[simp] theorem State.count_capLen (bs : List Byte) : (s.count bs).capLen = s.capLen := rfl
@[simp] theorem State.count_arg (bs : List Byte) : (s.count bs).arg = s.arg := rfl
@[simp] theorem State.count_expProto (bs : List Byte) : (s.count bs).expProto = s.expProto := rfl
@[simp] theorem State.count_csum (bs : List Byte) : (s.count bs).csum = s.csum := rfl
@[simp] theorem State.count_dec (bs : List Byte) : (s.count bs).dec = s.dec := rfl
@[simp] theorem State.count_enc (bs : List Byte) : (s.count bs).enc = s.enc := rfl
@[simp] theorem State.count_tx (bs : List Byte) : (s.count bs).tx = s.tx := rfl
@[simp] theorem State.count_th (bs : List Byte) : (s.count bs).th = s.th := rfl
@[simp] theorem State.count_ent (bs : List Byte) :
    (s.count bs).ent = { s.ent with hist := bumpAll s.ent.hist bs, n := s.ent.n + BitVec.ofNat 16 bs.length, valid := false } := rfl
@[simp] theorem State.count_fstate (bs : List Byte) : (s.count bs).fstate = s.fstate := rfl
@[simp] theorem State.count_log (bs : List Byte) : (s.count bs).log = s.log := rfl
@[simp] theorem State.count_mem (bs : List Byte) : (s.count bs).mem = s.mem := rfl
@[simp] theorem State.count_faults (bs : List Byte) : (s.count bs).faults = s.faults := rfl
@[simp] theorem State.count_logDepth (bs : List Byte) : (s.count bs).logDepth = s.logDepth := rfl
@[simp] theorem State.count_env (bs : List Byte) : (s.count bs).env = s.env := rfl

/-! ### classify: classifying writes only the entropy unit (R187) -/

@[simp] theorem State.classify_status : s.classify.status = s.status := rfl
@[simp] theorem State.classify_cmdl : s.classify.cmdl = s.cmdl := rfl
@[simp] theorem State.classify_ctrl : s.classify.ctrl = s.ctrl := rfl
@[simp] theorem State.classify_capLen : s.classify.capLen = s.capLen := rfl
@[simp] theorem State.classify_arg : s.classify.arg = s.arg := rfl
@[simp] theorem State.classify_expProto : s.classify.expProto = s.expProto := rfl
@[simp] theorem State.classify_csum : s.classify.csum = s.csum := rfl
@[simp] theorem State.classify_dec : s.classify.dec = s.dec := rfl
@[simp] theorem State.classify_enc : s.classify.enc = s.enc := rfl
@[simp] theorem State.classify_tx : s.classify.tx = s.tx := rfl
@[simp] theorem State.classify_th : s.classify.th = s.th := rfl
@[simp] theorem State.classify_ent :
    s.classify.ent = { s.ent with score := BitVec.ofNat 16 (entropyScore (counts s.ent.hist)), verdict := verdictOf (counts s.ent.hist) s.ent.n.toNat s.th, valid := true } := rfl
@[simp] theorem State.classify_fstate : s.classify.fstate = s.fstate := rfl
@[simp] theorem State.classify_log : s.classify.log = s.log := rfl
@[simp] theorem State.classify_mem : s.classify.mem = s.mem := rfl
@[simp] theorem State.classify_faults : s.classify.faults = s.faults := rfl
@[simp] theorem State.classify_logDepth : s.classify.logDepth = s.logDepth := rfl
@[simp] theorem State.classify_env : s.classify.env = s.env := rfl

/-! ### latch: latching writes CMDL and BUSY (R23) -/

@[simp] theorem State.latch_status (w : Word) : (s.latch w).status = { s.status with busy := true } := rfl
@[simp] theorem State.latch_cmdl (w : Word) : (s.latch w).cmdl = w := rfl
@[simp] theorem State.latch_ctrl (w : Word) : (s.latch w).ctrl = s.ctrl := rfl
@[simp] theorem State.latch_capLen (w : Word) : (s.latch w).capLen = s.capLen := rfl
@[simp] theorem State.latch_arg (w : Word) : (s.latch w).arg = s.arg := rfl
@[simp] theorem State.latch_expProto (w : Word) : (s.latch w).expProto = s.expProto := rfl
@[simp] theorem State.latch_csum (w : Word) : (s.latch w).csum = s.csum := rfl
@[simp] theorem State.latch_dec (w : Word) : (s.latch w).dec = s.dec := rfl
@[simp] theorem State.latch_enc (w : Word) : (s.latch w).enc = s.enc := rfl
@[simp] theorem State.latch_tx (w : Word) : (s.latch w).tx = s.tx := rfl
@[simp] theorem State.latch_th (w : Word) : (s.latch w).th = s.th := rfl
@[simp] theorem State.latch_ent (w : Word) : (s.latch w).ent = s.ent := rfl
@[simp] theorem State.latch_fstate (w : Word) : (s.latch w).fstate = s.fstate := rfl
@[simp] theorem State.latch_log (w : Word) : (s.latch w).log = s.log := rfl
@[simp] theorem State.latch_mem (w : Word) : (s.latch w).mem = s.mem := rfl
@[simp] theorem State.latch_faults (w : Word) : (s.latch w).faults = s.faults := rfl
@[simp] theorem State.latch_logDepth (w : Word) : (s.latch w).logDepth = s.logDepth := rfl
@[simp] theorem State.latch_env (w : Word) : (s.latch w).env = s.env := rfl

/-! ### takeInput: taking an input writes only the environment -/

@[simp] theorem State.takeInput_status : s.takeInput.status = s.status := rfl
@[simp] theorem State.takeInput_cmdl : s.takeInput.cmdl = s.cmdl := rfl
@[simp] theorem State.takeInput_ctrl : s.takeInput.ctrl = s.ctrl := rfl
@[simp] theorem State.takeInput_capLen : s.takeInput.capLen = s.capLen := rfl
@[simp] theorem State.takeInput_arg : s.takeInput.arg = s.arg := rfl
@[simp] theorem State.takeInput_expProto : s.takeInput.expProto = s.expProto := rfl
@[simp] theorem State.takeInput_csum : s.takeInput.csum = s.csum := rfl
@[simp] theorem State.takeInput_dec : s.takeInput.dec = s.dec := rfl
@[simp] theorem State.takeInput_enc : s.takeInput.enc = s.enc := rfl
@[simp] theorem State.takeInput_tx : s.takeInput.tx = s.tx := rfl
@[simp] theorem State.takeInput_th : s.takeInput.th = s.th := rfl
@[simp] theorem State.takeInput_ent : s.takeInput.ent = s.ent := rfl
@[simp] theorem State.takeInput_fstate : s.takeInput.fstate = s.fstate := rfl
@[simp] theorem State.takeInput_log : s.takeInput.log = s.log := rfl
@[simp] theorem State.takeInput_mem : s.takeInput.mem = s.mem := rfl
@[simp] theorem State.takeInput_faults : s.takeInput.faults = s.faults := rfl
@[simp] theorem State.takeInput_logDepth : s.takeInput.logDepth = s.logDepth := rfl
@[simp] theorem State.takeInput_env : s.takeInput.env = { s.env with inputs := s.env.inputs.tail } := rfl

/-! ### observe: recording an exchange writes only the environment (R18) -/

@[simp] theorem State.observe_status (x : HostAccess) (r : Response) : (s.observe x r).status = s.status := rfl
@[simp] theorem State.observe_cmdl (x : HostAccess) (r : Response) : (s.observe x r).cmdl = s.cmdl := rfl
@[simp] theorem State.observe_ctrl (x : HostAccess) (r : Response) : (s.observe x r).ctrl = s.ctrl := rfl
@[simp] theorem State.observe_capLen (x : HostAccess) (r : Response) : (s.observe x r).capLen = s.capLen := rfl
@[simp] theorem State.observe_arg (x : HostAccess) (r : Response) : (s.observe x r).arg = s.arg := rfl
@[simp] theorem State.observe_expProto (x : HostAccess) (r : Response) : (s.observe x r).expProto = s.expProto := rfl
@[simp] theorem State.observe_csum (x : HostAccess) (r : Response) : (s.observe x r).csum = s.csum := rfl
@[simp] theorem State.observe_dec (x : HostAccess) (r : Response) : (s.observe x r).dec = s.dec := rfl
@[simp] theorem State.observe_enc (x : HostAccess) (r : Response) : (s.observe x r).enc = s.enc := rfl
@[simp] theorem State.observe_tx (x : HostAccess) (r : Response) : (s.observe x r).tx = s.tx := rfl
@[simp] theorem State.observe_th (x : HostAccess) (r : Response) : (s.observe x r).th = s.th := rfl
@[simp] theorem State.observe_ent (x : HostAccess) (r : Response) : (s.observe x r).ent = s.ent := rfl
@[simp] theorem State.observe_fstate (x : HostAccess) (r : Response) : (s.observe x r).fstate = s.fstate := rfl
@[simp] theorem State.observe_log (x : HostAccess) (r : Response) : (s.observe x r).log = s.log := rfl
@[simp] theorem State.observe_mem (x : HostAccess) (r : Response) : (s.observe x r).mem = s.mem := rfl
@[simp] theorem State.observe_faults (x : HostAccess) (r : Response) : (s.observe x r).faults = s.faults := rfl
@[simp] theorem State.observe_logDepth (x : HostAccess) (r : Response) : (s.observe x r).logDepth = s.logDepth := rfl
@[simp] theorem State.observe_env (x : HostAccess) (r : Response) :
    (s.observe x r).env = { s.env with seen := s.env.seen ++ [{ access := x, response := r }] } := rfl

/-! ### The spellings of these updates -/

@[simp] theorem State.done_eq (i : Instr) : s.done i = s.finish i.opcode .ok := rfl

@[simp] theorem State.raise_eq (i : Instr) (e : CmdError) : s.raise i e = s.finish i.opcode e := rfl

@[simp] theorem State.writeBuf_eq (b : Buf) (a : Nat) (bs : List Byte) :
    s.writeBuf b a bs = s.writeAt (bufBase b + a) bs := rfl

@[simp] theorem State.memWrite_eq (b : Buf) (a n v : Nat) :
    s.memWrite b a n v = s.writeAt (bufBase b + a) (beBytes n v) := rfl

/-- A buffer byte depends on the memory and on the number of the draw, and on nothing else. -/
theorem State.byteAt_congr {s t : State} (hm : s.mem = t.mem) (hr : s.env.resets = t.env.resets) (a : Nat) :
    s.byteAt a = t.byteAt a := by
  simp [State.byteAt, State.drawn, hm, hr]

/-- A run of buffer bytes depends on the same. -/
theorem State.bytesAt_congr {s t : State} (hm : s.mem = t.mem) (hr : s.env.resets = t.env.resets) (a n : Nat) :
    s.bytesAt a n = t.bytesAt a n := by
  have : s.drawn = t.drawn := by funext k; simp [State.drawn, hr]
  simp [State.bytesAt, hm, this]

end Sys2Proof.Machine
end

