-- ==== Sys2Proof/Laws/Ops.lean ====
section
/-! SUPPORT. For each shared operation, what it can do, said once. -/

namespace Sys2Proof.Machine

open Sys2Proof

/-! ### Bytes and values -/

@[simp] theorem length_beBytes (n v : Nat) : (beBytes n v).length = n := by
  induction n with
  | zero => rfl
  | succ n ih => simp [beBytes, ih]

/-- The two bytes of a 16-bit value, high first (R12). -/
theorem beBytes_two (v : Nat) : beBytes 2 v = [BitVec.ofNat 8 (v / 256), BitVec.ofNat 8 v] := by
  simp [beBytes]

theorem beValue_append (as bs : List Byte) : beValue (as ++ bs) = beValue as * 256 ^ bs.length + beValue bs := by
  have key : ∀ (l : List Byte) (v : Nat),
      l.foldl (fun v b => v * 256 + b.toNat) v = v * 256 ^ l.length + l.foldl (fun v b => v * 256 + b.toNat) 0 := by
    intro l
    induction l with
    | nil => simp
    | cons b l ih =>
      intro v
      rw [List.foldl_cons, List.foldl_cons, ih, ih (0 * 256 + b.toNat), List.length_cons, Nat.pow_succ]
      ring
  unfold beValue
  rw [List.foldl_append, key]

/-- The value of one byte. -/
@[simp] theorem beValue_singleton (b : Byte) : beValue [b] = b.toNat := by simp [beValue]

/-- The value of two bytes (R12). -/
theorem beValue_pair (a b : Byte) : beValue [a, b] = a.toNat * 256 + b.toNat := by simp [beValue]

/-- MemRead of what MemWrite of two bytes stored (R12). -/
theorem beValue_beBytes_two (v : Nat) (h : v < 65536) : beValue (beBytes 2 v) = v := by
  rw [beBytes_two, beValue_pair]
  simp only [BitVec.toNat_ofNat]
  omega

/-! ### The checksum -/

theorem addBytes_append (t : Word × Bool) (as bs : List Byte) :
    addBytes t (as ++ bs) = addBytes (addBytes t as) bs := List.foldl_append

@[simp] theorem addBytes_nil (t : Word × Bool) : addBytes t [] = t := rfl

@[simp] theorem addBytes_cons (t : Word × Bool) (b : Byte) (bs : List Byte) :
    addBytes t (b :: bs) = addBytes (addByte t b) bs := rfl

/-- Adding a byte as the high byte of a word (R130). -/
theorem addByte_high (acc : Word) (b : Byte) : addByte (acc, false) b = (acc + b.setWidth 32 <<< 8, true) := rfl

/-- Adding a byte as the low byte of a word (R130). -/
theorem addByte_low (acc : Word) (b : Byte) : addByte (acc, true) b = (acc + b.setWidth 32, false) := rfl

/-! ### Decoding a frame -/

/-- The three outcomes of DecodeFrame (R151): one lemma for every user. -/
theorem State.decodeFrame_cases (s : State) :
    (s.frameTruncated = true ∧ s.decodeFrame = { Dec.cleared with ihl := s.frameIhl, dres := .truncated }) ∨
    (s.frameTruncated = false ∧ s.frameWrongProto = true ∧
      s.decodeFrame = { Dec.cleared with ihl := s.frameIhl, proto := s.rx Config.protoOff, dres := .wrongProto }) ∨
    (s.frameTruncated = false ∧ s.frameWrongProto = false ∧ s.decodeFrame = s.decodeInner) := by
  unfold State.decodeFrame
  cases h1 : s.frameTruncated <;> cases h2 : s.frameWrongProto <;> simp

/-- What a frame that is not truncated has (R153): a header of 20 to 60 bytes and room for the inner header. -/
theorem State.bounds_of_not_truncated {s : State} (h : s.frameTruncated = false) :
    20 ≤ s.frameHlen ∧ s.frameHlen ≤ 60 ∧ s.frameHlen + 8 ≤ s.capLen.toNat := by
  have h4 : s.frameIhl.toNat < 16 := s.frameIhl.isLt
  have h1 : 20 ≤ s.frameHlen ∧ s.frameHlen + 8 ≤ s.capLen.toNat := by simpa [State.frameTruncated] using h
  have h2 : s.frameHlen = 4 * s.frameIhl.toNat := rfl
  omega

/-! ### Encoding a frame -/

/-- EncodeFrame writes TXBUF and TX_INFO and nothing else (R165, R168). -/
theorem State.encodeFrame_frame (s : State) (typ code : Byte) (id seq : Half) (plen flen : Nat) :
    s.encodeFrame typ code id seq plen flen =
      { s with
        mem := (s.encodeFrame typ code id seq plen flen).mem
        tx := { s.tx with
          len := BitVec.ofNat 16 flen
          csum := (s.encodeFrame typ code id seq plen flen).tx.csum } } := rfl

@[simp] theorem length_echoHeader (typ code : Byte) (id seq : Half) : (echoHeader typ code id seq).length = 8 := by
  simp [echoHeader]

/-- The bytes of TXBUF once a frame is laid: header, payload as it was, pad, and the rest as it was (R164, R165). -/
theorem State.layFrame_txByte (s : State) (typ code : Byte) (id seq : Half) (plen flen j : Nat) :
    (s.layFrame typ code id seq plen flen).bufByte .tx j =
      if j < 8 then (echoHeader typ code id seq).getD j 0
      else if 8 + plen ≤ j ∧ j < flen then Config.padByte
      else s.bufByte .tx j := by
  simp only [State.layFrame, State.writeBuf_eq, State.bufByte, State.byteAt_writeAt, List.length_replicate,
    length_echoHeader, Config.innerHdr, Nat.add_zero]
  by_cases h1 : j < 8
  · have hl : j < (echoHeader typ code id seq).length := by rwa [length_echoHeader]
    rw [dif_neg (by omega), dif_pos (by omega), if_pos h1, List.getD_eq_getElem _ _ hl]
    simp
  · rw [if_neg h1]
    by_cases h2 : 8 + plen ≤ j ∧ j < flen
    · rw [dif_pos (by omega), if_pos h2, List.getElem_replicate]
    · rw [dif_neg (by omega), dif_neg (by omega), if_neg h2]

/-- Laying a frame leaves RXBUF alone (R85). -/
theorem State.layFrame_below (s : State) (typ code : Byte) (id seq : Half) (plen flen : Nat) {k : Nat}
    (h : k < Config.txBase) : (s.layFrame typ code id seq plen flen).byteAt k = s.byteAt k := by
  simp only [State.layFrame, State.writeBuf_eq, bufBase]
  rw [State.byteAt_writeAt_outside _ (.inl (by omega)), State.byteAt_writeAt_outside _ (.inl (by omega))]

/-- A byte of a buffer's run. -/
theorem State.getElem_bufBytes (s : State) (b : Buf) (a n i : Nat) (h : i < (s.bufBytes b a n).length) :
    (s.bufBytes b a n)[i] = s.bufByte b (a + i) := by
  simp only [State.bufBytes, State.bufByte, State.getElem_bytesAt, Nat.add_assoc]

/-- The laid frame as one byte string: header, payload, pad (R164). -/
theorem State.layFrame_bytes (s : State) (typ code : Byte) (id seq : Half) (plen flen : Nat) (h : 8 + plen ≤ flen) :
    (s.layFrame typ code id seq plen flen).bufBytes .tx 0 flen =
      echoHeader typ code id seq ++ (s.bufBytes .tx 8 plen ++ List.replicate (flen - (8 + plen)) Config.padByte) := by
  refine List.ext_getElem (by simp; omega) fun i h1 h2 => ?_
  rw [State.getElem_bufBytes, Nat.zero_add, State.layFrame_txByte]
  simp only [State.length_bufBytes] at h1
  by_cases c1 : i < 8
  · have hl : i < (echoHeader typ code id seq).length := by rwa [length_echoHeader]
    rw [if_pos c1, List.getElem_append_left hl, List.getD_eq_getElem _ _ hl]
  · rw [if_neg c1, List.getElem_append_right (by simpa using Nat.not_lt.mp c1)]
    simp only [length_echoHeader]
    by_cases c2 : i < 8 + plen
    · rw [if_neg (by omega), List.getElem_append_left (by simp; omega), State.getElem_bufBytes]
      congr 1
      omega
    · rw [if_pos (by omega), List.getElem_append_right (by simp; omega), List.getElem_replicate]

/-- The checksum EncodeFrame reports: that of the whole frame with a zero checksum field (R164). -/
theorem State.encodeFrame_csum (s : State) (typ code : Byte) (id seq : Half) (plen flen : Nat) (h : 8 + plen ≤ flen) :
    (s.encodeFrame typ code id seq plen flen).tx.csum =
      checksum (echoHeader typ code id seq ++
        (s.bufBytes .tx 8 plen ++ List.replicate (flen - (8 + plen)) Config.padByte)) := by
  rw [← s.layFrame_bytes typ code id seq plen flen h]
  rfl

/-- The bytes of TXBUF after EncodeFrame: the laid frame with the checksum in bytes 2 and 3 (R164, R165). -/
theorem State.encodeFrame_txByte (s : State) (typ code : Byte) (id seq : Half) (plen flen j : Nat) :
    (s.encodeFrame typ code id seq plen flen).bufByte .tx j =
      if j = 2 then BitVec.ofNat 8 ((s.encodeFrame typ code id seq plen flen).tx.csum.toNat / 256)
      else if j = 3 then BitVec.ofNat 8 (s.encodeFrame typ code id seq plen flen).tx.csum.toNat
      else (s.layFrame typ code id seq plen flen).bufByte .tx j := by
  have e : (s.encodeFrame typ code id seq plen flen).bufByte .tx j =
      ((s.layFrame typ code id seq plen flen).writeAt (bufBase .tx + 2)
        (beBytes 2 (s.encodeFrame typ code id seq plen flen).tx.csum.toNat)).byteAt (bufBase .tx + j) := rfl
  rw [e, State.byteAt_writeAt]
  simp only [length_beBytes]
  by_cases h : j = 2 ∨ j = 3
  · rw [dif_pos (by omega)]
    rcases h with rfl | rfl <;> simp [beBytes_two]
  · rw [dif_neg (by omega), if_neg (by omega), if_neg (by omega)]
    rfl

/-- EncodeFrame leaves RXBUF alone (R85). -/
theorem State.encodeFrame_below (s : State) (typ code : Byte) (id seq : Half) (plen flen : Nat) {k : Nat}
    (h : k < Config.txBase) : (s.encodeFrame typ code id seq plen flen).byteAt k = s.byteAt k := by
  have e : (s.encodeFrame typ code id seq plen flen).byteAt k =
      ((s.layFrame typ code id seq plen flen).writeAt (bufBase .tx + 2)
        (beBytes 2 (s.encodeFrame typ code id seq plen flen).tx.csum.toNat)).byteAt k := rfl
  rw [e, State.byteAt_writeAt_outside _ (.inl (by simp only [bufBase]; omega)), State.layFrame_below _ _ _ _ _ _ _ h]

theorem State.layFrame_mem (s : State) (typ code : Byte) (id seq : Half) (plen flen : Nat) :
    (s.layFrame typ code id seq plen flen).mem =
      Memory.write (Memory.write s.mem (bufBase .tx + 0) (echoHeader typ code id seq))
        (bufBase .tx + (Config.innerHdr + plen))
        (List.replicate (flen - (Config.innerHdr + plen)) Config.padByte) := rfl

theorem State.sealFrame_mem (s : State) (flen : Nat) :
    (s.sealFrame flen).mem =
      Memory.write s.mem (bufBase .tx + 2) (beBytes 2 (checksum (s.bufBytes .tx 0 flen)).toNat) := rfl

/-- EncodeFrame keeps the canonical form (R85: it stays inside TXBUF). -/
theorem State.encodeFrame_wf {s : State} (h : s.mem.wf) (typ code : Byte) (id seq : Half) {plen flen : Nat}
    (hf : flen ≤ 65536) (hp : 8 + plen ≤ 65536) : (s.encodeFrame typ code id seq plen flen).mem.wf := by
  rw [State.encodeFrame, State.sealFrame_mem, State.layFrame_mem]
  refine Memory.wf_write (Memory.wf_write (Memory.wf_write h ?_) ?_) ?_
  · rw [length_echoHeader]
    decide
  · rw [List.length_replicate]
    simp only [bufBase, Config.txBase, Config.regBase, Config.innerHdr]
    omega
  · rw [length_beBytes]
    decide

/-! ### The reply -/

/-- EncodeFrame, with the two values it computes named. -/
theorem State.encodeFrame_exists (s : State) (typ code : Byte) (id seq : Half) (plen flen : Nat) :
    ∃ m c, s.encodeFrame typ code id seq plen flen =
      { s with mem := m, tx := { s.tx with len := BitVec.ofNat 16 flen, csum := c } } :=
  ⟨_, _, s.encodeFrame_frame typ code id seq plen flen⟩

/-- BuildReply writes TXBUF, TX_INFO and TX_DST and nothing else (R217). -/
theorem State.buildReply_frame (s : State) :
    s.buildReply = { s with
      mem := s.buildReply.mem
      tx := { len := BitVec.ofNat 16 (8 + s.dec.len.toNat), csum := s.buildReply.tx.csum, dst := s.dec.src } } := by
  obtain ⟨m, c, e⟩ := (s.writeBuf .tx Config.innerHdr s.payload).encodeFrame_exists 0 0 s.dec.id s.dec.seq
    s.dec.len.toNat (8 + s.dec.len.toNat)
  have h : s.buildReply = { s with
      mem := m
      tx := { len := BitVec.ofNat 16 (8 + s.dec.len.toNat), csum := c, dst := s.dec.src } } := by
    simp only [State.buildReply, e]
    rfl
  rw [h]

/-- The memory BuildReply leaves: the payload copied to offset 8, then EncodeFrame (R217). -/
theorem State.buildReply_mem (s : State) :
    s.buildReply.mem = ((s.writeBuf .tx Config.innerHdr s.payload).encodeFrame 0 0 s.dec.id s.dec.seq
      s.dec.len.toNat (Config.innerHdr + s.dec.len.toNat)).mem := rfl

/-- BuildReply keeps the canonical form while its frame fits TXBUF (R85, R217). -/
theorem State.buildReply_wf {s : State} (h : s.mem.wf) (hl : 8 + s.dec.len.toNat ≤ 65536) : s.buildReply.mem.wf := by
  rw [State.buildReply_mem]
  refine State.encodeFrame_wf ?_ 0 0 s.dec.id s.dec.seq hl hl
  rw [State.writeBuf_eq, State.writeAt_mem]
  refine Memory.wf_write h ?_
  simp only [bufBase, Config.txBase, Config.innerHdr, Config.regBase, State.payload, State.length_bufBytes]
  omega

/-! ### Ends and transitions of PROCESS -/

/-- A dropped frame changes FSTATE, and LOG when LOG_MALFORMED is set (R212). -/
theorem State.dropFrame_eq (s : State) :
    s.dropFrame = { s with
      fstate := .dropped
      log := if s.ctrl.logMalformed then s.log ++ [s.dropRecord] else s.log } := by
  unfold State.dropFrame
  cases s.ctrl.logMalformed <;> rfl

/-- The four ends of the machine after classification (R223): one lemma for every user. -/
theorem State.filterVerdict_cases (s : State) :
    (s.ctrl.mode = .observe ∧
      s.filterVerdict = { s with fstate := .classified, log := s.log ++ [s.observeRecord] }) ∨
    (s.ctrl.mode ≠ .observe ∧ s.ent.verdict ≠ .benign ∧
      s.filterVerdict = { s with fstate := .blocked, log := s.log ++ [s.blockRecord] }) ∨
    (s.ctrl.mode = .passive ∧ s.ent.verdict = .benign ∧
      s.filterVerdict = { s with fstate := .passed, log := s.log ++ [s.passRecord] }) ∨
    (s.ctrl.mode = .active ∧ s.ent.verdict = .benign ∧
      s.filterVerdict = { s.buildReply with fstate := .replied, log := s.log ++ [s.passRecord] }) := by
  unfold State.filterVerdict
  by_cases h1 : s.ctrl.mode = .observe
  · exact .inl ⟨h1, by rw [if_pos h1]; rfl⟩
  · rw [if_neg h1]
    by_cases h2 : s.ent.verdict ≠ .benign
    · exact .inr (.inl ⟨h1, h2, by rw [if_pos h2]; rfl⟩)
    · rw [if_neg h2]
      have h2' : s.ent.verdict = .benign := not_not.mp h2
      by_cases h3 : s.ctrl.mode = .passive
      · exact .inr (.inr (.inl ⟨h3, h2', by rw [if_pos h3]; rfl⟩))
      · refine .inr (.inr (.inr ⟨?_, h2', by rw [if_neg h3]; rfl⟩))
        cases h : s.ctrl.mode <;> simp_all

/-- The entropy unit after PROCESS classified its payload (R213). -/
theorem State.classifyFrame_eq (s : State) :
    s.classifyFrame = { s with ent := s.classifyFrame.ent } := rfl

@[simp] theorem State.length_payload (s : State) : s.payload.length = s.dec.len.toNat := by simp [State.payload]

/-- The payload depends on DEC_* and RXBUF alone (R213). -/
theorem State.payload_congr {s t : State} (hd : s.dec = t.dec) (hm : s.mem = t.mem)
    (hr : s.env.resets = t.env.resets) : s.payload = t.payload := by
  rw [State.payload, State.payload, State.bufBytes, State.bufBytes, State.bytesAt_congr hm hr, hd]

/-- The trimming depends on DEC_* and RXBUF alone (R218). -/
theorem State.trim_congr {s t : State} (hd : s.dec = t.dec) (hm : s.mem = t.mem)
    (hr : s.env.resets = t.env.resets) : s.trim = t.trim := by
  simp only [State.trim, State.payload_congr hd hm hr, hd]

end Sys2Proof.Machine
end

