-- ==== Sys2Proof/Laws/Entropy.lean ====
section
/-! SUPPORT. The laws of the histogram: what one byte does to one counter and to the sum, and the coherence of the decode
registers (42_entropy.md R185, R188; 41_codec.md R151). -/

namespace Sys2Proof.Machine

open Sys2Proof

/-- The cleared unit counts nothing (R184). -/
theorem Ent.cleared_count : Ent.cleared.n.toNat = (counts Ent.cleared.hist).sum := by
  rw [counts, Ent.cleared, Vector.toList_replicate, List.map_replicate, List.sum_replicate]
  rfl

/-- Counting a byte raises its counter and no other (R185). -/
theorem getElem_bump (h : Vector Half 256) (b : Byte) (v : Nat) (hv : v < 256) :
    (bump h b)[v] = if b.toNat = v then h[v] + 1 else h[v] := by
  simp only [bump, Vector.getElem_set]
  split
  · subst_vars
    rfl
  · rfl

/-- Counting bytes raises each counter by the number of its bytes, modulo 2^16 (R186). -/
theorem getElem_bumpAll (h : Vector Half 256) (bs : List Byte) (v : Nat) (hv : v < 256) :
    (bumpAll h bs)[v] = h[v] + BitVec.ofNat 16 (bs.countP fun b => b.toNat == v) := by
  induction bs generalizing h with
  | nil => simp [bumpAll]
  | cons b bs ih =>
    rw [show bumpAll h (b :: bs) = bumpAll (bump h b) bs from rfl, ih, getElem_bump, List.countP_cons]
    by_cases e : b.toNat = v
    · rw [if_pos e]
      apply BitVec.eq_of_toNat_eq
      simp [e]
      omega
    · simp [e]

/-- No counter exceeds the sum (R188). -/
theorem counter_le_sum (h : Vector Half 256) (v : Nat) (hv : v < 256) : h[v].toNat ≤ (counts h).sum :=
  List.le_sum_of_mem (List.mem_map.mpr ⟨_, Vector.mem_toList_iff.mpr (Vector.getElem_mem hv), rfl⟩)

/-- Counting a byte raises the sum by one while it stays in 16 bits (R188). -/
theorem sum_counts_bump (h : Vector Half 256) (b : Byte) (hs : (counts h).sum + 1 ≤ 0xFFFF) :
    (counts (bump h b)).sum = (counts h).sum + 1 := by
  have hb : b.toNat < 256 := b.isLt
  have le := counter_le_sum h b.toNat hb
  have e : counts (bump h b) = (counts h).set b.toNat (h[b.toNat].toNat + 1) := by
    simp only [counts, bump, Vector.toList_set, List.map_set]
    congr 1
    rw [BitVec.toNat_add]
    simp
    omega
  have hl : b.toNat < (counts h).length := by simpa [counts] using hb
  have hg : (counts h)[b.toNat] = h[b.toNat].toNat := by simp [counts]
  have sp := List.sum_take_add_sum_drop (counts h) b.toNat
  rw [List.drop_eq_getElem_cons hl, List.sum_cons, hg] at sp
  rw [e, List.sum_set, if_pos hl]
  omega

/-- Counting bytes raises the sum by their number while it stays in 16 bits (R188). -/
theorem sum_counts_bumpAll (bs : List Byte) (h : Vector Half 256) (hs : (counts h).sum + bs.length ≤ 0xFFFF) :
    (counts (bumpAll h bs)).sum = (counts h).sum + bs.length := by
  induction bs generalizing h with
  | nil => rfl
  | cons b bs ih =>
    rw [List.length_cons] at hs
    have := sum_counts_bump h b (by omega)
    rw [show bumpAll h (b :: bs) = bumpAll (bump h b) bs from rfl, ih _ (by omega), this, List.length_cons]
    omega

end Sys2Proof.Machine
end

