-- ==== Sys2Proof/Laws/Exec.lean ====
section
/-! SUPPORT. What each command with a check can do, said once: the ends of CSUM.BUF, ENCODE, ENT.BYTE, ENT.BUF, PROCESS and
LOG.POP with the condition that leads to each. Every other command has one end, by unfolding. -/

namespace Sys2Proof.Machine

open Sys2Proof

/-- CSUM.BUF: the range is added, or RANGE (R136). -/
theorem execCsumBuf_cases (b : Buf) (s : State) :
    (s.arg.off.toNat + s.arg.len.toNat ≤ 65536 ∧
      execCsumBuf b s = .next ((s.accumulate (s.argBytes b)).finish 0x04 .ok)) ∨
    (65536 < s.arg.off.toNat + s.arg.len.toNat ∧ execCsumBuf b s = .next (s.finish 0x04 .range)) := by
  rcases Nat.lt_or_ge 65536 (s.arg.off.toNat + s.arg.len.toNat) with h | h
  · exact .inr ⟨h, if_neg (by simpa [State.argInRange] using h)⟩
  · exact .inl ⟨h, if_pos (by simpa [State.argInRange] using h)⟩

/-- ENCODE's two checks (R163, R166). -/
theorem State.encodeTooLarge_iff (s : State) : s.encodeTooLarge = true ↔
    0xFFFF < 8 + s.enc.plen.toNat ∨ (s.enc.fsize ≠ 0 ∧ s.enc.fsize.toNat < 8 + s.enc.plen.toNat) := by
  simp only [State.encodeTooLarge, Config.innerHdr, Bool.or_eq_true, Bool.and_eq_true, decide_eq_true_eq, bne_iff_ne]

/-- ENCODE: the frame is built, or ENC_TOO_LARGE (R163). -/
theorem execEncode_cases (s : State) :
    (s.encodeTooLarge = true ∧ execEncode s = .next (s.finish 0x11 .encTooLarge)) ∨
    (s.encodeTooLarge = false ∧ execEncode s = .next
      ((s.encodeFrame s.enc.typ s.enc.code s.enc.id s.enc.seq s.enc.plen.toNat s.encodeFlen).finish 0x11 .ok)) := by
  cases h : s.encodeTooLarge
  · exact .inr ⟨rfl, if_neg (by simp [h])⟩
  · exact .inl ⟨rfl, if_pos h⟩

/-- ENT.BYTE: the byte is counted, or ENT_FULL (R185). -/
theorem execEntByte_cases (b : Byte) (s : State) :
    (s.ent.n.toNat + 1 ≤ 0xFFFF ∧ execEntByte b s = .next ((s.count [b]).finish 0x21 .ok)) ∨
    (0xFFFF < s.ent.n.toNat + 1 ∧ execEntByte b s = .next (s.finish 0x21 .entFull)) := by
  rcases Nat.lt_or_ge 0xFFFF (s.ent.n.toNat + 1) with h | h
  · exact .inr ⟨h, if_neg (by simpa [State.entFits] using h)⟩
  · exact .inl ⟨h, if_pos (by simpa [State.entFits] using h)⟩

/-- ENT.BUF: the range is counted, or RANGE, or ENT_FULL (R186, R254). -/
theorem execEntBuf_cases (b : Buf) (s : State) :
    (s.arg.off.toNat + s.arg.len.toNat ≤ 65536 ∧ s.ent.n.toNat + s.arg.len.toNat ≤ 0xFFFF ∧
      execEntBuf b s = .next ((s.count (s.argBytes b)).finish 0x22 .ok)) ∨
    (65536 < s.arg.off.toNat + s.arg.len.toNat ∧ execEntBuf b s = .next (s.finish 0x22 .range)) ∨
    (s.arg.off.toNat + s.arg.len.toNat ≤ 65536 ∧ 0xFFFF < s.ent.n.toNat + s.arg.len.toNat ∧
      execEntBuf b s = .next (s.finish 0x22 .entFull)) := by
  unfold execEntBuf
  rcases Nat.lt_or_ge 65536 (s.arg.off.toNat + s.arg.len.toNat) with h | h
  · exact .inr (.inl ⟨h, if_pos (by simpa [State.argInRange] using h)⟩)
  · rw [if_neg (by simpa [State.argInRange] using h)]
    rcases Nat.lt_or_ge 0xFFFF (s.ent.n.toNat + s.arg.len.toNat) with h2 | h2
    · exact .inr (.inr ⟨h, h2, if_pos (by simpa [State.entFits] using h2)⟩)
    · exact .inl ⟨h, h2, if_neg (by simpa [State.entFits] using h2)⟩

/-- PROCESS: LOG_FULL, or a frame dropped by the decode, or a classified frame (R210-R213). -/
theorem execProcess_cases (s : State) :
    (s.log.length = s.logDepth.toNat ∧ execProcess s = .next (s.finish 0x30 .logFull)) ∨
    (s.log.length ≠ s.logDepth.toNat ∧ s.decodeFrame.dres ≠ .ok ∧
      execProcess s = .next (({ s with dec := s.decodeFrame } : State).dropFrame.finish 0x30 .ok)) ∨
    (s.log.length ≠ s.logDepth.toNat ∧ s.decodeFrame.dres = .ok ∧
      execProcess s = .next (({ s with dec := s.decodeFrame } : State).classifyFrame.filterVerdict.finish 0x30 .ok)) := by
  unfold execProcess
  by_cases h : s.log.length = s.logDepth.toNat
  · exact .inl ⟨h, if_pos (by simpa [State.logIsFull] using h)⟩
  · rw [if_neg (by simpa [State.logIsFull] using h)]
    by_cases hd : s.decodeFrame.dres = .ok
    · exact .inr (.inr ⟨h, hd, if_neg (not_not.mpr hd)⟩)
    · exact .inr (.inl ⟨h, hd, if_pos hd⟩)

/-- LOG.POP: the head is removed, or LOG_EMPTY (R222). -/
theorem execLogPop_cases (s : State) :
    (s.log ≠ [] ∧ execLogPop s = .next (s.popLog.finish 0x31 .ok)) ∨
    (s.log = [] ∧ execLogPop s = .next (s.finish 0x31 .logEmpty)) := by
  by_cases h : s.log = []
  · exact .inr ⟨h, if_pos (by simpa using h)⟩
  · exact .inl ⟨h, if_neg (by simpa using h)⟩

end Sys2Proof.Machine
end

