-- ==== Sys2Proof/Laws/Words.lean ====
section
/-! SUPPORT. The 32-bit words software sees, as naturals: each field times its weight (00_scope.md R10). A proof about a
field reads it off such a sum. -/

namespace Sys2Proof

/-- `{x, y}` as a natural (R10). -/
theorem toNat_append_eq {n m : Nat} (x : BitVec n) (y : BitVec m) :
    (x ++ y).toNat = x.toNat * 2 ^ m + y.toNat := by
  rw [BitVec.toNat_append, ← Nat.shiftLeft_add_eq_or_of_lt y.isLt, Nat.shiftLeft_eq]

/-- Equal naturals below `2^n` are equal words. -/
theorem eq_of_toNat {n : Nat} {x y : BitVec n} (h : x.toNat = y.toNat) : x = y := BitVec.eq_of_toNat_eq h

/-- `v[lo+len-1 : lo]` as a natural (R10). -/
theorem toNat_slice {n : Nat} (v : BitVec n) (lo len : Nat) :
    (v.extractLsb' lo len).toNat = v.toNat / 2 ^ lo % 2 ^ len := by
  rw [BitVec.extractLsb'_toNat, Nat.shiftRight_eq_div_pow]

/-- `v[i]` as a natural (R10). -/
theorem toNat_bit {n : Nat} (v : BitVec n) (i : Nat) : (v.getLsbD i).toNat = v.toNat / 2 ^ i % 2 := by
  rw [BitVec.getLsbD, Nat.testBit, Nat.shiftRight_eq_div_pow, Nat.and_comm, Nat.and_one_is_mod]
  rcases Nat.mod_two_eq_zero_or_one (v.toNat / 2 ^ i) with h | h <;> simp [h]

theorem CmdFields.toNat_toWord (f : CmdFields) :
    f.toWord.toNat = f.imm.toNat * 65536 + (f.rsv.toNat * 512 + (f.bsel.toNat * 256 + f.op.toNat)) := by
  obtain ⟨op, bsel, rsv, imm⟩ := f
  have h1 := toNat_append_eq (BitVec.ofBool bsel) op
  have h2 := toNat_append_eq rsv (BitVec.ofBool bsel ++ op)
  have h3 := toNat_append_eq imm (rsv ++ (BitVec.ofBool bsel ++ op))
  refine h3.trans ?_
  rw [h2, h1, BitVec.toNat_ofBool]
  simp only [Nat.reduceAdd, Nat.reducePow]

/-- Splitting a word into fields undoes joining them (R101, R111). -/
theorem CmdFields.ofWord_toWord (f : CmdFields) : CmdFields.ofWord f.toWord = f := by
  have h := f.toNat_toWord
  obtain ⟨op, bsel, rsv, imm⟩ := f
  have hb : bsel.toNat ≤ 1 := Bool.toNat_le bsel
  simp only at h
  simp only [CmdFields.ofWord, CmdFields.mk.injEq]
  refine ⟨eq_of_toNat ?_, ?_, eq_of_toNat ?_, eq_of_toNat ?_⟩
  · rw [toNat_slice, h]
    have := op.isLt
    omega
  · have e := toNat_bit (CmdFields.toWord ⟨op, bsel, rsv, imm⟩) 8
    rw [h] at e
    have := op.isLt
    have e2 : ((CmdFields.toWord ⟨op, bsel, rsv, imm⟩).getLsbD 8).toNat = bsel.toNat := e.trans (by omega)
    revert e2
    generalize (CmdFields.toWord ⟨op, bsel, rsv, imm⟩).getLsbD 8 = c
    cases c <;> cases bsel <;> simp
  · rw [toNat_slice, h]
    have := op.isLt
    have := rsv.isLt
    omega
  · rw [toNat_slice, h]
    have := op.isLt
    have := rsv.isLt
    have := imm.isLt
    omega

/-- Joining the fields of a word gives the word (R101). -/
theorem CmdFields.toWord_ofWord (w : Word) : (CmdFields.ofWord w).toWord = w := by
  refine eq_of_toNat ?_
  have h1 := toNat_slice w 0 8
  have h2 := toNat_bit w 8
  have h3 := toNat_slice w 9 7
  have h4 := toNat_slice w 16 16
  have := w.isLt
  rw [CmdFields.toNat_toWord]
  simp only [CmdFields.ofWord, h1, h2, h3, h4]
  omega

namespace Machine

@[simp] theorem toNat_singleBit (b : Bool) : (bit b).toNat = b.toNat := BitVec.toNat_ofBool b

theorem toNat_halves (hi lo : Half) : (halves hi lo).toNat = hi.toNat * 65536 + lo.toNat := toNat_append_eq hi lo

theorem toNat_lowHalf (lo : Half) : (lowHalf lo).toNat = lo.toNat := by
  rw [lowHalf, toNat_halves]
  simp

/-- `STATUS` (R22): BUSY in bit 0, ERR in 7:4, LAST_OP in 15:8. -/
theorem State.toNat_statusWord (s : State) : s.statusWord.toNat =
    s.status.lastOp.toNat * 256 + (s.status.err.toBits.toNat * 16 + s.status.busy.toNat) := by
  have h1 := toNat_append_eq (0 : BitVec 3) (bit s.status.busy)
  have h2 := toNat_append_eq s.status.err.toBits ((0 : BitVec 3) ++ bit s.status.busy)
  have h3 := toNat_append_eq s.status.lastOp (s.status.err.toBits ++ ((0 : BitVec 3) ++ bit s.status.busy))
  refine (toNat_append_eq (0 : BitVec 16) _).trans ?_
  rw [h3, h2, h1, toNat_singleBit]
  simp

/-- `CTRL` (R24): CSUM_VERIFY in bit 0, MODE in 2:1, LOG_MALFORMED in bit 3. -/
theorem State.toNat_ctrlWord (s : State) : s.ctrlWord.toNat =
    s.ctrl.logMalformed.toNat * 8 + (s.ctrl.mode.toBits.toNat * 2 + s.ctrl.csumVerify.toNat) := by
  have h2 := toNat_append_eq s.ctrl.mode.toBits (bit s.ctrl.csumVerify)
  have h3 := toNat_append_eq (bit s.ctrl.logMalformed) (s.ctrl.mode.toBits ++ bit s.ctrl.csumVerify)
  refine (toNat_append_eq (0 : BitVec 28) _).trans ?_
  rw [h3, h2, toNat_singleBit, toNat_singleBit]
  simp

/-- W0 of a log record (R220). -/
theorem toNat_recordHead (kind : BitVec 4) (verdict : Verdict) (csumBad : Bool) (dres : DecodeResult) (score : Half) :
    (recordHead kind verdict csumBad dres score).toNat = score.toNat * 65536 + (dres.toBits.toNat * 256 +
      (csumBad.toNat * 64 + (verdict.toBits.toNat * 16 + kind.toNat))) := by
  have h1 := toNat_append_eq verdict.toBits kind
  have h2 := toNat_append_eq (bit csumBad) (verdict.toBits ++ kind)
  have h3 := toNat_append_eq (0 : BitVec 1) (bit csumBad ++ (verdict.toBits ++ kind))
  have h4 := toNat_append_eq dres.toBits ((0 : BitVec 1) ++ (bit csumBad ++ (verdict.toBits ++ kind)))
  have h5 := toNat_append_eq (0 : BitVec 6) (dres.toBits ++ ((0 : BitVec 1) ++ (bit csumBad ++ (verdict.toBits ++ kind))))
  refine (toNat_append_eq score _).trans ?_
  rw [h5, h4, h3, h2, h1, toNat_singleBit]
  simp

end Machine

end Sys2Proof
end

