-- ==== Sys2Proof/Laws/PerInstr.lean ====
section
/-! SUPPORT. The per-instruction family: every command's word has well-formed fields and carries the command's own OP byte
(30_encoding.md R101, R105, R111). -/

namespace Sys2Proof

namespace Laws.EncodedFields

/-- The fields of the command's word are well-formed and name its opcode. -/
def Statement (i : Instr) : Prop :=
  (CmdFields.ofWord (encodeInstr i)).wellFormed = true ∧ (CmdFields.ofWord (encodeInstr i)).op = i.opcode

theorem of_fields {i : Instr} (h : i.fields.wellFormed = true) : Statement i := by
  simp only [Statement, encodeInstr, CmdFields.ofWord_toWord]
  exact ⟨h, rfl⟩

theorem setWidth_high (b : Byte) : (b.setWidth 16).extractLsb' 8 8 = 0#8 := by
  ext i hi
  simp

theorem nop : Statement .nop := of_fields (by decide)
theorem csumClr : Statement .csumClr := of_fields (by decide)
theorem csumByte (b : Byte) : Statement (.csumByte b) := of_fields (by
  simp [CmdFields.wellFormed, CmdFields.opOk, CmdFields.rsvOk, CmdFields.bselOk, CmdFields.immOk, CmdFields.immHighOk,
    CmdFields.assignedOps, CmdFields.bselOps, CmdFields.imm8Ops, Instr.fields, Instr.opcode, Instr.bsel, Instr.imm,
    setWidth_high])
theorem csumWord (h : Half) : Statement (.csumWord h) := of_fields (by
  simp [CmdFields.wellFormed, CmdFields.opOk, CmdFields.rsvOk, CmdFields.bselOk, CmdFields.immOk, CmdFields.immHighOk,
    CmdFields.assignedOps, CmdFields.imm16Ops, CmdFields.imm8Ops, Instr.fields, Instr.opcode, Instr.bsel, Instr.imm])
theorem csumBuf (b : Buf) : Statement (.csumBuf b) := of_fields (by cases b <;> decide)
theorem csumFin : Statement .csumFin := of_fields (by decide)
theorem decode : Statement .decode := of_fields (by decide)
theorem encode : Statement .encode := of_fields (by decide)
theorem entClr : Statement .entClr := of_fields (by decide)
theorem entByte (b : Byte) : Statement (.entByte b) := of_fields (by
  simp [CmdFields.wellFormed, CmdFields.opOk, CmdFields.rsvOk, CmdFields.bselOk, CmdFields.immOk, CmdFields.immHighOk,
    CmdFields.assignedOps, CmdFields.bselOps, CmdFields.imm8Ops, Instr.fields, Instr.opcode, Instr.bsel, Instr.imm,
    setWidth_high])
theorem entBuf (b : Buf) : Statement (.entBuf b) := of_fields (by cases b <;> decide)
theorem entClassify : Statement .entClassify := of_fields (by decide)
theorem process : Statement .process := of_fields (by decide)
theorem logPop : Statement .logPop := of_fields (by decide)
theorem sreset : Statement .sreset := of_fields (by decide)

end Laws.EncodedFields

end Sys2Proof
end

