-- ==== Sys2Proof/Laws/Step.lean ====
section
/-! SUPPORT. What a step can do, said once: the inversion lemmas of the step, of the engine step and of a host access. -/

namespace Sys2Proof.Machine

open Sys2Proof

/-- The engine step: it waits, runs the latched command, or ends an illegal word (R250). -/
theorem engineStep_cases (s : State) :
    (s.status.busy = false ∧ engineStep s = .next s) ∨
    (s.status.busy = true ∧ ∃ i, decodeWord s.cmdl = .ok i ∧ engineStep s = exec i s) ∨
    (s.status.busy = true ∧ (∃ e, decodeWord s.cmdl = .error e) ∧
      engineStep s = .next (s.finish (s.cmdl.extractLsb' 0 8) .illegal)) := by
  unfold engineStep
  cases hb : s.status.busy
  · exact .inl ⟨rfl, by simp⟩
  · cases hd : decodeWord s.cmdl with
    | ok i => exact .inr (.inl ⟨rfl, i, rfl, by simp⟩)
    | error e => exact .inr (.inr ⟨rfl, ⟨e, rfl⟩, by simp [execIllegal]⟩)

/-- A step that answers a next state is a hardware reset, a host access, or the engine's step (R16, R255). -/
theorem step_cases {s t : State} (h : step s = .next t) :
    (s.env.inputs.head? = some .hardReset ∧ t = s.takeInput.hardReset) ∨
    (s.faults = [] ∧ ∃ a, s.env.inputs.head? = some (.access a) ∧ t = s.takeInput.hostAccess a) ∨
    (s.faults = [] ∧ s.env.inputs.head? = some .engineTurn ∧ engineStep s.takeInput = .next t) ∨
    (s.faults = [] ∧ s.env.inputs = [] ∧ engineStep s = .next t) := by
  unfold step stepUnmarked at h
  cases hi : s.env.inputs with
  | nil =>
    cases hf : s.faults with
    | nil => simp only [hi, hf] at h; exact .inr (.inr (.inr ⟨rfl, rfl, by simpa using h⟩))
    | cons f fs => simp [hi, hf] at h
  | cons x xs =>
    cases x with
    | hardReset => simp only [hi] at h; exact .inl ⟨rfl, by simpa using h.symm⟩
    | access a =>
      cases hf : s.faults with
      | nil => simp only [hi, hf] at h; exact .inr (.inl ⟨rfl, a, rfl, by simpa using h.symm⟩)
      | cons f fs => simp [hi, hf] at h
    | engineTurn =>
      cases hf : s.faults with
      | nil => simp only [hi, hf] at h; exact .inr (.inr (.inl ⟨rfl, rfl, by simpa using h⟩))
      | cons f fs => simp [hi, hf] at h

/-- A read leaves the block as it was; only the environment records it (R83, R84). -/
theorem State.hostAccess_read (s : State) (a : Addr) (w : Width) :
    s.hostAccess (.read a w) = { s with env := (s.hostAccess (.read a w)).env } := rfl

/-- A write gets a bus error, marks a fault, or is performed (R79, R258). -/
theorem State.afterWrite_cases (s : State) (a : Addr) (w : Width) (v : Word) :
    (busOk a w = false ∧ s.afterWrite a w v = s) ∨
    (busOk a w = true ∧ s.status.busy = true ∧ s.afterWrite a w v = s.markFault .writeWhileBusy) ∨
    (busOk a w = true ∧ s.status.busy = false ∧ s.afterWrite a w v = s.writeData a w v) := by
  unfold State.afterWrite
  cases busOk a w <;> cases s.status.busy <;> simp

/-- Marking a fault adds it to the set and changes nothing else (R258). -/
theorem State.markFault_eq (s : State) (f : Fault) :
    s.markFault f = { s with faults := if f ∈ s.faults then s.faults else s.faults ++ [f] } := rfl

/-- The region of an address (R72). -/
theorem regionOf_cases (a : Addr) :
    (a.toNat < Config.regBase ∧ regionOf a = .buffer) ∨
    (Config.regBase ≤ a.toNat ∧ a.toNat < Config.regEnd ∧ regionOf a = .register (a.extractLsb' 0 11)) ∨
    (Config.regEnd ≤ a.toNat ∧ regionOf a = .unmapped) := by
  unfold regionOf
  rcases Nat.lt_or_ge a.toNat Config.regBase with h1 | h1
  · exact .inl ⟨h1, if_pos h1⟩
  · rw [if_neg (Nat.not_lt.mpr h1)]
    rcases Nat.lt_or_ge a.toNat Config.regEnd with h2 | h2
    · exact .inr (.inl ⟨h1, h2, if_pos h2⟩)
    · exact .inr (.inr ⟨h2, if_neg (Nat.not_lt.mpr h2)⟩)

/-- A performed write stores buffer bytes, writes one register, or is ignored (R74, R80, R81). -/
theorem State.writeData_cases (s : State) (a : Addr) (w : Width) (v : Word) :
    (a.toNat < Config.regBase ∧ s.writeData a w v = s.writeAt a.toNat (lanes w v)) ∨
    (Config.regBase ≤ a.toNat ∧ ∃ r, regAt (a.extractLsb' 0 11) = some r ∧ s.writeData a w v = s.writeReg v r) ∨
    (Config.regBase ≤ a.toNat ∧ s.writeData a w v = s) := by
  unfold State.writeData
  rcases regionOf_cases a with ⟨h1, e⟩ | ⟨h1, -, e⟩ | ⟨h1, e⟩
  · exact .inl ⟨h1, by rw [e]⟩
  · cases hr : regAt (a.extractLsb' 0 11) with
    | none => exact .inr (.inr ⟨h1, by simp only [e, hr]⟩)
    | some r => exact .inr (.inl ⟨h1, r, rfl, by simp only [e, hr]⟩)
  · exact .inr (.inr ⟨Nat.le_trans (by decide) h1, by rw [e]⟩)

@[simp] theorem length_lanes (w : Width) (v : Word) : (lanes w v).length = w.bytes := by cases w <;> rfl

/-- A legal buffer access stays inside the buffers (R77). -/
theorem busOk_buffer_end {a : Addr} {w : Width} (h : busOk a w = true) (ha : a.toNat < Config.regBase) :
    a.toNat + w.bytes ≤ Config.regBase := by
  have h' : a.toNat % w.bytes = 0 := by simpa [busOk, regionOf, ha] using h
  simp only [Config.regBase] at ha ⊢
  cases w <;> simp only [Width.bytes] at h' ⊢ <;> omega

/-! ### The step by the head of its inputs -/

/-- With a host access first, an unmarked state does it (R87). -/
theorem step_access {s : State} {x : HostAccess} (hf : s.faults = []) (hi : s.env.inputs.head? = some (.access x)) :
    step s = .next (s.takeInput.hostAccess x) := by
  obtain ⟨ys, hy⟩ := List.head?_eq_some_iff.mp hi
  simp [step, stepUnmarked, hy, hf]

/-- With a hardware reset first, any state is reset (R255, R280). -/
theorem step_hardReset {s : State} (hi : s.env.inputs.head? = some .hardReset) :
    step s = .next s.takeInput.hardReset := by
  obtain ⟨ys, hy⟩ := List.head?_eq_some_iff.mp hi
  simp [step, stepUnmarked, hy]

/-- With an engine turn first, an unmarked state does the engine step (R250). -/
theorem step_engineTurn {s : State} (hf : s.faults = []) (hi : s.env.inputs.head? = some .engineTurn) :
    step s = engineStep s.takeInput := by
  obtain ⟨ys, hy⟩ := List.head?_eq_some_iff.mp hi
  simp [step, stepUnmarked, hy, hf]

/-- With no input, an unmarked state does the engine step (R289). -/
theorem step_noInput {s : State} (hf : s.faults = []) (hi : s.env.inputs = []) : step s = engineStep s := by
  simp [step, stepUnmarked, hi, hf]

/-! ### A host access by its outcome -/

/-- A read that gets a bus error (R79). -/
theorem State.hostAccess_read_busError (s : State) {a : Addr} {w : Width} (h : busOk a w = false) :
    s.hostAccess (.read a w) = s.observe (.read a w) .busError := by
  simp [State.hostAccess, State.afterRead, State.readResponse, h]

/-- A write that gets a bus error (R79). -/
theorem State.hostAccess_write_busError (s : State) {a : Addr} {w : Width} (h : busOk a w = false) (v : Word) :
    s.hostAccess (.write a w v) = s.observe (.write a w v) .busError := by
  simp [State.hostAccess, State.afterWrite, State.writeResponse, h]

/-- A read that is answered with the value read (R74, R76, R84). -/
theorem State.hostAccess_read_value (s : State) {a : Addr} {w : Width} (h : busOk a w = true)
    (hd : s.readIsDraw a = false) : s.hostAccess (.read a w) = s.observe (.read a w) (.data (s.readData a w)) := by
  simp [State.hostAccess, State.afterRead, State.readResponse, h, hd]

/-- A read that is answered with a draw (R83). -/
theorem State.hostAccess_read_draw (s : State) {a : Addr} {w : Width} (h : busOk a w = true)
    (hd : s.readIsDraw a = true) : s.hostAccess (.read a w) =
      ({ s with env := { s.env with draws := s.env.draws + 1 } } : State).observe (.read a w)
        (.data (Config.busyRead s.env.draws)) := by
  simp [State.hostAccess, State.afterRead, State.readResponse, h, hd]

/-- A write to an idle block (R74, R80, R81). -/
theorem State.hostAccess_write_idle (s : State) {a : Addr} {w : Width} (h : busOk a w = true)
    (hb : s.status.busy = false) (v : Word) :
    s.hostAccess (.write a w v) = (s.writeData a w v).observe (.write a w v) .written := by
  simp [State.hostAccess, State.afterWrite, State.writeResponse, h, hb]

/-- A write to a busy block (R258). -/
theorem State.hostAccess_write_busy (s : State) {a : Addr} {w : Width} (h : busOk a w = true)
    (hb : s.status.busy = true) (v : Word) :
    s.hostAccess (.write a w v) = (s.markFault .writeWhileBusy).observe (.write a w v) .unspecified := by
  simp [State.hostAccess, State.afterWrite, State.writeResponse, h, hb]

/-- An idle block answers no draw (R83). -/
theorem State.readIsDraw_idle {s : State} (hb : s.status.busy = false) (a : Addr) : s.readIsDraw a = false := by
  simp [State.readIsDraw, hb]

/-- A read of a buffer address (R74). -/
theorem State.readData_buffer (s : State) {a : Addr} (ha : a.toNat < Config.regBase) (w : Width) :
    s.readData a w = s.readLanes a.toNat w := by
  simp only [State.readData, regionOf, ha, if_true]

/-- A write to a buffer address (R74). -/
theorem State.writeData_buffer (s : State) {a : Addr} (ha : a.toNat < Config.regBase) (w : Width) (v : Word) :
    s.writeData a w v = s.writeAt a.toNat (lanes w v) := by
  simp only [State.writeData, regionOf, ha, if_true]

/-- The address of a named register has its offset in the window (10_state.md section 2). -/
theorem regionOf_named (r : RegName) : regionOf r.addr = .register (BitVec.ofNat 11 r.offset) := by
  cases r <;> decide

/-- The register at a named register's offset is that register. -/
theorem regAt_named (r : RegName) : regAt (BitVec.ofNat 11 r.offset) = some (.named r) := by
  cases r <;> decide

/-- A read of a named register of an idle block. -/
theorem State.readData_named (s : State) (r : RegName) (w : Width) : s.readData r.addr w = s.readNamed r := by
  simp only [State.readData, regionOf_named, regAt_named, State.readReg]

/-- A write to a named register of an idle block. -/
theorem State.writeData_named (s : State) (r : RegName) (w : Width) (v : Word) :
    s.writeData r.addr w v = s.writeNamed v r := by
  simp only [State.writeData, regionOf_named, regAt_named, State.writeReg]

/-- The address at a named register's offset is that register's (R72). -/
theorem addr_of_offset {a : Addr} {r : RegName} (e : a.toNat = Config.regBase + r.offset) : a = r.addr := by
  apply BitVec.eq_of_toNat_eq
  rw [e]
  cases r <;> rfl

/-- An address inside the window is a register's, or reserved (R72). -/
theorem regionOf_window {a : Addr} (h1 : Config.regBase ≤ a.toNat) (h2 : a.toNat < Config.regEnd) :
    regionOf a = .register (a.extractLsb' 0 11) := by
  rw [regionOf, if_neg (Nat.not_lt.mpr h1), if_pos h2]

/-- The register at a counter's address (R53). -/
theorem regAt_hist {a : Addr} {v : Byte} (e : a.toNat = Config.regBase + 0x400 + 4 * v.toNat) :
    regAt (a.extractLsb' 0 11) = some (.hist v) := by
  have hv := v.isLt
  have h1 : (a.extractLsb' 0 11).toNat = 0x400 + 4 * v.toNat := by
    rw [BitVec.extractLsb'_toNat, e, Config.regBase]
    omega
  have h2 : (a.extractLsb' 0 11).getLsbD 10 = true := by
    rw [BitVec.getLsbD, h1, Nat.testBit_eq_decide_div_mod_eq, decide_eq_true_eq]
    omega
  rw [regAt, if_pos h2]
  congr 2
  apply BitVec.eq_of_toNat_eq
  rw [BitVec.extractLsb'_toNat, h1]
  omega

/-- A 4-byte access to a named register gets no bus error (R78). -/
theorem busOk_named (r : RegName) : busOk r.addr .w4 = true := by
  cases r <;> decide

end Sys2Proof.Machine
end

