-- ==== Sys2Proof/Machine/Asm.lean ====
section
/-! DEFINITION. The assembler of one line of command text (30_encoding.md R111). A line is a list of characters, its
trailing comment included; what R111 leaves open is in assumption 9. -/

namespace Sys2Proof.Machine

open Sys2Proof

/-- The line without its comment, in lower case: mnemonics are case-insensitive and `;` starts a comment (R111). -/
def asmClean (line : List Char) : List Char := (line.takeWhile (· ≠ ';')).map Char.toLower

/-- A word being read becomes a token if it is not empty. -/
def asmFlush (cur : List Char) : List (List Char) := if cur.isEmpty then [] else [cur]

/-- The blank-separated tokens of a line; `cur` is the token being read. -/
def asmTokens (cur : List Char) : List Char → List (List Char)
  | [] => asmFlush cur
  | c :: cs =>
    if c = ' ' ∨ c = '\t' then asmFlush cur ++ asmTokens [] cs
    else asmTokens (cur ++ [c]) cs

/-- The value of a digit, if it is one of the base. -/
def asmDigit (base : Nat) (c : Char) : Option Nat :=
  let v := if '0' ≤ c ∧ c ≤ '9' then c.toNat - '0'.toNat
    else if 'a' ≤ c ∧ c ≤ 'f' then c.toNat - 'a'.toNat + 10
    else base
  if v < base then some v else none

/-- The value of a digit string. -/
def asmDigits (base acc : Nat) : List Char → Option Nat
  | [] => some acc
  | c :: cs =>
    match asmDigit base c with
    | some d => asmDigits base (acc * base + d) cs
    | none => none

/-- A numeric literal "in decimal or 0x-hex" (R111). -/
def asmNumber (t : List Char) : Option Nat :=
  match t with
  | [] => none
  | '0' :: 'x' :: d :: ds => asmDigits 16 0 (d :: ds)
  | _ => asmDigits 10 0 t

/-- A literal below `2^n`, as an `n`-bit immediate. -/
def asmImm (n : Nat) (t : List Char) : Option (BitVec n) :=
  match asmNumber t with
  | some v => if v < 2 ^ n then some (BitVec.ofNat n v) else none
  | none => none

/-- `rx` or `tx` (R111). -/
def asmBuf (t : List Char) : Option Buf :=
  if t = "rx".toList then some .rx else if t = "tx".toList then some .tx else none

/-- The mnemonics without an operand (R104, R111). -/
def asmPlain : List (String × Instr) :=
  [("nop", .nop), ("csum.clr", .csumClr), ("csum.fin", .csumFin), ("decode", .decode), ("encode", .encode),
   ("ent.clr", .entClr), ("ent.classify", .entClassify), ("process", .process), ("log.pop", .logPop),
   ("sreset", .sreset)]

/-- A mnemonic with its operand (R111). -/
def asmWithOperand (m t : List Char) : Option Instr :=
  if m = "csum.byte".toList then (asmImm 8 t).map Instr.csumByte
  else if m = "csum.word".toList then (asmImm 16 t).map Instr.csumWord
  else if m = "csum.buf".toList then (asmBuf t).map Instr.csumBuf
  else if m = "ent.byte".toList then (asmImm 8 t).map Instr.entByte
  else if m = "ent.buf".toList then (asmBuf t).map Instr.entBuf
  else none

/-- The command of a line's tokens. -/
def asmCommand (ts : List (List Char)) : Option Instr :=
  match ts with
  | [m] => (asmPlain.find? fun p => p.1.toList == m).map Prod.snd
  | [m, t] => asmWithOperand m t
  | _ => none

/-- What one line assembles to. -/
inductive AsmResult where
  /-- Nothing but blanks and a comment. -/
  | blank
  /-- A command word. -/
  | word (w : Word)
  /-- No line of R111. -/
  | error
  deriving DecidableEq, Repr

/-- Assemble one line (R111). -/
def assembleLine (line : List Char) : AsmResult :=
  match asmTokens [] (asmClean line) with
  | [] => .blank
  | t :: ts =>
    match asmCommand (t :: ts) with
    | some i => .word (encodeInstr i)
    | none => .error

end Sys2Proof.Machine
end

