-- ==== Sys2Proof/Tests/Slice0.lean ====
section
/-! SUPPORT. Tests of the model against the words and values the spec prints (95_test_vectors.md, 30_encoding.md), and a
witness for the hypotheses of every statement that has some. Expected values are the spec's. -/

namespace Sys2Proof.Tests

open Sys2Proof Sys2Proof.Machine

-- One theorem at a time: checked all at once, their threads' stacks alone pass the checker's memory limit.
set_option Elab.async false

/-! ## Helpers -/

/-- Bytes from numerals. -/
def bytes (l : List Nat) : List Byte := l.map (BitVec.ofNat 8)

/-- The bytes of a text. -/
def text (s : String) : List Byte := s.toList.map fun c => BitVec.ofNat 8 c.toNat

/-- The registers `qs` after command `i` on `s`, if the command completes. -/
def regsAfter (i : Instr) (s : State) (qs : List RegName) : Option (List Word) :=
  match exec i s with
  | .next t => some (qs.map t.readNamed)
  | _ => none

/-- The registers `qs` after one step of `s`, if it answers a next state. -/
def regsAfterStep (s : State) (qs : List RegName) : Option (List Word) :=
  match step s with
  | .next t => some (qs.map t.readNamed)
  | _ => none

/-- The last response after one step of `s`, if it answers a next state. -/
def responseOf (s : State) : Option Response :=
  match step s with
  | .next t => t.env.seen.getLast?.map Exchange.response
  | _ => none

/-- `n` bytes of a buffer after command `i` on `s`. -/
def bytesAfter (i : Instr) (s : State) (b : Buf) (a n : Nat) : Option (List Byte) :=
  match exec i s with
  | .next t => some (t.bufBytes b a n)
  | _ => none

/-- The reset state with inputs. -/
def withInputs (s : State) (xs : List Input) : State := { s with env := { s.env with inputs := xs } }

/-- The reset state, busy with a latched word. -/
def busyWith (w : Word) : State :=
  { State.reset with cmdl := w, status := { State.reset.status with busy := true } }

/-- The reset state with an ARG. -/
def withArg (off len : Half) : State := { State.reset with arg := { off := off, len := len } }

/-- The reset state with `n` bytes counted, as far as ENT_N goes. -/
def withCount (n : Half) : State := { State.reset with ent := { State.reset.ent with n := n } }

/-- A capture in RXBUF, with a CTRL word. -/
def capture (bs : List Byte) (ctrl : Word) : State :=
  ({ State.reset with capLen := BitVec.ofNat 16 bs.length, ctrl := State.reset.ctrl.write ctrl } : State).writeBuf .rx 0 bs

/-- The 20-byte outer header of the captures, with its first byte and its protocol byte. -/
def outer (first proto : Nat) : List Byte :=
  bytes [first, 0, 0, 0, 0, 0, 0, 0, 64, proto, 0, 0, 0xC0, 0xA8, 1, 10, 0xC0, 0xA8, 1, 1]

/-- CAP-2: request, id 0x1234, seq 1, "abcdefgh" (the outer bytes that no rule reads are 0). -/
def cap2 : List Byte :=
  outer 0x45 1 ++ (bytes [8, 0, 0x54, 0x35, 0x12, 0x34, 0, 1] ++ text "abcdefgh")

/-- CAP-4: request, id 0xBEEF, seq 0xFFFF, empty payload: exactly hlen + 8 bytes. -/
def cap4 : List Byte := outer 0x45 1 ++ bytes [8, 0, 0x39, 0x10, 0xBE, 0xEF, 0xFF, 0xFF]

/-- A frame whose payload is 17 equal bytes: SuspiciousLow at reset thresholds (vector ENT-14). -/
def capLow : List Byte := outer 0x45 1 ++ (bytes [8, 0, 0, 0, 0, 7, 0, 9] ++ List.replicate 17 0x61)

/-- The reset state with a full log. -/
def fullLog : State :=
  { State.reset with log := List.replicate 16 { w0 := 1, w1 := 2, w2 := 3, w3 := 4 } }

/-- The reset state with ENCODE registers and TX bytes from offset 8 on. -/
def encoding (typ : Byte) (id seq plen fsize : Half) (p : List Byte) : State :=
  ({ State.reset with enc := { typ := typ, code := 0, id := id, seq := seq, plen := plen, fsize := fsize } } : State).writeBuf .tx 8 p

/-! ## Well-formedness: each check refuses an ill-formed term (R105) -/

theorem test_wf_accepts : (CmdFields.mk 0x02 false 0 0x00AB).wellFormed = true := by decide
theorem test_wf_opOk : (CmdFields.mk 0x06 false 0 0).opOk = false ∧ (CmdFields.mk 0x06 false 0 0).wellFormed = false := by decide
theorem test_wf_rsvOk : (CmdFields.mk 0x04 false 1 0).rsvOk = false ∧ (CmdFields.mk 0x04 false 1 0).wellFormed = false := by decide
theorem test_wf_bselOk : (CmdFields.mk 0x05 true 0 0).bselOk = false ∧ (CmdFields.mk 0x05 true 0 0).wellFormed = false := by decide
theorem test_wf_immOk : (CmdFields.mk 0x01 false 0 1).immOk = false ∧ (CmdFields.mk 0x01 false 0 1).wellFormed = false := by decide
theorem test_wf_immHighOk :
    (CmdFields.mk 0x02 false 0 0x0100).immHighOk = false ∧ (CmdFields.mk 0x02 false 0 0x0100).wellFormed = false := by decide

/-! ## Decoding: a word per command, written out from its row {IMM, RSV, BSEL, OP} (R101, R104) -/

theorem test_decode_nop : decodeWord 0x00000000 = .ok .nop := by decide
theorem test_decode_csumClr : decodeWord 0x00000001 = .ok .csumClr := by decide
theorem test_decode_csumByte : decodeWord 0x00AB0002 = .ok (.csumByte 0xAB) := by decide
theorem test_decode_csumWord : decodeWord 0x34560003 = .ok (.csumWord 0x3456) := by decide
theorem test_decode_csumBuf : decodeWord 0x00000004 = .ok (.csumBuf .rx) ∧ decodeWord 0x00000104 = .ok (.csumBuf .tx) := by decide
theorem test_decode_csumFin : decodeWord 0x00000005 = .ok .csumFin := by decide
theorem test_decode_decode : decodeWord 0x00000010 = .ok .decode := by decide
theorem test_decode_encode : decodeWord 0x00000011 = .ok .encode := by decide
theorem test_decode_entClr : decodeWord 0x00000020 = .ok .entClr := by decide
theorem test_decode_entByte : decodeWord 0x00410021 = .ok (.entByte 0x41) := by decide
theorem test_decode_entBuf : decodeWord 0x00000022 = .ok (.entBuf .rx) ∧ decodeWord 0x00000122 = .ok (.entBuf .tx) := by decide
theorem test_decode_entClassify : decodeWord 0x00000023 = .ok .entClassify := by decide
theorem test_decode_process : decodeWord 0x00000030 = .ok .process := by decide
theorem test_decode_logPop : decodeWord 0x00000031 = .ok .logPop := by decide
theorem test_decode_sreset : decodeWord 0x000000FF = .ok .sreset := by decide

/-- Vectors CTL-5 to CTL-9, and BSEL on a byte command: refused by name. -/
theorem test_decode_illegal :
    decodeWord 0x00000006 = .error .unassignedOp ∧ decodeWord 0x00010001 = .error .immUnused ∧
    decodeWord 0x01000002 = .error .immHighByte ∧ decodeWord 0x00000105 = .error .bselUnused ∧
    decodeWord 0x00000204 = .error .reservedBits ∧ decodeWord 0x00AB0102 = .error .bselUnused := by decide

/-- The assembled words of R111's examples. -/
theorem test_encode_words : encodeInstr (.csumByte 0xAB) = 0x00AB0002 ∧ encodeInstr (.csumWord 0x1234) = 0x12340003 ∧
    encodeInstr (.entBuf .tx) = 0x00000122 ∧ encodeInstr .sreset = 0x000000FF := by decide

/-- The host's view of the decoder. -/
theorem test_decode_tableWord :
    decodeTableWord 32 0x00AB0002 = some (.csumByte 0xAB) ∧ decodeTableWord 32 0x00000006 = none := by decide

/-! ## Assembling a line (R111) -/

theorem test_asm_words :
    assembleLine "csum.byte 0xAB".toList = .word 0x00AB0002 ∧ assembleLine "CSUM.WORD 0x1234 ; note".toList = .word 0x12340003 ∧
    assembleLine " ent.buf  tx".toList = .word 0x00000122 ∧ assembleLine "ent.byte 65".toList = .word 0x00410021 ∧
    assembleLine "Log.Pop".toList = .word 0x00000031 := by decide +kernel
theorem test_asm_others :
    assembleLine "; only a comment".toList = .blank ∧ assembleLine "csum.byte 256".toList = .error ∧
    assembleLine "nop 1".toList = .error ∧ assembleLine "csum.buf".toList = .error := by decide +kernel

/-! ## Commands: vectors of 95_test_vectors.md -/

/-- CTL-3. -/
theorem test_nop : regsAfter .nop { State.reset with status := { busy := true, err := .logFull, lastOp := 0x30 } } [.status] =
    some [0] := by decide +kernel
/-- CS-13. -/
theorem test_csumClr : regsAfter .csumClr { State.reset with csum := { acc := 0x12345678, par := true, res := 7 } }
    [.csumAcc, .csumStat, .csumRes, .status] = some [0, 0, 7, 0x100] := by decide +kernel
/-- CS-1. -/
theorem test_csumByte_high : regsAfter (.csumByte 0xAB) State.reset [.csumAcc, .csumStat, .status] =
    some [0x0000AB00, 1, 0x200] := by decide +kernel
/-- CS-3, second command. -/
theorem test_csumByte_low : regsAfter (.csumByte 0xCD) { State.reset with csum := { acc := 0xAB00, par := true, res := 0 } }
    [.csumAcc, .csumStat] = some [0x0000ABCD, 0] := by decide +kernel
/-- CS-2, second command. -/
theorem test_csumWord_odd : regsAfter (.csumWord 0x3456) { State.reset with csum := { acc := 0x1200, par := true, res := 0 } }
    [.csumAcc, .csumStat] = some [0x00006834, 1] := by decide +kernel
/-- CS-12. -/
theorem test_csumWord_wraps : regsAfter (.csumWord 1) { State.reset with csum := { acc := 0xFFFFFFFF, par := false, res := 0 } }
    [.csumAcc, .csumStat] = some [0, 0] := by decide +kernel
/-- CS-4. -/
theorem test_csumBuf_rx : regsAfter (.csumBuf .rx)
    ((withArg 0 8).writeBuf .rx 0 (bytes [0x00, 0x01, 0xF2, 0x03, 0xF4, 0xF5, 0xF6, 0xF7])) [.csumAcc, .csumStat, .status] =
    some [0x0002DDF0, 0, 0x400] := by decide +kernel
/-- CS-7: the range ends exactly at 65536. CS-6: one byte further is RANGE. -/
theorem test_csumBuf_edge :
    regsAfter (.csumBuf .tx) ((withArg 0xFFFF 1).writeBuf .tx 0xFFFF [0x5A]) [.csumAcc, .csumStat, .status] =
      some [0x00005A00, 1, 0x400] ∧
    regsAfter (.csumBuf .tx) (withArg 0xFFFF 2) [.csumAcc, .status] = some [0, 0x420] := by decide +kernel
/-- CS-8 and CS-10. -/
theorem test_csumFin : regsAfter .csumFin State.reset [.csumRes, .status] = some [0x0000FFFF, 0x500] ∧
    regsAfter .csumFin { State.reset with csum := { acc := 0x1FFFE, par := false, res := 0 } } [.csumRes] = some [0] := by
  decide +kernel
/-- DEC-2, and DEC-2 with verification off. -/
theorem test_decode_ok :
    regsAfter .decode (capture cap2 3)
      [.decStatus, .decTc, .decCsum, .decIdseq, .decPay, .decSrc, .decDst, .status] =
      some [5, 0x05010008, 0x54355435, 0x00011234, 0x0008001C, 0xC0A8010A, 0xC0A80101, 0x1000] ∧
    regsAfter .decode (capture cap2 0) [.decStatus, .decCsum] = some [1, 0x00005435] := by decide +kernel
/-- DEC-8, DEC-12, DEC-13 and DEC-5. -/
theorem test_decode_fails :
    regsAfter .decode (capture (cap2.take 27) 3) [.decStatus, .decTc, .decPay] = some [2, 0x05000000, 0] ∧
    regsAfter .decode (capture [] 3) [.decStatus, .decTc] = some [2, 0] ∧
    regsAfter .decode (capture (outer 0x43 6 ++ cap2.drop 20) 3) [.decStatus, .decTc] = some [2, 0x03000000] ∧
    regsAfter .decode (capture (outer 0x45 6 ++ cap2.drop 20) 3) [.decStatus, .decTc] = some [3, 0x05060000] := by
  decide +kernel
/-- ENC-7 and ENC-10. -/
theorem test_encode_frame :
    bytesAfter .encode (encoding 8 0x0102 0x0304 3 0 (text "abc")) .tx 0 11 =
      some (bytes [8, 0, 0x2F, 0x97, 1, 2, 3, 4] ++ text "abc") ∧
    regsAfter .encode (encoding 0xFF 0xFFFF 0xFFFF 0 9 []) [.txInfo, .status] = some [0xE0FE0009, 0x1100] := by
  decide +kernel
/-- ENC-4, ENC-5 and ENC-6. -/
theorem test_encode_too_large :
    regsAfter .encode (encoding 8 0 0 0 7 []) [.status, .txInfo] = some [0x1130, 0] ∧
    regsAfter .encode (encoding 8 0 0 4 10 []) [.status] = some [0x1130] ∧
    regsAfter .encode (encoding 8 0 0 0xFFF8 0 []) [.status] = some [0x1130] := by decide +kernel
/-- ENT-K13's last command. -/
theorem test_entClr : regsAfter .entClr { withCount 1 with ent := { (withCount 1).ent with score := 5, valid := true } }
    [.entN, .entResult, .status] = some [0, 0, 0x2000] := by decide +kernel
/-- ENT-K1. -/
theorem test_entByte : regsAfter (.entByte 0x41) State.reset [.entN, .entResult, .status] = some [1, 0, 0x2100] := by
  decide +kernel
/-- ENT-K4, and one below the maximum. -/
theorem test_entByte_full : regsAfter (.entByte 1) (withCount 0xFFFF) [.status, .entN] = some [0x2140, 0xFFFF] ∧
    regsAfter (.entByte 1) (withCount 0xFFFE) [.status, .entN] = some [0x2100, 0xFFFF] := by decide +kernel
/-- ENT-K6: RANGE before ENT_FULL. -/
theorem test_entBuf_range_first :
    regsAfter (.entBuf .rx) { withCount 0xFFFF with arg := { off := 0xFFFF, len := 2 } } [.status] = some [0x2220] := by
  decide +kernel
/-- ENT-K5. -/
theorem test_entBuf_full :
    regsAfter (.entBuf .rx) { withCount 0xFFF0 with arg := { off := 0, len := 0x10 } } [.status] = some [0x2240] ∧
    regsAfter (.entBuf .rx) { withCount 0xFFF0 with arg := { off := 0, len := 0x0F } } [.status, .entN] =
      some [0x2200, 0xFFFF] := by decide +kernel
/-- ENT-K7, and ENT-10's histogram. -/
theorem test_entClassify :
    regsAfter .entClassify State.reset [.entResult] = some [0x80000000] ∧
    regsAfter .entClassify (State.reset.count (text "abcdefgh")) [.entResult, .status] = some [0x80003000, 0x2300] := by
  decide +kernel
/-- ENT-13: "a" x 16 and "b" is SuspiciousLow. -/
theorem test_entClassify_low :
    regsAfter .entClassify (State.reset.count (List.replicate 16 0x61 ++ [0x62])) [.entResult] = some [0x8002052A] := by
  decide +kernel
/-- ENT-18 and ENT-11: 0x00 to 0x5A is SuspiciousHigh; exactly 6.5 is not. -/
theorem test_entClassify_high :
    regsAfter .entClassify (State.reset.count (bytes (List.range 91))) [.entResult] = some [0x8001681F] ∧
    regsAfter .entClassify (State.reset.count (bytes (List.range 64 ++ (List.range' 64 32 ++ List.range' 64 32))))
      [.entResult] = some [0x80006800] := by decide +kernel
/-- PROC-2: a reply. -/
theorem test_process_reply :
    regsAfter .process (capture cap2 5) [.fstate, .entResult, .logW0, .logW1, .logW2, .logW3, .txInfo, .txDst, .status] =
      some [5, 0x80003000, 0x30000102, 0xC0A8010A, 0x0008001C, 0x00011234, 0x5C350010, 0xC0A8010A, 0x3000] := by
  decide +kernel
/-- PROC-4b and PROC-8: a DROP record, and a full log. -/
theorem test_process_drop_and_full :
    regsAfter .process (capture (outer 0x45 6 ++ cap2.drop 20) 0xB) [.fstate, .logW0, .logCount] = some [6, 0x304, 1] ∧
    regsAfter .process fullLog [.status, .fstate, .logCount, .decStatus] = some [0x3050, 0, 16, 0] := by decide +kernel
/-- CTL-1 and CTL-2. -/
theorem test_logPop : regsAfter .logPop State.reset [.status] = some [0x3160] ∧
    regsAfter .logPop { State.reset with log := [{ w0 := 1, w1 := 2, w2 := 3, w3 := 4 }] } [.status, .logCount, .logW0, .logW3] =
      some [0x3100, 0, 0, 0] := by decide +kernel
/-- CTL-4. -/
theorem test_sreset :
    regsAfter .sreset (({ fullLog with th := { high := 0x100, low := 1, floor := 2 } } : State).writeBuf .rx 0 [0x45])
      [.status, .ctrl, .thHigh, .entN, .logCount] = some [0xFF00, 3, 0x6800, 0, 0] ∧
    bytesAfter .sreset (State.reset.writeBuf .rx 0 [0x45]) .rx 0 1 = some [0x45] := by decide +kernel

/-! ## The step and the host bus: vectors CTL-5 and BUS-1 to BUS-12 -/

/-- CTL-5: an illegal word. -/
theorem test_step_illegal : regsAfterStep (busyWith 0x00000006) [.status] = some [0x610] := by decide +kernel
/-- The word placed by withFetchWord is the next instruction to run. -/
theorem test_step_withFetchWord : regsAfterStep (State.reset.withFetchWord 32 0x00AB0002) [.csumAcc, .status] =
    some [0xAB00, 0x200] := by decide +kernel
/-- BUS-1 and BUS-2. -/
theorem test_bus_lanes :
    responseOf (withInputs (State.reset.writeAt 0x10000 (bytes [8, 0, 0xD1, 0x19])) [.access (.read 0x10000 .w4)]) =
      some (.data 0x19D10008) ∧
    responseOf (withInputs (State.reset.writeAt 0x10000 (bytes [8, 0, 0xD1, 0x19])) [.access (.read 0x10002 .w2)]) =
      some (.data 0x000019D1) := by decide +kernel
/-- BUS-3, BUS-4 and BUS-5. -/
theorem test_bus_errors :
    responseOf (withInputs State.reset [.access (.read 0x10001 .w2)]) = some .busError ∧
    responseOf (withInputs State.reset [.access (.write 0x20008 .w1 5)]) = some .busError ∧
    responseOf (withInputs State.reset [.access (.read 0x20800 .w4)]) = some .busError := by decide +kernel
/-- BUS-6, BUS-7 and BUS-8. -/
theorem test_bus_registers :
    responseOf (withInputs State.reset [.access (.read 0x20018 .w4)]) = some (.data 0) ∧
    responseOf (withInputs State.reset [hostR .id]) = some (.data 0x4E570001) ∧
    responseOf (withInputs (busyWith 7) [.access (.read 0x20004 .w4)]) = some (.data 1) ∧
    responseOf (withInputs { State.reset with cmdl := 7 } [hostR .cmd]) = some (.data 0) := by decide +kernel
/-- BUS-9, BUS-10 and BUS-11. -/
theorem test_bus_ctrl :
    regsAfterStep (withInputs State.reset [hostW .ctrl 0x7]) [.ctrl] = some [3] ∧
    regsAfterStep (withInputs State.reset [hostW .ctrl 0xF]) [.ctrl] = some [0xB] ∧
    regsAfterStep (withInputs State.reset [hostW .ctrl 0xFFFFFFF4]) [.ctrl] = some [4] := by decide +kernel
/-- BUS-12: the write while busy. -/
theorem test_bus_write_while_busy : responseOf (withInputs (busyWith 0x23) [hostW .arg 1]) = some .unspecified := by
  decide +kernel
/-- R112 and R113: a command is one write and polls around the engine's turn. -/
theorem test_program_do : macroDo 1 .nop = [hostW .cmd 0, hostR .status, .engineTurn, hostR .status] := by decide +kernel
/-- R113: the drain of one record, and each P of a macro with its own number of busy polls. -/
theorem test_program_polls :
    macroDrain [0] = [hostR .logCount, hostR .logW0, hostR .logW1, hostR .logW2, hostR .logW3, hostW .cmd 0x31, .engineTurn,
      hostR .status, hostR .logCount] ∧
    macroChecksum 0 2 1 .rx 3 5 = [hostW .cmd 1, .engineTurn, hostR .status, hostW .arg 0x00050003, hostW .cmd 4,
      hostR .status, hostR .status, .engineTurn, hostR .status, hostW .cmd 5, hostR .status, .engineTurn, hostR .status,
      hostR .csumRes] := by decide +kernel

/-! ## Witnesses: a concrete state for the hypotheses of each statement, and for each clause at a boundary -/

theorem witness_DecodeFollowsTheOpcodeTable : (0x00000102 : Word) &&& 0xFF00FFFF ≠ 0x00000002 ∧
    (0xFFFF0003 : Word) &&& 0x0000FFFF = 0x00000003 ∧ (0x00FF0021 : Word) &&& 0xFF00FFFF = 0x00000021 := by decide
theorem witness_IllegalWordsAreTheCasesOfTheRule :
    (busyWith 0x06).EngineNext ∧ (busyWith 0x06).status.busy = true ∧ (busyWith 0x06).cmdl = 0x06 ∧
    decodeWord 0x06 = .error .unassignedOp := by decide
theorem witness_EncodeInvertsDecode : decodeWord 0xFFFF0003 = .ok (.csumWord 0xFFFF) := by decide
theorem witness_StepRunsTheLatchedCommand :
    ((busyWith 0x10).faults = [] ∧ (busyWith 0x10).status.busy = true ∧ decodeWord (busyWith 0x10).cmdl = .ok .decode) ∧
    (busyWith 0x10).env.inputs = [] ∧ (withInputs (busyWith 0x10) [.engineTurn]).env.inputs.head? = some .engineTurn := by decide
theorem witness_IllegalWordChangesOnlyStatus :
    (busyWith 0x00000204).faults = [] ∧ (busyWith 0x00000204).status.busy = true ∧
    (∀ r ∈ opTable, (busyWith 0x00000204).cmdl &&& r.mask ≠ r.pattern) ∧ (busyWith 0x00000204).env.inputs = [] ∧
    (withInputs (busyWith 0x00000204) [.engineTurn]).env.inputs.head? = some .engineTurn := by decide
theorem witness_EngineStepClearsBusy : (busyWith 0x32).EngineNext ∧ (busyWith 0x32).status.busy = true := by decide
theorem witness_IdleEngineWaits : State.reset.EngineNext ∧ State.reset.status.busy = false := by decide
theorem witness_IdleLatchIsUnobservable : SameButIdleLatch { State.reset with cmdl := 7 } State.reset := by
  exact ⟨rfl, fun h => by cases h⟩
/-- Any completed command, a failed one and one of each writer is a witness for the statements about next states. -/
theorem witness_ErrorsChangeOnlyStatus : ∃ t, exec .logPop State.reset = .next t ∧ t.status.err ≠ .ok :=
  ⟨_, rfl, by decide⟩
theorem witness_EngineWritesOnlyTxbuf :
    exec .nop State.reset = .next (State.reset.finish 0 .ok) ∧
    ∃ t, exec .encode (encoding 8 0 0 0 0 []) = .next t ∧ t.mem ≠ (encoding 8 0 0 0 0 []).mem :=
  ⟨rfl, _, rfl, by decide +kernel⟩
theorem witness_RegistersHaveTheirWriters :
    ∃ t, exec (.csumByte 1) State.reset = .next t ∧ (Instr.csumByte 1) ≠ .sreset ∧ t.csum.acc ≠ State.reset.csum.acc :=
  ⟨_, rfl, by decide, by decide⟩
theorem witness_LogIsAFifo :
    ∃ t, exec .logPop fullLog = .next t ∧ fullLog.log.length ≤ fullLog.logDepth.toNat ∧ t.log.length = 15 :=
  ⟨_, rfl, by decide, by decide⟩
/-- The range that ends at 65536, and the one that ends one byte further. -/
theorem witness_CsumBufAddsTheRange :
    (withArg 0xFFFF 1).arg.off.toNat + (withArg 0xFFFF 1).arg.len.toNat = 65536 ∧
    (withArg 0xFFFF 2).arg.off.toNat + (withArg 0xFFFF 2).arg.len.toNat = 65537 := by decide
theorem witness_CsumByteAddsByParity :
    (0x01000002 : Word).extractLsb' 0 8 = 0x02 ∧ (0x01000002 : Word).extractLsb' 24 8 ≠ 0 := by decide
theorem witness_ChecksumIsTheWordSum : 0 % 2 = 0 ∧ 0 + 1 < (bytes [1, 2]).length := by decide
/-- PROG-1's two ranges, an odd one first. -/
def feeds : List Feed :=
  let m := (State.reset.writeBuf .rx 0 (bytes [0x00, 0x01, 0xF2, 0x03, 0xF4, 0xF5, 0xF6, 0xF7])).mem
  [⟨⟨0, 3⟩, m, .csumBuf .rx⟩, ⟨⟨3, 5⟩, m, .csumBuf .rx⟩]
/-- Those, a range that ends at 65536, and a byte and a word beside a range past the end; PROG-1's accumulator. -/
theorem witness_StreamingEqualsWholeBuffer :
    (∀ f ∈ feeds ++ [⟨⟨0xFFFF, 1⟩, [], .csumBuf .tx⟩, ⟨⟨0xFFFF, 2⟩, [], .csumByte 1⟩, ⟨⟨0xFFFF, 2⟩, [], .csumWord 2⟩],
      addsToStream f.command = true ∧ ∀ b, f.command = .csumBuf b → f.arg.off.toNat + f.arg.len.toNat ≤ 65536) ∧
    (runFeeds feeds State.reset).map (fun s => (s.csum.acc, s.csum.par)) = some (0x0002DDF0, false) := by
  refine ⟨fun f hf => ?_, by decide +kernel⟩
  simp only [feeds, List.cons_append, List.nil_append, List.mem_cons, List.not_mem_nil, or_false] at hf
  rcases hf with rfl | rfl | rfl | rfl | rfl <;> exact ⟨rfl, fun b h => by first | decide | cases h⟩
theorem witness_ChecksumSelfConsistent : 2 % 2 = 0 ∧ 2 + 1 < (cap2.drop 20).length ∧ (cap2.drop 20).length ≤ 131074 := by
  decide
/-- Each outcome of DECODE, at the boundaries of its range: 27 and 28 bytes of a 20-byte header, and a 16-byte header. -/
theorem witness_DecodeFollowsItsSteps :
    (capture (cap4.take 27) 3).capLen.toNat < declaredHlen (capture (cap4.take 27) 3) + 8 ∧
    declaredHlen (capture (outer 0x44 1 ++ cap2.drop 20) 3) < 20 ∧
    (20 ≤ declaredHlen (capture (outer 0x45 6 ++ cap2.drop 20) 3) ∧
      declaredHlen (capture (outer 0x45 6 ++ cap2.drop 20) 3) + 8 ≤ (capture (outer 0x45 6 ++ cap2.drop 20) 3).capLen.toNat ∧
      (capture (outer 0x45 6 ++ cap2.drop 20) 3).byteAt 9 ≠ 1) ∧
    (20 ≤ declaredHlen (capture cap4 3) ∧ declaredHlen (capture cap4 3) + 8 = (capture cap4 3).capLen.toNat ∧
      (capture cap4 3).byteAt 9 = (capture cap4 3).expProto) := by decide +kernel
/-- The largest frame without a fixed size, and the smallest fixed size that fits. -/
theorem witness_EncodeBuildsTheFrame :
    (8 + (encoding 8 0 0 0xFFF7 0 []).enc.plen.toNat ≤ 0xFFFF ∧ (encoding 8 0 0 0xFFF7 0 []).enc.fsize = 0 ∧
      0xFFFF = 8 + (encoding 8 0 0 0xFFF7 0 []).enc.plen.toNat) ∧
    ((encoding 8 0 0 4 12 []).enc.fsize ≠ 0 ∧ 12 = (encoding 8 0 0 4 12 []).enc.fsize.toNat ∧
      8 + (encoding 8 0 0 4 12 []).enc.plen.toNat ≤ 12) := by decide
/-- Either cause of ENC_TOO_LARGE, one byte past its boundary. -/
theorem witness_EncodeRejectsTooLarge :
    0xFFFF < 8 + (encoding 8 0 0 0xFFF8 0 []).enc.plen.toNat ∧
    ((encoding 8 0 0 4 11 []).enc.fsize ≠ 0 ∧ (encoding 8 0 0 4 11 []).enc.fsize.toNat < 8 + (encoding 8 0 0 4 11 []).enc.plen.toNat) := by
  decide
/-- An 8-byte frame encoded from `s`, and the same 8 bytes behind an outer header. -/
theorem witness_EncodeThenDecodeRoundTrip :
    ∃ t, exec .encode (encoding 8 0xBEEF 0xFFFF 0 0 []) = .next t ∧ t.status.err = .ok ∧
      (capture cap4 3).capLen.toNat = 20 + t.tx.len.toNat ∧ ((capture cap4 3).byteAt 0).toNat % 16 = 5 ∧
      (capture cap4 3).byteAt 9 = (capture cap4 3).expProto ∧ (capture cap4 3).ctrl.csumVerify = true ∧
      ∀ k < t.tx.len.toNat, (capture cap4 3).bufByte .rx (20 + k) = t.bufByte .tx k :=
  ⟨_, rfl, by decide +kernel⟩
theorem witness_EntByteCountsOneByte : (withCount 0xFFFE).ent.n ≠ 0xFFFF ∧ (withCount 0xFFFF).ent.n = 0xFFFF ∧
    (0x01000021 : Word).extractLsb' 0 8 = 0x21 ∧ (0x01000021 : Word).extractLsb' 24 8 ≠ 0 := by decide
/-- ENT_N + LEN at 0xFFFF and one more; OFF + LEN at 65536 and one more. -/
theorem witness_EntBufCountsTheRange :
    ((withArg 0xFFFF 1).arg.off.toNat + (withArg 0xFFFF 1).arg.len.toNat = 65536 ∧
      (withCount 0xFFFE).ent.n.toNat + (withArg 0xFFFF 1).arg.len.toNat = 0xFFFF) ∧
    (withArg 0xFFFF 2).arg.off.toNat + (withArg 0xFFFF 2).arg.len.toNat = 65537 ∧
    (withCount 0xFFFF).ent.n.toNat + (withArg 0xFFFF 1).arg.len.toNat = 0x10000 := by decide
theorem witness_ScoreIsTheLargestAdmitted : (counts Ent.cleared.hist).sum = 0 ∧
    0 < (counts (bumpAll Ent.cleared.hist [0x41])).sum := by decide +kernel
/-- A histogram of two values once each, whose entropy is 1, with thresholds and a length floor. -/
def twoValues (high low floor : Half) : State :=
  { State.reset.count [0, 1] with th := { high := high, low := low, floor := floor } }
theorem witness_entropy_of_two_values (high low floor : Half) :
    realEntropy (counts (twoValues high low floor).ent.hist) = 1 := by
  have h : counts (twoValues high low floor).ent.hist = 1 :: 1 :: List.replicate 254 0 := by
    change counts (State.reset.count [0, 1]).ent.hist = _
    decide +kernel
  rw [h]
  norm_num [realEntropy, List.sum_replicate, Real.logb_div, Real.logb_one]
/-- Each verdict clause of CLASSIFY next to its boundary, H = 1: just above TH_HIGH; at TH_HIGH, just below TH_LOW and one
byte over the floor; at TH_LOW; at the floor. -/
theorem witness_ClassifyFollowsRealEntropy :
    (((twoValues 0x0FFF 0 0).th.high.toNat : ℝ) / 4096 < realEntropy (counts (twoValues 0x0FFF 0 0).ent.hist)) ∧
    (realEntropy (counts (twoValues 0x1000 0x1001 1).ent.hist) ≤ ((twoValues 0x1000 0x1001 1).th.high.toNat : ℝ) / 4096 ∧
      realEntropy (counts (twoValues 0x1000 0x1001 1).ent.hist) < ((twoValues 0x1000 0x1001 1).th.low.toNat : ℝ) / 4096 ∧
      (twoValues 0x1000 0x1001 1).th.floor.toNat < (twoValues 0x1000 0x1001 1).ent.n.toNat) ∧
    ¬ realEntropy (counts (twoValues 0x1000 0x1000 1).ent.hist) < ((twoValues 0x1000 0x1000 1).th.low.toNat : ℝ) / 4096 ∧
    ¬ (twoValues 0x1000 0x1001 2).th.floor.toNat < (twoValues 0x1000 0x1001 2).ent.n.toNat := by
  simp only [witness_entropy_of_two_values]
  have h : ∀ x y z : Half, (twoValues x y z).th = ⟨x, y, z⟩ := fun _ _ _ => rfl
  have hn : ∀ x y z : Half, (twoValues x y z).ent.n = 2 := fun _ _ _ => by
    change (State.reset.count [0, 1]).ent.n = 2
    decide +kernel
  simp only [h, hn, show BitVec.toNat (0x0FFF : Half) = 4095 from rfl, show BitVec.toNat (0x1000 : Half) = 4096 from rfl,
    show BitVec.toNat (0x1001 : Half) = 4097 from rfl, show BitVec.toNat (1 : Half) = 1 from rfl,
    show BitVec.toNat (2 : Half) = 2 from rfl]
  norm_num
/-- The verdicts CLASSIFY gives those states: SuspiciousHigh, SuspiciousLow, and Benign twice. -/
theorem test_entClassify_boundaries :
    [twoValues 0x0FFF 0 0, twoValues 0x1000 0x1001 1, twoValues 0x1000 0x1000 1, twoValues 0x1000 0x1001 2].map
      (fun s => regsAfter .entClassify s [.entResult]) =
    [some [0x80011000], some [0x80021000], some [0x80001000], some [0x80001000]] := by decide +kernel
theorem witness_ScoreExtremes : (0xFFFF : Nat) ≤ 0xFFFF ∧ (1 : Half) ≠ 0 := by decide
theorem witness_ProcessStopsOnFullLog : fullLog.log.length = fullLog.logDepth.toNat := by decide
/-- Both kinds of failed decode, with room in the log. -/
theorem witness_ProcessDropsMalformedFrames :
    ((capture (cap2.take 27) 0xB).log.length ≠ (capture (cap2.take 27) 0xB).logDepth.toNat ∧
      (capture (cap2.take 27) 0xB).decodeFrame.dres = .truncated) ∧
    (capture (outer 0x45 6 ++ cap2.drop 20) 3).decodeFrame.dres = .wrongProto := by decide +kernel
theorem witness_ProcessObserves :
    (capture cap4 1).log.length ≠ (capture cap4 1).logDepth.toNat ∧ (capture cap4 1).decodeFrame.dres = .ok ∧
    (capture cap4 1).ctrl.mode = .observe := by decide +kernel
theorem witness_ProcessBlocksSuspiciousFrames :
    (capture capLow 5).log.length ≠ (capture capLow 5).logDepth.toNat ∧ (capture capLow 5).decodeFrame.dres = .ok ∧
    (capture capLow 5).ctrl.mode ≠ .observe ∧ (frameEnt (capture capLow 5)).verdict ≠ .benign := by decide +kernel
theorem witness_ProcessPassesBenignFrames :
    (capture cap4 3).log.length ≠ (capture cap4 3).logDepth.toNat ∧ (capture cap4 3).decodeFrame.dres = .ok ∧
    (capture cap4 3).ctrl.mode = .passive ∧ (frameEnt (capture cap4 3)).verdict = .benign := by decide +kernel
theorem witness_ProcessRepliesToBenignFrames :
    (capture cap2 5).log.length ≠ (capture cap2 5).logDepth.toNat ∧ (capture cap2 5).decodeFrame.dres = .ok ∧
    (capture cap2 5).ctrl.mode = .active ∧ (frameEnt (capture cap2 5)).verdict = .benign := by decide +kernel
/-- A state whose DEC_PAY points to the bytes of `p` at RX[28]. -/
def paid (p : List Byte) : State :=
  ({ State.reset with dec := { Dec.cleared with off := 28, len := BitVec.ofNat 16 p.length } } : State).writeBuf .rx 28 p
/-- The empty and an all-blank payload; one nonblank byte, first and last at once, between blanks. -/
theorem witness_TrimIsTheNonSpaceSpan :
    (paid []).trim = (28, 0) ∧ (paid (bytes [0x20, 9, 13, 10])).trim = (28, 0) ∧
    (paid (bytes [0x20, 0x68, 0x0A])).trim = (29, 1) ∧ (paid (bytes [0x68, 0x20, 0x69])).trim = (28, 3) := by decide +kernel
theorem witness_LogPopRemovesTheHead : fullLog.log = ⟨1, 2, 3, 4⟩ :: fullLog.log.tail ∧ State.reset.log = [] ∧
    fullLog.log.length ≤ 255 ∧
    [RegName.logW0, .logW1, .logW2, .logW3].map fullLog.readNamed = [1, 2, 3, 4] := by decide
/-- Each cause of a bus error at its boundary, idle and busy. -/
theorem witness_BusErrorsChangeNothing :
    ((withInputs State.reset [.access (.read 0x20800 .w4)]).HostNext (.read 0x20800 .w4) ∧ IsBusError 0x20800 .w4) ∧
    IsBusError 0x1FFFF .w2 ∧ IsBusError 0x207FC .w2 ∧ IsBusError 0x207FE .w4 ∧ ¬ IsBusError 0x207FC .w4 ∧
    ¬ IsBusError 0x1FFFF .w1 ∧
    (withInputs (busyWith 0) [hostW8 0x20000 1]).HostNext (.write 0x20000 .w1 1) := by
  unfold IsBusError
  decide
/-- The last word and the last byte of the buffers. -/
theorem witness_BufferAccessesMoveTheirLanes :
    ((withInputs State.reset [hostW32 0x1FFFC 5]).HostNext (.write 0x1FFFC .w4 5) ∧
      (withInputs State.reset [hostW32 0x1FFFC 5]).status.busy = false ∧
      (0x1FFFC : Addr).toNat < 0x20000 ∧ (0x1FFFC : Addr).toNat % Width.bytes .w4 = 0) ∧
    (withInputs State.reset [.access (.read 0x1FFFF .w1)]).HostNext (.read 0x1FFFF .w1) := by decide
theorem witness_EngineSeesByteSwappedHalf :
    (withInputs State.reset [hostW32 0x0FFFC 5]).HostNext (.write 0x0FFFC .w4 5) ∧ State.reset.status.busy = false ∧
    (0x0FFFC : Addr).toNat < 0x10000 ∧ (0x0FFFC : Addr).toNat % 4 = 0 := by decide
/-- The first and the last register and counter, and the reserved offsets beside them. -/
theorem witness_RegisterWindowReads :
    (withInputs State.reset [hostR .logW3]).HostNext (.read 0x200BC .w4) ∧
    (∃ w, (RegName.logW3, 0x0BC, w) ∈ windowTable State.reset) ∧ (0x207FC : Addr).toNat = 0x20400 + 4 * (0xFF : Byte).toNat ∧
    (∀ p ∈ windowTable State.reset, (0x203FC : Addr).toNat ≠ 0x20000 + p.2.1) ∧
    (∀ p ∈ windowTable State.reset, (0x200C0 : Addr).toNat ≠ 0x20000 + p.2.1) ∧
    (∀ p ∈ windowTable State.reset, (0x20018 : Addr).toNat ≠ 0x20000 + p.2.1) :=
  ⟨by decide, ⟨0, by decide⟩, by decide, by decide, by decide, by decide⟩
/-- The table names every register, in the order of the map, once. -/
theorem witness_windowTable_complete (s : State) : (windowTable s).map Prod.fst = RegName.all ∧
    ∀ r : RegName, r ∈ RegName.all := ⟨rfl, fun r => by cases r <;> decide⟩
theorem witness_RegisterWindowWrites :
    ((withInputs State.reset [hostW .lenFloor 7]).HostNext (.write 0x20088 .w4 7) ∧
      (RegName.lenFloor, 0x088, 0x0000FFFF) ∈ writableBits) ∧
    (writeTable State.reset 7).map Prod.fst = writableBits.map (fun q => q.2.1) ∧
    (∀ q ∈ writableBits, (0x20004 : Addr).toNat ≠ 0x20000 + q.2.1) ∧
    (∀ q ∈ writableBits, (0x2008C : Addr).toNat ≠ 0x20000 + q.2.1) ∧
    (∀ q ∈ writableBits, (0x207FC : Addr).toNat ≠ 0x20000 + q.2.1) := by decide
theorem witness_CtrlWriteKeepsALegalMode :
    (withInputs State.reset [hostW .ctrl 7]).HostNext (.write 0x20008 .w4 7) ∧ (7 : Word) &&& 6 = 6 ∧ (5 : Word) &&& 6 ≠ 6 := by
  decide
theorem witness_CmdWriteLatches :
    (withInputs State.reset [hostC .process]).HostNext (.write 0x20000 .w4 0x30) ∧
    (withInputs (busyWith 0) [hostC .process]).HostNext (.write 0x20000 .w4 0x30) ∧ (busyWith 0).status.busy = true ∧
    (withInputs State.reset [hostR .cmd]).HostNext (.read 0x20000 .w4) := by decide
theorem witness_ReadsWhileBusyAreDraws :
    ((withInputs (busyWith 0) [hostR .status]).HostNext (.read 0x20004 .w4) ∧ ¬ IsBusError 0x20004 .w4) ∧
    ((withInputs (busyWith 0) [.access (.read 0x00000 .w1)]).HostNext (.read 0x00000 .w1) ∧ ¬ IsBusError 0x00000 .w1) := by
  unfold IsBusError
  decide
theorem witness_WriteWhileBusyRefutesTheRun :
    ((withInputs (busyWith 0) [hostW8 0 1]).HostNext (.write 0 .w1 1) ∧ ¬ IsBusError 0 .w1) ∧
    (Fault.writeWhileBusy ∈ (State.reset.markFault .writeWhileBusy).faults ∧
      (State.reset.markFault .writeWhileBusy).env.inputs.head? ≠ some .hardReset) := by
  unfold IsBusError
  decide
theorem witness_HardResetAtAnyTime : (withInputs (busyWith 0x30) [.hardReset]).env.inputs.head? = some .hardReset := by decide
theorem witness_EveryStepKeepsTheInvariant :
    (busyWith 0x05).Inv ∧ ∃ t, step (busyWith 0x05) = .next t :=
  ⟨{ mem := Memory.wf_nil
     count := by decide +kernel
     score := fun h => by cases h
     log := by decide
     depth := by decide
     fstate := by decide
     dec := by constructor <;> decide
     faults := by decide }, _, rfl⟩

/-- The opcode table as the spec prints it (R104). -/
theorem test_opTable : opTable.map (fun r => (r.pattern, r.mask)) =
    [(0x00000000, 0xFFFFFFFF), (0x00000001, 0xFFFFFFFF), (0x00000002, 0xFF00FFFF), (0x00000003, 0x0000FFFF),
     (0x00000004, 0xFFFFFEFF), (0x00000005, 0xFFFFFFFF), (0x00000010, 0xFFFFFFFF), (0x00000011, 0xFFFFFFFF),
     (0x00000020, 0xFFFFFFFF), (0x00000021, 0xFF00FFFF), (0x00000022, 0xFFFFFEFF), (0x00000023, 0xFFFFFFFF),
     (0x00000030, 0xFFFFFFFF), (0x00000031, 0xFFFFFFFF), (0x000000FF, 0xFFFFFFFF)] := by decide

end Sys2Proof.Tests
end

section
/-! The reset state against the reset table (70_reset_and_hazards.md R280). -/

namespace Sys2Proof.Machine

open Sys2Proof

/-- Every counter of a cleared entropy unit reads 0 (R53, R184). -/
theorem State.readReg_hist_of_cleared {s : State} (h : s.ent = Ent.cleared) (v : Byte) : s.readReg (.hist v) = 0 := by
  have zero : s.ent.hist[v.toNat]'v.isLt = 0 := by simp [h, Ent.cleared]
  exact (congrArg lowHalf zero).trans (by decide)

/-- The reset state is at the reset table (R60, R280). -/
theorem atResetTable_reset : AtResetTable State.reset := by
  have table : ∀ p ∈ resetTable, State.reset.readNamed p.1 = p.2 := by decide
  exact ⟨table, State.readReg_hist_of_cleared rfl, rfl⟩

/-- Settles O54: beside the table, STATUS reads 0, so no command is pending, and FAULT is empty. -/
theorem resetIsTheTable : Obligations.ResetIsTheTable := by
  have status : State.reset.readNamed .status = 0 := by decide
  exact ⟨atResetTable_reset, status, rfl, rfl⟩

end Sys2Proof.Machine
end

section
/-! The host's side of an idle block: the bytes a buffer access moves (20_memory.md R74). -/

namespace Sys2Proof.Machine

open Sys2Proof

/-- An aligned buffer access gets no bus error (R77). -/
theorem busOk_aligned_buffer {a : Addr} {w : Width} (ha : a.toNat < Config.regBase) (hw : a.toNat % w.bytes = 0) :
    busOk a w = true := by
  simp [busOk, regionOf, ha, hw]

/-- Lane `k` of a data word is its bits `[8k+7:8k]` (R74). -/
theorem getElem_lanes (w : Width) (v : Word) (k : Nat) (h : k < (lanes w v).length) :
    (lanes w v)[k] = v.extractLsb' (8 * k) 8 := by
  rw [length_lanes] at h
  cases w with
  | w1 => match k, h with
    | 0, _ => rfl
  | w2 => match k, h with
    | 0, _ | 1, _ => rfl
  | w4 => match k, h with
    | 0, _ | 1, _ | 2, _ | 3, _ => rfl

/-- A byte of the lanes just stored. -/
theorem State.byteAt_writeAt_lanes (s : State) (a : Nat) {w : Width} (v : Word) {k : Nat} (hk : k < w.bytes) :
    (s.writeAt a (lanes w v)).byteAt (a + k) = v.extractLsb' (8 * k) 8 := by
  rw [State.byteAt_writeAt, dif_pos (by simp [hk]), getElem_lanes, Nat.add_sub_cancel_left]

/-- The value of the data word read: each byte at its lane's weight, the unused upper bits 0 (R74). -/
theorem State.toNat_readLanes (s : State) (a : Nat) (w : Width) :
    (s.readLanes a w).toNat = ((List.range w.bytes).map fun k => (s.byteAt (a + k)).toNat * 256 ^ k).sum := by
  have h2 := toNat_append_eq (s.byteAt (a + 1)) (s.byteAt a)
  cases w with
  | w1 => exact (BitVec.toNat_setWidth_of_le (by decide)).trans (by simp [Width.bytes])
  | w2 =>
    refine (BitVec.toNat_setWidth_of_le (by decide)).trans (h2.trans ?_)
    simp [Width.bytes, List.sum_range_succ, Nat.add_comm]
  | w4 =>
    have h3 := toNat_append_eq (s.byteAt (a + 2)) (s.byteAt (a + 1) ++ s.byteAt a)
    refine (toNat_append_eq (s.byteAt (a + 3)) (s.byteAt (a + 2) ++ (s.byteAt (a + 1) ++ s.byteAt a))).trans ?_
    rw [h3, h2]
    simp [Width.bytes, List.sum_range_succ, Nat.add_comm]

/-- Settles O46: an idle block performs an aligned buffer access, and its lanes are the bytes moved. -/
theorem bufferAccessesMoveTheirLanes : Obligations.BufferAccessesMoveTheirLanes := by
  intro s a w hb ha hw
  have hok : busOk a w = true := busOk_aligned_buffer ha hw
  refine ⟨fun v ⟨hf, hi⟩ => ?write, fun ⟨hf, hi⟩ => ?read⟩
  case write =>
    refine ⟨(s.takeInput.writeAt a.toNat (lanes w v)).observe (.write a w v) .written, ?_, rfl,
      fun k hk => s.takeInput.byteAt_writeAt_lanes a.toNat v hk,
      fun b hout => s.takeInput.byteAt_writeAt_outside (by rwa [length_lanes])⟩
    rw [step_access hf hi, s.takeInput.hostAccess_write_idle hok hb, State.writeData_buffer _ ha]
  case read =>
    rw [step_access hf hi, s.takeInput.hostAccess_read_value hok (State.readIsDraw_idle hb a),
      State.readData_buffer _ ha, ← s.toNat_readLanes a.toNat w, BitVec.ofNat_toNat, BitVec.setWidth_eq]
    rfl

end Sys2Proof.Machine
end

section
/-! Which words name which command (30_encoding.md R101-R106): the fields a row of the opcode table asks for, and the
decoder, the encoding's rule of legality and the table as three descriptions of them. -/

namespace Sys2Proof

/-- One command of each row of the opcode table, in its order (R104). -/
def Instr.ofEachRow : List Instr :=
  [.nop, .csumClr, .csumByte 0, .csumWord 0, .csumBuf .rx, .csumFin, .decode, .encode, .entClr, .entByte 0, .entBuf .rx,
   .entClassify, .process, .logPop, .sreset]

/-- The command of the same row whose operands are read from the fields (R102). -/
def Instr.withOperands (f : CmdFields) : Instr → Instr
  | .csumByte _ => .csumByte (f.imm.extractLsb' 0 8)
  | .entByte _ => .entByte (f.imm.extractLsb' 0 8)
  | .csumWord _ => .csumWord f.imm
  | .csumBuf _ => .csumBuf (Buf.ofBsel f.bsel)
  | .entBuf _ => .entBuf (Buf.ofBsel f.bsel)
  | i => i

/-- BSEL and IMM are 0 where the command's row has no operand in them (R101, R105). -/
def CmdFields.OperandsFit (f : CmdFields) : Instr → Prop
  | .csumByte _ | .entByte _ => f.bsel = false ∧ f.imm.extractLsb' 8 8 = 0
  | .csumWord _ => f.bsel = false
  | .csumBuf _ | .entBuf _ => f.imm = 0
  | _ => f.bsel = false ∧ f.imm = 0

/-- The fields name the command's row (R104, R105). -/
def CmdFields.Names (f : CmdFields) (i : Instr) : Prop := f.op = i.opcode ∧ f.rsv = 0 ∧ f.OperandsFit i

/-- Naming a row does not depend on the operands. -/
theorem CmdFields.names_withOperands (f : CmdFields) (i : Instr) : f.Names (i.withOperands f) ↔ f.Names i := by
  cases i <;> exact Iff.rfl

/-! ### The decoder -/

theorem decodePlain_eq_ok {i j : Instr} {f : CmdFields} :
    decodePlain i f = .ok j ↔ (f.bsel = false ∧ f.imm = 0) ∧ i = j := by
  unfold decodePlain
  split_ifs with hb hi <;> simp_all

theorem decodeImm8_eq_ok {mk : Byte → Instr} {j : Instr} {f : CmdFields} :
    decodeImm8 mk f = .ok j ↔ (f.bsel = false ∧ f.imm.extractLsb' 8 8 = 0) ∧ mk (f.imm.extractLsb' 0 8) = j := by
  unfold decodeImm8
  split_ifs with hb hi <;> simp_all

theorem decodeImm16_eq_ok {mk : Half → Instr} {j : Instr} {f : CmdFields} :
    decodeImm16 mk f = .ok j ↔ f.bsel = false ∧ mk f.imm = j := by
  unfold decodeImm16
  split_ifs with hb <;> simp_all

theorem decodeBsel_eq_ok {mk : Buf → Instr} {j : Instr} {f : CmdFields} :
    decodeBsel mk f = .ok j ↔ f.imm = 0 ∧ mk (Buf.ofBsel f.bsel) = j := by
  unfold decodeBsel
  split_ifs with hi <;> simp_all

/-- On an assigned OP the opcode map checks the row's operands and reads them (R104). -/
theorem decodeOp_eq_ok_of_opcode {f : CmdFields} {i j : Instr} (ho : f.op = i.opcode) :
    decodeOp f = .ok j ↔ f.OperandsFit i ∧ i.withOperands f = j := by
  have e : f.op.toNat = i.opcode.toNat := congrArg _ ho
  unfold decodeOp
  cases i with
  | csumByte | entByte => rw [e]; exact decodeImm8_eq_ok
  | csumWord => rw [e]; exact decodeImm16_eq_ok
  | csumBuf | entBuf => rw [e]; exact decodeBsel_eq_ok
  | _ => rw [e]; exact decodePlain_eq_ok

/-- OP is assigned exactly when some command has it (R104). -/
theorem CmdFields.opOk_iff (f : CmdFields) : f.opOk = true ↔ ∃ i : Instr, f.op = i.opcode := by
  have table : assignedOps = Instr.ofEachRow.map Instr.opcode := rfl
  simp only [opOk, List.contains_iff_mem, table, List.mem_map]
  constructor
  · rintro ⟨i, -, h⟩
    exact ⟨i, h.symm⟩
  · rintro ⟨i, h⟩
    rw [h, ← List.mem_map]
    cases i <;> simp [Instr.ofEachRow, Instr.opcode]

/-- An OP outside the table is unassigned (R106). -/
theorem decodeOp_unassigned {f : CmdFields} (h : f.opOk = false) : decodeOp f = .error .unassignedOp := by
  have lookup : f.opOk = CmdFields.assignedOps.contains (BitVec.ofNat 8 f.op.toNat) := by simp [CmdFields.opOk]
  unfold decodeOp
  split
  case h_16 => rfl
  all_goals
    rename_i ho
    rw [lookup, ho] at h
    exact absurd h (by decide)

/-- Reading the operands a second time changes nothing. -/
theorem Instr.withOperands_idem (f : CmdFields) (i : Instr) : (i.withOperands f).withOperands f = i.withOperands f := by
  cases i <;> rfl

/-- The decoder answers a command exactly when the fields name its row and its operands are those of the fields (R104). -/
theorem decodeFields_eq_ok_iff {f : CmdFields} {i : Instr} :
    decodeFields f = .ok i ↔ f.Names i ∧ i.withOperands f = i := by
  unfold decodeFields
  by_cases hr : f.rsv = 0
  case neg =>
    rw [if_pos hr]
    exact iff_of_false nofun fun ⟨⟨_, hr', _⟩, _⟩ => hr hr'
  rw [if_neg (not_not.mpr hr)]
  constructor
  · intro h
    cases hop : f.opOk with
    | false => rw [decodeOp_unassigned hop] at h; cases h
    | true =>
      obtain ⟨j, ho⟩ := f.opOk_iff.mp hop
      obtain ⟨hfit, rfl⟩ := (decodeOp_eq_ok_of_opcode ho).mp h
      exact ⟨(f.names_withOperands j).mpr ⟨ho, hr, hfit⟩, j.withOperands_idem f⟩
  · rintro ⟨⟨ho, -, hfit⟩, hi⟩
    exact (decodeOp_eq_ok_of_opcode ho).mpr ⟨hfit, hi⟩

/-! ### The rule of legality -/

/-- Whether the operands fit, by the conditions of R105. -/
theorem CmdFields.operandsFit_iff {f : CmdFields} {i : Instr} (ho : f.op = i.opcode) :
    f.OperandsFit i ↔ f.bselOk = true ∧ f.immOk = true ∧ f.immHighOk = true := by
  simp only [bselOk, immOk, immHighOk, ho]
  cases i <;> simp [OperandsFit, Instr.opcode, bselOps, imm8Ops, imm16Ops]

/-- The fields are well-formed exactly when they name some command's row (R105). -/
theorem CmdFields.wellFormed_iff (f : CmdFields) : f.wellFormed = true ↔ ∃ i, f.Names i := by
  simp only [wellFormed, Bool.and_eq_true, opOk_iff, Names]
  constructor
  · rintro ⟨⟨⟨⟨⟨i, ho⟩, hr⟩, hb⟩, hi⟩, hh⟩
    exact ⟨i, ho, by simpa [rsvOk] using hr, (operandsFit_iff ho).mpr ⟨hb, hi, hh⟩⟩
  · rintro ⟨i, ho, hr, hfit⟩
    obtain ⟨hb, hi, hh⟩ := (operandsFit_iff ho).mp hfit
    exact ⟨⟨⟨⟨⟨i, ho⟩, by simp [rsvOk, hr]⟩, hb⟩, hi⟩, hh⟩

/-! ### The opcode table -/

/-- A word has the fields of another exactly when it is that word. -/
theorem CmdFields.ofWord_inj {v w : Word} : CmdFields.ofWord v = CmdFields.ofWord w ↔ v = w :=
  ⟨fun h => by rw [← toWord_ofWord v, h, toWord_ofWord], congrArg _⟩

/-- Masking a word masks its fields. Every mask of the table keeps all of OP and RSV, and every match has no bit
outside OP (R104). -/
theorem and_eq_iff_fields {w m p : Word} {bsel : Bool} {imm : Half} {op : Byte}
    (hm : CmdFields.ofWord m = ⟨BitVec.allOnes 8, bsel, BitVec.allOnes 7, imm⟩)
    (hp : CmdFields.ofWord p = ⟨op, false, 0, 0⟩) : w &&& m = p ↔
      (CmdFields.ofWord w).op = op ∧ (CmdFields.ofWord w).rsv = 0 ∧
      ((CmdFields.ofWord w).bsel && bsel) = false ∧ (CmdFields.ofWord w).imm &&& imm = 0 := by
  have fields : CmdFields.ofWord (w &&& m) =
      ⟨(CmdFields.ofWord w).op &&& (CmdFields.ofWord m).op, (CmdFields.ofWord w).bsel && (CmdFields.ofWord m).bsel,
        (CmdFields.ofWord w).rsv &&& (CmdFields.ofWord m).rsv, (CmdFields.ofWord w).imm &&& (CmdFields.ofWord m).imm⟩ := by
    simp [CmdFields.ofWord, BitVec.extractLsb'_and]
  rw [← CmdFields.ofWord_inj, fields, hm, hp, BitVec.and_allOnes, BitVec.and_allOnes, CmdFields.mk.injEq]
  tauto

/-- A half word is 0 exactly when both its bytes are. -/
theorem half_eq_zero_iff (x : Half) : x = 0 ↔ x.extractLsb' 8 8 = 0 ∧ x.extractLsb' 0 8 = 0 := by
  have high := toNat_slice x 8 8
  have low := toNat_slice x 0 8
  simp only [← BitVec.toNat_inj, high, low, BitVec.ofNat_eq_ofNat, BitVec.toNat_ofNat]
  omega

/-- The part of IMM that the mask of a byte command keeps (R104). -/
theorem and_highByte_eq_zero (x : Half) : x &&& 0xFF00 = 0 ↔ x.extractLsb' 8 8 = 0 := by
  have high : (0xFF00 : Half).extractLsb' 8 8 = BitVec.allOnes 8 := by decide
  have low : (0xFF00 : Half).extractLsb' 0 8 = 0 := by decide
  rw [half_eq_zero_iff, BitVec.extractLsb'_and, BitVec.extractLsb'_and, high, low, BitVec.and_allOnes]
  simp

/-- The match of a row is its OP byte (R104). -/
theorem Instr.ofWord_pattern (i : Instr) : CmdFields.ofWord i.row.pattern = ⟨i.opcode, false, 0, 0⟩ := by
  cases i <;> simp only [Instr.row, Instr.opcode] <;> decide

/-- The mask and match columns of a row select the words whose fields name it (R104). -/
theorem Instr.row_selects_iff (w : Word) (i : Instr) :
    w &&& i.row.mask = i.row.pattern ↔ (CmdFields.ofWord w).Names i := by
  have fields {bsel imm} (hm : CmdFields.ofWord i.row.mask = ⟨BitVec.allOnes 8, bsel, BitVec.allOnes 7, imm⟩) :=
    and_eq_iff_fields (w := w) hm i.ofWord_pattern
  unfold CmdFields.Names
  cases i with
  | csumByte | entByte =>
    rw [fields (bsel := true) (imm := 0xFF00) (by simp only [Instr.row]; decide), and_highByte_eq_zero]
    simp [CmdFields.OperandsFit]
  | csumBuf | entBuf =>
    rw [fields (bsel := false) (imm := BitVec.allOnes 16) (by simp only [Instr.row]; decide), BitVec.and_allOnes]
    simp [CmdFields.OperandsFit]
  | csumWord =>
    rw [fields (bsel := true) (imm := 0) (by simp only [Instr.row]; decide)]
    simp [CmdFields.OperandsFit]
  | _ =>
    rw [fields (bsel := true) (imm := BitVec.allOnes 16) (by simp only [Instr.row]; decide), BitVec.and_allOnes]
    simp [CmdFields.OperandsFit]

/-- The rows of the table are the rows of the commands (R104). -/
theorem mem_opTable_iff {r : OpRow} : r ∈ opTable ↔ ∃ i : Instr, r = i.row := by
  have table : opTable = Instr.ofEachRow.map Instr.row := rfl
  rw [table, List.mem_map]
  constructor
  · rintro ⟨i, -, h⟩
    exact ⟨i, h.symm⟩
  · rintro ⟨i, rfl⟩
    rw [← List.mem_map]
    cases i <;> simp [Instr.ofEachRow, Instr.row]

/-- No row selects a word exactly when its fields name none. -/
theorem no_row_selects_iff (w : Word) :
    (∀ r ∈ opTable, w &&& r.mask ≠ r.pattern) ↔ ¬ ∃ i, (CmdFields.ofWord w).Names i := by
  simp [mem_opTable_iff, Instr.row_selects_iff]

/-! ### Words -/

/-- A row selects a word exactly when the word decodes to the row's command with the operands in its fields (R102, R104). -/
theorem row_selects_iff_decodeWord (w : Word) (i : Instr) :
    w &&& i.row.mask = i.row.pattern ↔ decodeWord w = .ok (i.withOperands (CmdFields.ofWord w)) := by
  rw [i.row_selects_iff, decodeWord, decodeFields_eq_ok_iff, CmdFields.names_withOperands, Instr.withOperands_idem,
    and_iff_left rfl]

/-- A word is illegal exactly when its fields name no row (R105). -/
theorem decodeWord_error_iff (w : Word) :
    (∃ e, decodeWord w = .error e) ↔ ¬ ∃ i, (CmdFields.ofWord w).Names i := by
  constructor
  · rintro ⟨e, he⟩ ⟨i, hi⟩
    rw [← i.row_selects_iff, row_selects_iff_decodeWord, he] at hi
    cases hi
  · intro h
    cases hd : decodeWord w with
    | error e => exact ⟨e, rfl⟩
    | ok i => exact absurd ⟨i, (decodeFields_eq_ok_iff.mp hd).1⟩ h

/-- IMM[7:0] is bits 23:16 (R101). -/
theorem CmdFields.ofWord_imm_low (w : Word) : (CmdFields.ofWord w).imm.extractLsb' 0 8 = w.extractLsb' 16 8 := by
  ext k hk
  simp [CmdFields.ofWord, show k < 16 by omega]

/-- Bit 8 selects the buffer (R101). -/
theorem Buf.ofBsel_ofWord (w : Word) : Buf.ofBsel (CmdFields.ofWord w).bsel = if w.getLsbD 8 then .tx else .rx := by
  simp only [CmdFields.ofWord]
  cases w.getLsbD 8 <;> rfl

/-- Settles O3: each clause is `row_selects_iff_decodeWord` for its row, with the operands as bits of the word. -/
theorem decodeFollowsTheOpcodeTable : Obligations.DecodeFollowsTheOpcodeTable := by
  intro w
  have row := row_selects_iff_decodeWord w
  rw [← CmdFields.ofWord_imm_low, ← Buf.ofBsel_ofWord]
  exact ⟨row .nop, row .csumClr, row (.csumByte 0), row (.csumWord 0), row (.csumBuf .rx), row .csumFin, row .decode,
    row .encode, row .entClr, row (.entByte 0), row (.entBuf .rx), row .entClassify, row .process, row .logPop, row .sreset⟩

namespace Machine

/-- The engine ends an illegal word with ILLEGAL and its OP byte (R242). -/
theorem engineStep_illegal {s : State} (hb : s.status.busy = true) {e : Illegal} (hd : decodeWord s.cmdl = .error e) :
    engineStep s = .next (s.finish (s.cmdl.extractLsb' 0 8) .illegal) := by
  rcases engineStep_cases s with ⟨hi, -⟩ | ⟨-, i, hi, -⟩ | ⟨-, -, he⟩
  · rw [hb] at hi; cases hi
  · rw [hd] at hi; cases hi
  · exact he

/-- Settles O4: the decoder, the conditions of R105 and the table all say whether the fields name a row. -/
theorem illegalWordsAreTheCasesOfTheRule : Obligations.IllegalWordsAreTheCasesOfTheRule := by
  intro w
  refine ⟨?fields, ?rows, ?step⟩
  case fields => rw [decodeWord_error_iff, ← CmdFields.wellFormed_iff, Bool.not_eq_true]
  case rows => rw [decodeWord_error_iff, no_row_selects_iff]
  case step =>
    rintro s ⟨hf, hi⟩ hb rfl ⟨e, hd⟩
    rw [step_noInput hf hi, engineStep_illegal hb hd]
    rfl

end Machine

end Sys2Proof
end

section
/-! The checksum over bytes (40_checksum.md R130-R136): AddByte and AddBytes as sums of naturals modulo 2^32, what the
commands do with them, and the words a byte string's sum is made of. -/

namespace Sys2Proof

/-- A byte command with a nonzero bit above its byte is illegal (R105). -/
theorem decodeWord_error_of_immHigh {w : Word} (ho : w.extractLsb' 0 8 ∈ CmdFields.imm8Ops)
    (hh : w.extractLsb' 24 8 ≠ 0) : ∃ e, decodeWord w = .error e := by
  have imm : (CmdFields.ofWord w).imm.extractLsb' 8 8 = w.extractLsb' 24 8 := by
    ext k hk
    simp [CmdFields.ofWord, show 8 + k < 16 by omega, ← Nat.add_assoc]
  have high : (CmdFields.ofWord w).immHighOk = false := by
    have op : (CmdFields.ofWord w).op ∈ CmdFields.imm8Ops := ho
    simpa [CmdFields.immHighOk, imm, op] using hh
  rw [decodeWord_error_iff, ← CmdFields.wellFormed_iff]
  simp [CmdFields.wellFormed, high]

namespace Machine

/-! ### AddByte and AddBytes -/

/-- AddByte adds the byte at its parity's weight, modulo 2^32, and flips the parity (R130, R138). -/
theorem addByte_eq (t : Word × Bool) (b : Byte) :
    addByte t b = (t.1 + BitVec.ofNat 32 (if t.2 then b.toNat else b.toNat * 256), !t.2) := by
  obtain ⟨acc, par⟩ := t
  cases par with
  | true =>
    have low : b.setWidth 32 = BitVec.ofNat 32 b.toNat := BitVec.eq_of_toNat_eq (by simp)
    exact (addByte_low acc b).trans (by rw [low]; rfl)
  | false =>
    have high : b.setWidth 32 <<< 8 = BitVec.ofNat 32 (b.toNat * 256) :=
      BitVec.eq_of_toNat_eq (by simp [Nat.shiftLeft_eq])
    exact (addByte_high acc b).trans (by rw [high]; rfl)

/-- An odd number of bytes flips the parity, an even number keeps it (R130). -/
theorem addBytes_par (t : Word × Bool) (bs : List Byte) :
    (addBytes t bs).2 = (t.2 ^^ decide (bs.length % 2 = 1)) := by
  induction bs generalizing t with
  | nil => simp
  | cons b bs ih =>
    rw [addBytes_cons, ih, addByte_eq, List.length_cons]
    rcases Nat.mod_two_eq_zero_or_one bs.length with h | h <;> simp [Nat.add_mod, h]

/-! ### The commands -/

/-- The bytes of a range, one by one, are its run (R11). -/
theorem slice_eq_bufBytes (s : State) (b : Buf) (off n : Nat) : slice s b off n = s.bufBytes b off n := by
  refine List.ext_getElem (by simp [slice]) fun i h1 h2 => ?_
  rw [State.getElem_bufBytes]
  simp [slice]

/-- Settles O18: CSUM.CLR has one end, which writes the two fields and STATUS. -/
theorem csumClrZeroesTheAccumulator : Obligations.CsumClrZeroesTheAccumulator := fun _ => rfl

/-- Settles O19: one AddByte, and the rule of legality for a byte immediate. -/
theorem csumByteAddsByParity : Obligations.CsumByteAddsByParity := by
  refine ⟨fun b s => ?next, fun w ho hh => decodeWord_error_of_immHigh (by rw [ho]; decide) hh⟩
  change Host.Outcome.next ((s.accumulate [b]).finish 0x02 .ok) = _
  rw [BitVec.ofNat_add, BitVec.ofNat_toNat, BitVec.setWidth_eq]
  simp only [State.accumulate, addBytes_cons, addBytes_nil, addByte_eq]
  rfl

/-- Settles O21: the two ends of CSUM.BUF; the parity after the range is that of its length. -/
theorem csumBufAddsTheRange : Obligations.CsumBufAddsTheRange := by
  intro b s
  rcases execCsumBuf_cases b s with ⟨hin, he⟩ | ⟨hout, he⟩
  · refine ⟨fun _ => he.trans ?_, fun hout => absurd hin (Nat.not_le.mpr hout)⟩
    have par := addBytes_par (s.csum.acc, s.csum.par) (s.argBytes b)
    rw [State.argBytes, State.length_bufBytes] at par
    rw [slice_eq_bufBytes, ← par]
    rfl
  · exact ⟨fun hin => absurd hin (Nat.not_le.mpr hout), fun _ => he⟩

/-! ### The word sum -/

/-- The sum of the big-endian 16-bit words of a byte string, a last odd byte zero-padded (R131). -/
def wordSum (bs : List Byte) : Nat :=
  ((List.range (bs.length / 2)).map fun i => (bs.getD (2 * i) 0).toNat * 256 + (bs.getD (2 * i + 1) 0).toNat).sum +
    if bs.length % 2 = 1 then (bs.getD (bs.length - 1) 0).toNat * 256 else 0

@[simp] theorem wordSum_nil : wordSum [] = 0 := rfl

@[simp] theorem wordSum_singleton (a : Byte) : wordSum [a] = a.toNat * 256 := by simp [wordSum]

/-- The first two bytes are the first word. -/
@[simp] theorem wordSum_cons_cons (a b : Byte) (bs : List Byte) :
    wordSum (a :: b :: bs) = a.toNat * 256 + b.toNat + wordSum bs := by
  have half : (bs.length + 1 + 1) / 2 = bs.length / 2 + 1 := by omega
  have odd : (bs.length + 1 + 1) % 2 = bs.length % 2 := by omega
  simp only [wordSum, List.length_cons, half, odd, List.range_succ_eq_map, List.map_cons, List.sum_cons, List.map_map]
  cases bs with
  | nil => simp
  | cons c bs => simp [Function.comp_def, Nat.mul_add, Nat.add_assoc]

/-- Two bytes from parity 0 are one big-endian word (R130). -/
theorem addByte_addByte (acc : Word) (a b : Byte) :
    addByte (addByte (acc, false) a) b = (acc + BitVec.ofNat 32 (a.toNat * 256 + b.toNat), false) := by
  simp [addByte_eq, BitVec.ofNat_add, BitVec.add_assoc]

/-- From parity 0, AddBytes adds the word sum modulo 2^32 (R131, R138). -/
theorem addBytes_even (acc : Word) (bs : List Byte) :
    (addBytes (acc, false) bs).1 = acc + BitVec.ofNat 32 (wordSum bs) := by
  induction bs using List.twoStepInduction generalizing acc with
  | nil => simp
  | singleton a => simp [addByte_eq]
  | cons_cons a b bs ih _ =>
    rw [addBytes_cons, addBytes_cons, addByte_addByte, ih, wordSum_cons_cons, BitVec.add_assoc, ← BitVec.ofNat_add]

/-- Reading a two-byte field as 0 (R131). -/
theorem set_pair_zero (bs : List Byte) {z : Nat} (hz : z + 1 < bs.length) :
    (bs.set z 0).set (z + 1) 0 = bs.take z ++ ([0, 0] ++ bs.drop (z + 2)) := by
  induction bs generalizing z with
  | nil => simp at hz
  | cons a bs ih =>
    cases z with
    | zero => cases bs with
      | nil => simp at hz
      | cons b bs => rfl
    | succ z => exact congrArg (a :: ·) (ih (Nat.lt_of_succ_lt_succ hz))

/-- Settles O23: from an empty accumulator AddBytes leaves the word sum; the field's two bytes are two `set`s. -/
theorem checksumIsTheWordSum : Obligations.ChecksumIsTheWordSum := by
  refine ⟨fun bs => ?_, fun bs z _ hz => congrArg checksum (set_pair_zero bs hz)⟩
  exact congrArg foldSum ((addBytes_even 0 bs).trans (BitVec.zero_add _))

end Machine

end Sys2Proof
end

section
/-! The decoder of frames (41_codec.md R150-R157): the header length, the two checks and the big-endian fields as the
capture's bytes give them. -/

namespace Sys2Proof.Machine

open Sys2Proof

/-! ### Big-endian fields -/

/-- The value of two bytes is that of the bytes joined, high first (R12). -/
theorem beValue_pair_eq_append (a b : Byte) : beValue [a, b] = (a ++ b).toNat :=
  (beValue_pair a b).trans (toNat_append_eq a b).symm

/-- The value of four bytes is that of their two halves joined (R12). -/
theorem beValue_quad_eq_append (a b c d : Byte) : beValue [a, b, c, d] = ((a ++ b) ++ (c ++ d)).toNat := by
  have weight : 256 ^ [c, d].length = 2 ^ (8 + 8) := by simp
  have split := beValue_append [a, b] [c, d]
  rw [beValue_pair_eq_append, beValue_pair_eq_append, weight] at split
  exact split.trans (toNat_append_eq (a ++ b) (c ++ d)).symm

/-- `RX[a]` is the byte at host address `a` (R72). -/
theorem State.rx_eq_byteAt (s : State) (a : Nat) : s.rx a = s.byteAt a := congrArg s.byteAt (Nat.zero_add a)

/-- A run of RXBUF is the run of bytes at the same host addresses (R72). -/
theorem State.bufBytes_rx (s : State) (a n : Nat) : s.bufBytes .rx a n = (List.range' a n).map s.byteAt := by
  rw [State.bufBytes, State.bytesAt_eq_map, bufBase, Nat.zero_add]

/-- MemRead of a 16-bit field of RXBUF (R12). -/
theorem State.rxHalf_eq (s : State) (a : Nat) : s.rxHalf a = rxField16 s a := by
  have value : s.memRead .rx a 2 = (rxField16 s a).toNat := by
    rw [State.memRead, State.bufBytes_rx]
    exact beValue_pair_eq_append _ _
  rw [State.rxHalf, value, BitVec.ofNat_toNat, BitVec.setWidth_eq]

/-- MemRead of a 32-bit register from RXBUF (R12). -/
theorem State.rxWord_eq (s : State) (a : Nat) : s.rxWord a = rxField32 s a := by
  have value : s.memRead .rx a 4 = (rxField32 s a).toNat := by
    rw [State.memRead, State.bufBytes_rx]
    exact beValue_quad_eq_append _ _ _ _
  rw [State.rxWord, value, BitVec.ofNat_toNat, BitVec.setWidth_eq]

/-! ### The header length and the two checks -/

/-- Step (1) of the decode finds the declared length (R152). -/
theorem State.frameHlen_eq (s : State) : s.frameHlen = declaredHlen s := by
  have empty : s.capLen = 0 ↔ s.capLen.toNat = 0 := BitVec.toNat_eq
  have low := toNat_slice (s.byteAt 0) 0 4
  unfold State.frameHlen State.frameIhl declaredHlen
  rw [State.rx_eq_byteAt]
  by_cases h : s.capLen = 0
  · rw [if_pos h, if_neg (by rw [empty.mp h]; decide)]
    rfl
  · rw [if_neg h, if_pos (Nat.one_le_iff_ne_zero.mpr (mt empty.mpr h)), low]
    simp

/-- The header-length field is the declared length in 32-bit words (R152). -/
theorem State.frameIhl_eq (s : State) : s.frameIhl = BitVec.ofNat 4 (declaredHlen s / 4) := by
  rw [← s.frameHlen_eq, State.frameHlen, Nat.mul_div_cancel_left _ (by decide), BitVec.ofNat_toNat, BitVec.setWidth_eq]

/-- Step (2) fails (R153). -/
theorem State.frameTruncated_iff (s : State) :
    s.frameTruncated = true ↔ declaredHlen s < 20 ∨ s.capLen.toNat < declaredHlen s + 8 := by
  rw [State.frameTruncated, Bool.or_eq_true, decide_eq_true_eq, decide_eq_true_eq, s.frameHlen_eq]

/-- Step (3) fails (R154). -/
theorem State.frameWrongProto_iff (s : State) : s.frameWrongProto = true ↔ s.byteAt 9 ≠ s.expProto := by
  rw [State.frameWrongProto, bne_iff_ne, State.rx_eq_byteAt]

/-! ### DECODE -/

/-- The recomputed checksum is that of the captured inner frame with its checksum field read as 0 (R157). -/
theorem State.frameChecksum_eq (s : State) :
    s.frameChecksum = checksumZ (slice s .rx (declaredHlen s) (s.capLen.toNat - declaredHlen s)) 2 := by
  rw [State.frameChecksum, State.innerFrame, s.frameHlen_eq, slice_eq_bufBytes]

/-- Settles O26: DECODE has one end, and each clause is one outcome of DecodeFrame. -/
theorem decodeFollowsItsSteps : Obligations.DecodeFollowsItsSteps := by
  intro s
  have ends {d : Dec} (h : s.decodeFrame = d) :
      exec .decode s = .next { s with dec := d, status := endStatus 0x10 .ok } := by
    subst h
    rfl
  have whole (h1 : 20 ≤ declaredHlen s) (h2 : declaredHlen s + 8 ≤ s.capLen.toNat) : ¬ s.frameTruncated = true := by
    rw [s.frameTruncated_iff]
    omega
  refine ⟨fun h => ends ?truncated, fun h1 h2 h3 => ends ?wrongProto, fun h1 h2 h3 => ends ?ok⟩
  case truncated => rw [State.decodeFrame, if_pos (s.frameTruncated_iff.mpr h), s.frameIhl_eq]
  case wrongProto =>
    rw [State.decodeFrame, if_neg (whole h1 h2), if_pos (s.frameWrongProto_iff.mpr h3), s.frameIhl_eq, State.rx_eq_byteAt]
  case ok =>
    rw [State.decodeFrame, if_neg (whole h1 h2), if_neg (mt s.frameWrongProto_iff.mp (not_not.mpr h3))]
    simp only [State.decodeInner, State.frameHlen_eq, State.frameIhl_eq, State.frameChecksum_eq, State.rx_eq_byteAt,
      State.rxHalf_eq, State.rxWord_eq, bne, decide_not, beq_eq_decide]

end Sys2Proof.Machine
end

section
/-! The encoder of frames (41_codec.md R163-R168): the frame ENCODE leaves in TXBUF as one byte string, and the condition
of ENC_TOO_LARGE. -/

namespace Sys2Proof.Machine

open Sys2Proof

/-! ### The frame in wire order -/

/-- MemWrite of a 16-bit field stores its bytes in wire order (R12). -/
theorem beBytes_two_eq_wire16 (v : Half) : beBytes 2 v.toNat = wire16 v := by
  have high : BitVec.ofNat 8 (v.toNat / 256) = v.extractLsb' 8 8 :=
    BitVec.eq_of_toNat_eq ((BitVec.toNat_ofNat _ _).trans (toNat_slice v 8 8).symm)
  have low : BitVec.ofNat 8 v.toNat = v.extractLsb' 0 8 := rfl
  rw [beBytes_two, high, low, wire16]

/-- The header that is laid first has a zero checksum field (R164). -/
theorem echoHeader_eq_wireHeader (typ code : Byte) (id seq : Half) :
    echoHeader typ code id seq = wireHeader typ code 0 id seq := by
  rw [echoHeader, beBytes_two_eq_wire16, beBytes_two_eq_wire16]
  rfl

/-- EncodeFrame's frame is the laid one with two bytes overwritten by the checksum (R164). -/
theorem State.encodeFrame_bytes_eq_set (s : State) (typ code : Byte) (id seq : Half) (plen flen : Nat) :
    (s.encodeFrame typ code id seq plen flen).bufBytes .tx 0 flen =
      (((s.layFrame typ code id seq plen flen).bufBytes .tx 0 flen).set 3
        (BitVec.ofNat 8 (s.encodeFrame typ code id seq plen flen).tx.csum.toNat)).set 2
        (BitVec.ofNat 8 ((s.encodeFrame typ code id seq plen flen).tx.csum.toNat / 256)) := by
  refine List.ext_getElem (by simp) fun i h1 h2 => ?_
  rw [State.getElem_bufBytes, Nat.zero_add, State.encodeFrame_txByte]
  simp only [List.getElem_set, State.getElem_bufBytes, Nat.zero_add, eq_comm (b := i)]

/-- The frame EncodeFrame leaves: header with the checksum reported, payload as it was, pad (R164, R165). -/
theorem State.encodeFrame_bytes (s : State) (typ code : Byte) (id seq : Half) {plen flen : Nat} (h : 8 + plen ≤ flen) :
    (s.encodeFrame typ code id seq plen flen).bufBytes .tx 0 flen =
      wireHeader typ code (s.encodeFrame typ code id seq plen flen).tx.csum id seq ++
        (s.bufBytes .tx 8 plen ++ List.replicate (flen - (8 + plen)) 0x20) := by
  have field := beBytes_two_eq_wire16 (s.encodeFrame typ code id seq plen flen).tx.csum
  rw [s.encodeFrame_bytes_eq_set, s.layFrame_bytes typ code id seq plen flen h, echoHeader_eq_wireHeader, wireHeader,
    wireHeader, ← field, beBytes_two]
  rfl

/-- A TXBUF byte past the frame is as it was (R165). -/
theorem State.encodeFrame_txByte_above (s : State) (typ code : Byte) (id seq : Half) {plen flen k : Nat}
    (h : 8 + plen ≤ flen) (hk : flen ≤ k) :
    (s.encodeFrame typ code id seq plen flen).bufByte .tx k = s.bufByte .tx k := by
  rw [State.encodeFrame_txByte, if_neg (by omega), if_neg (by omega), State.layFrame_txByte, if_neg (by omega),
    if_neg (by omega)]

/-! ### ENCODE -/

/-- A payload that fits passes both checks, and the frame has room for it (R163, R166). -/
theorem State.encode_accepts {s : State} {flen : Nat} (hp : 8 + s.enc.plen.toNat ≤ 0xFFFF)
    (hf : s.enc.fsize = 0 ∧ flen = 8 + s.enc.plen.toNat ∨
      s.enc.fsize ≠ 0 ∧ flen = s.enc.fsize.toNat ∧ 8 + s.enc.plen.toNat ≤ flen) :
    s.encodeTooLarge = false ∧ s.encodeFlen = flen ∧ 8 + s.enc.plen.toNat ≤ flen := by
  rw [← Bool.not_eq_true, s.encodeTooLarge_iff, not_or, not_and]
  rcases hf with ⟨hz, rfl⟩ | ⟨hnz, rfl, hle⟩
  · exact ⟨⟨Nat.not_lt.mpr hp, fun h => absurd hz h⟩, if_pos hz, le_rfl⟩
  · exact ⟨⟨Nat.not_lt.mpr hp, fun _ => Nat.not_lt.mpr hle⟩, if_neg hnz, hle⟩

/-- Settles O27: past both checks ENCODE is EncodeFrame with the length R163 gives, and its lemmas say what it leaves. -/
theorem encodeBuildsTheFrame : Obligations.EncodeBuildsTheFrame := by
  intro s flen hp hf
  obtain ⟨fits, len, room⟩ := State.encode_accepts hp hf
  rcases execEncode_cases s with ⟨h, -⟩ | ⟨-, ends⟩
  · rw [fits] at h; cases h
  have frame := s.encodeFrame_frame s.enc.typ s.enc.code s.enc.id s.enc.seq s.enc.plen.toNat flen
  have csum := s.encodeFrame_csum s.enc.typ s.enc.code s.enc.id s.enc.seq _ _ room
  have bytes := s.encodeFrame_bytes s.enc.typ s.enc.code s.enc.id s.enc.seq room
  have above k (hk : flen ≤ k) := s.encodeFrame_txByte_above s.enc.typ s.enc.code s.enc.id s.enc.seq room hk
  have rx a (ha : a < 0x10000) :=
    s.encodeFrame_below s.enc.typ s.enc.code s.enc.id s.enc.seq s.enc.plen.toNat flen ha
  rw [len] at ends
  generalize s.encodeFrame s.enc.typ s.enc.code s.enc.id s.enc.seq s.enc.plen.toNat flen = t at *
  rw [echoHeader_eq_wireHeader] at csum
  simp only [slice_eq_bufBytes]
  exact ⟨t.finish 0x11 .ok, ends, congrArg (·.finish 0x11 .ok) frame, csum, bytes, above, rx⟩

/-- Settles O28: ENCODE's two ends differ in ERR. -/
theorem encodeRejectsTooLarge : Obligations.EncodeRejectsTooLarge := by
  intro s
  rw [← s.encodeTooLarge_iff]
  rcases execEncode_cases s with ⟨h, he⟩ | ⟨h, he⟩
  · exact iff_of_true h he
  · refine iff_of_false (by rw [h]; decide) fun heq => ?_
    have err := congrArg (fun t => t.status.err) (Host.Outcome.next.inj (he.symm.trans heq))
    cases err

end Sys2Proof.Machine
end

section
/-! The counting commands of the entropy unit (42_entropy.md R184-R186): the model's loop over the bytes as the histogram
with each counter raised by its number of bytes. -/

namespace Sys2Proof.Machine

open Sys2Proof

/-- Counting bytes one after another raises each counter by the number of its bytes (R186). -/
theorem bumpAll_eq_counted (h : Vector Half 256) (bs : List Byte) : bumpAll h bs = counted h bs :=
  Vector.ext fun v hv => (getElem_bumpAll h bs v hv).trans (by simp [counted])

/-- Settles O30: ENT.CLR has one end, and the cleared histogram is 0 at every value. -/
theorem entClrZeroesTheUnit : Obligations.EntClrZeroesTheUnit := by
  intro s
  have zero : Vector.ofFn (fun _ => 0) = Ent.cleared.hist := Vector.ext fun v hv => by simp [Ent.cleared]
  rw [zero]
  rfl

/-- ENT_N is below its maximum exactly when one more byte fits (R185). -/
theorem half_ne_max_iff (n : Half) : n ≠ 0xFFFF ↔ n.toNat + 1 ≤ 0xFFFF := by
  bv_omega

/-- Settles O31: the two ends of ENT.BYTE, and the rule of legality for a byte immediate. -/
theorem entByteCountsOneByte : Obligations.EntByteCountsOneByte := by
  refine ⟨fun b s => ?ends, fun w ho hh => decodeWord_error_of_immHigh (by rw [ho]; decide) hh⟩
  rw [← bumpAll_eq_counted, ← not_ne_iff (a := s.ent.n), half_ne_max_iff]
  rcases execEntByte_cases b s with ⟨fits, he⟩ | ⟨full, he⟩
  · exact ⟨fun _ => he, fun h => absurd fits h⟩
  · exact ⟨fun h => absurd h (Nat.not_le.mpr full), fun _ => he⟩

/-- Settles O32: the three ends of ENT.BUF, whose conditions exclude one another. -/
theorem entBufCountsTheRange : Obligations.EntBufCountsTheRange := by
  intro b s
  have len : s.ent.n + BitVec.ofNat 16 (s.argBytes b).length = s.ent.n + s.arg.len := by simp [State.argBytes]
  rw [slice_eq_bufBytes, ← bumpAll_eq_counted, ← len]
  rcases execEntBuf_cases b s with ⟨inRange, fits, he⟩ | ⟨out, he⟩ | ⟨inRange, full, he⟩
  · exact ⟨fun _ _ => he, fun out => absurd inRange (Nat.not_le.mpr out),
      fun _ full => absurd fits (Nat.not_le.mpr full)⟩
  · exact ⟨fun inRange => absurd inRange (Nat.not_le.mpr out), fun _ => he,
      fun inRange => absurd inRange (Nat.not_le.mpr out)⟩
  · exact ⟨fun _ fits => absurd fits (Nat.not_le.mpr full), fun out => absurd inRange (Nat.not_le.mpr out),
      fun _ _ => he⟩

end Sys2Proof.Machine
end

section
/-! The real entropy (42_entropy.md R180): its logarithmic form `n * H = n * log2 n - log2 P`, its bounds, and through
them the exact comparisons (R181), the score (R182) and the verdict (R183) of the model. -/

namespace Sys2Proof.Machine

open Sys2Proof

/-! ### The terms of the entropy -/

/-- What a value seen `k` times in `n` adds to the entropy (R180); 0 for `k = 0`. -/
noncomputable def entropyTerm (n k : Nat) : ℝ := -((k : ℝ) / (n : ℝ)) * Real.logb 2 ((k : ℝ) / (n : ℝ))

/-- The entropy is the sum of the terms of all values, unobserved ones included (R180). -/
theorem realEntropy_eq_sum (c : List Nat) : realEntropy c = (c.map (entropyTerm c.sum)).sum := by
  refine congrArg List.sum (List.map_congr_left fun k _ => ?_)
  rcases eq_or_ne k 0 with rfl | hk
  · simp [entropyTerm]
  · exact if_neg hk

/-- A term is at least 0 (R182). -/
theorem entropyTerm_nonneg {n k : Nat} (h : k ≤ n) : 0 ≤ entropyTerm n k := by
  have le : (k : ℝ) / n ≤ 1 := div_le_one_of_le₀ (Nat.cast_le.mpr h) n.cast_nonneg
  have log : Real.logb 2 ((k : ℝ) / n) ≤ 0 := Real.logb_nonpos one_lt_two (by positivity) le
  exact mul_nonneg_of_nonpos_of_nonpos (neg_nonpos.mpr (by positivity)) log

/-- A term without quotients inside the logarithm (R181). -/
theorem mul_entropyTerm {n : Nat} (hn : 0 < n) (k : Nat) :
    n * entropyTerm n k = k * Real.logb 2 n - Real.logb 2 ((k ^ k : Nat) : ℝ) := by
  have hn' : (n : ℝ) ≠ 0 := Nat.cast_ne_zero.mpr hn.ne'
  rcases eq_or_ne k 0 with rfl | hk
  · simp [entropyTerm]
  · rw [entropyTerm, Real.logb_div (Nat.cast_ne_zero.mpr hk) hn', Nat.cast_pow, Real.logb_pow]
    field_simp
    ring

/-- Gibbs' bound on a term, for any number `m` of values: `log x ≤ x - 1` at `x = n / (m * k)`. -/
theorem entropyTerm_le {n m : Nat} (hn : 0 < n) (hm : 0 < m) (k : Nat) :
    entropyTerm n k ≤ k / n * Real.logb 2 m + (1 / m - k / n) / Real.log 2 := by
  have log2 : 0 < Real.log 2 := Real.log_pos one_lt_two
  have hn' : (0 : ℝ) < n := Nat.cast_pos.mpr hn
  have hm' : (0 : ℝ) < m := Nat.cast_pos.mpr hm
  rcases Nat.eq_zero_or_pos k with rfl | hk
  · simp only [entropyTerm, Nat.cast_zero, zero_div, neg_zero, zero_mul, zero_add, sub_zero]
    positivity
  have hk' : (0 : ℝ) < k := Nat.cast_pos.mpr hk
  have gibbs : Real.log (n / (m * k)) ≤ n / (m * k) - 1 := Real.log_le_sub_one_of_pos (by positivity)
  calc entropyTerm n k
      = k / n * Real.logb 2 m + k / n * Real.log (n / (m * k)) / Real.log 2 := by
        rw [entropyTerm, Real.log_div hn'.ne' (by positivity), Real.log_mul hm'.ne' hk'.ne',
          Real.logb_div hk'.ne' hn'.ne']
        simp only [Real.logb]
        ring
    _ ≤ k / n * Real.logb 2 m + k / n * (n / (m * k) - 1) / Real.log 2 := by gcongr
    _ = k / n * Real.logb 2 m + (1 / m - k / n) / Real.log 2 := by field_simp

/-! ### The entropy as a sum -/

/-- An empty histogram has entropy 0 (R180). -/
theorem realEntropy_of_sum_eq_zero {c : List Nat} (h : c.sum = 0) : realEntropy c = 0 := by
  simp [realEntropy, h]

/-- The entropy is at least 0 (R182). -/
theorem realEntropy_nonneg (c : List Nat) : 0 ≤ realEntropy c := by
  rw [realEntropy_eq_sum]
  refine List.sum_nonneg fun x hx => ?_
  obtain ⟨k, hk, rfl⟩ := List.mem_map.mp hx
  exact entropyTerm_nonneg (List.le_sum_of_mem hk)

/-- Gibbs' bound on a sum of terms. -/
theorem sum_entropyTerm_le {n m : Nat} (hn : 0 < n) (hm : 0 < m) (c : List Nat) :
    (c.map (entropyTerm n)).sum ≤ c.sum / n * Real.logb 2 m + (c.length / m - c.sum / n) / Real.log 2 := by
  induction c with
  | nil => simp
  | cons k c ih =>
    rw [List.map_cons, List.sum_cons, List.sum_cons, List.length_cons]
    refine (add_le_add (entropyTerm_le hn hm k) ih).trans_eq ?_
    push_cast
    ring

/-- The entropy of a histogram over `m` values is at most `log2 m` (R182). -/
theorem realEntropy_le_logb_length (c : List Nat) : realEntropy c ≤ Real.logb 2 c.length := by
  rcases Nat.eq_zero_or_pos c.sum with hn | hn
  · rw [realEntropy_of_sum_eq_zero hn, Real.logb]
    positivity
  · have hm : 0 < c.length := List.length_pos_iff.mpr fun e => by simp [e] at hn
    have bound := sum_entropyTerm_le hn hm c
    rw [div_self (Nat.cast_ne_zero.mpr hn.ne'), div_self (Nat.cast_ne_zero.mpr hm.ne')] at bound
    simpa [realEntropy_eq_sum] using bound

/-- 256 values have an entropy of at most 8 (R182). -/
theorem realEntropy_counts_le (h : Vector Half 256) : realEntropy (counts h) ≤ 8 := by
  refine (realEntropy_le_logb_length _).trans_eq ?_
  rw [show ((counts h).length : ℝ) = 2 ^ 8 by norm_num [counts], Real.logb_pow, Real.logb_self_eq_one one_lt_two]
  norm_num

/-- `P` is positive: `k^k` is, `0^0 = 1` included (R181). -/
theorem countPower_pos (c : List Nat) : 0 < countPower c :=
  List.prod_pos fun x hx => by
    obtain ⟨k, -, rfl⟩ := List.mem_map.mp hx
    exact Nat.pow_self_pos

/-- The sum of the terms is `log2` of `n^Σc / P` (R181). -/
theorem mul_sum_entropyTerm {n : Nat} (hn : 0 < n) (c : List Nat) :
    n * (c.map (entropyTerm n)).sum = c.sum * Real.logb 2 n - Real.logb 2 (countPower c) := by
  induction c with
  | nil => simp [countPower]
  | cons k c ih =>
    have power : countPower (k :: c) = k ^ k * countPower c := List.prod_cons
    rw [power, Nat.cast_mul, Real.logb_mul (Nat.cast_ne_zero.mpr Nat.pow_self_pos.ne')
      (Nat.cast_ne_zero.mpr (countPower_pos c).ne'), List.map_cons, List.sum_cons, List.sum_cons, mul_add, ih,
      mul_entropyTerm hn]
    push_cast
    ring

/-! ### The exact comparisons -/

/-- `n^(4096*n)` is positive, so it has a logarithm (R181). -/
theorem totalPower_pos (n : Nat) : 0 < totalPower n := by
  rw [totalPower]
  have base : 0 < n ^ n := Nat.pow_self_pos
  exact pow_pos base _

/-- `2^(n*t) * P^4096` is positive, so it has a logarithm (R181). -/
theorem thresholdPower_pos (c : List Nat) (t : Nat) : 0 < thresholdPower c t := by
  rw [thresholdPower]
  exact mul_pos (pow_pos (pow_pos two_pos _) _) (pow_pos (countPower_pos c) _)

/-- The logarithm of `n^(4096*n)`, by the entropy (R180, R181). -/
theorem logb_totalPower {c : List Nat} (hn : 0 < c.sum) :
    Real.logb 2 (totalPower c.sum) = c.sum * (4096 * realEntropy c) + 4096 * Real.logb 2 (countPower c) := by
  have entropy := mul_sum_entropyTerm hn c
  rw [← realEntropy_eq_sum] at entropy
  rw [totalPower, Nat.cast_pow, Nat.cast_pow, Real.logb_pow, Real.logb_pow, Nat.cast_ofNat]
  linear_combination (-4096) * entropy

/-- The logarithm of `2^(n*t) * P^4096` (R181). -/
theorem logb_thresholdPower (c : List Nat) (t : Nat) :
    Real.logb 2 (thresholdPower c t) = c.sum * t + 4096 * Real.logb 2 (countPower c) := by
  have power : ((countPower c : Nat) : ℝ) ≠ 0 := Nat.cast_ne_zero.mpr (countPower_pos c).ne'
  rw [thresholdPower, Nat.cast_mul, Real.logb_mul (by simp) (by simp [power])]
  simp only [Nat.cast_pow, Nat.cast_ofNat, Real.logb_pow, Real.logb_self_eq_one one_lt_two, mul_one]

/-- `log2` keeps the order of positive naturals. -/
theorem logb_natCast_lt_iff {a b : Nat} (ha : 0 < a) (hb : 0 < b) : Real.logb 2 a < Real.logb 2 b ↔ a < b := by
  rw [Real.logb_lt_logb_iff one_lt_two (Nat.cast_pos.mpr ha) (Nat.cast_pos.mpr hb), Nat.cast_lt]

/-- `2^(n*t) * P^4096 < n^(4096*n)` says `t < 4096 * H` (R181). -/
theorem thresholdPower_lt_iff {c : List Nat} (hn : 0 < c.sum) (t : Nat) :
    thresholdPower c t < totalPower c.sum ↔ (t : ℝ) < 4096 * realEntropy c := by
  rw [← logb_natCast_lt_iff (thresholdPower_pos c t) (totalPower_pos _), logb_thresholdPower, logb_totalPower hn,
    add_lt_add_iff_right, mul_lt_mul_iff_right₀ (Nat.cast_pos.mpr hn)]

/-- `n^(4096*n) < 2^(n*t) * P^4096` says `4096 * H < t` (R181). -/
theorem lt_thresholdPower_iff {c : List Nat} (hn : 0 < c.sum) (t : Nat) :
    totalPower c.sum < thresholdPower c t ↔ 4096 * realEntropy c < (t : ℝ) := by
  rw [← logb_natCast_lt_iff (totalPower_pos _) (thresholdPower_pos c t), logb_thresholdPower, logb_totalPower hn,
    add_lt_add_iff_right, mul_lt_mul_iff_right₀ (Nat.cast_pos.mpr hn)]

/-- `entropyAbove` decides `H > T/4096` (R181). -/
theorem entropyAbove_iff (c : List Nat) (t : Half) :
    entropyAbove c t = true ↔ (t.toNat : ℝ) / 4096 < realEntropy c := by
  rw [div_lt_iff₀' (by norm_num), entropyAbove, Bool.and_eq_true, decide_eq_true_eq, decide_eq_true_eq]
  rcases Nat.eq_zero_or_pos c.sum with hn | hn
  · simp [hn, realEntropy_of_sum_eq_zero hn]
  · rw [thresholdPower_lt_iff hn, and_iff_right hn]

/-- `entropyBelow` decides `H < T/4096` (R181). -/
theorem entropyBelow_iff (c : List Nat) (t : Half) :
    entropyBelow c t = true ↔ realEntropy c < (t.toNat : ℝ) / 4096 := by
  rw [lt_div_iff₀' (by norm_num), entropyBelow]
  rcases Nat.eq_zero_or_pos c.sum with hn | hn
  · rw [if_pos hn, realEntropy_of_sum_eq_zero hn, mul_zero, Nat.cast_pos, decide_eq_true_eq]
  · rw [if_neg hn.ne', decide_eq_true_eq, lt_thresholdPower_iff hn]

/-! ### The score and the verdict -/

/-- The search finds the largest admitted score `m` in its interval (R182). -/
theorem searchScore_eq {c : List Nat} {m : Nat} (hm : ∀ k, scoreAtLeast c k = true ↔ k ≤ m) (b k : Nat)
    (low : k ≤ m) (high : m < k + 2 ^ b) : searchScore c b k = m := by
  induction b generalizing k with
  | zero => exact le_antisymm low (Nat.lt_succ_iff.mp high)
  | succ b ih =>
    rw [searchScore]
    cases admitted : scoreAtLeast c (k + 2 ^ b) with
    | true => exact ih _ ((hm _).mp admitted) (by omega)
    | false =>
      have above : ¬ k + 2 ^ b ≤ m := fun h => by simp [(hm _).mpr h] at admitted
      exact ih _ low (Nat.lt_of_not_le above)

/-- `4096 * H` stays within the score's range (R182). -/
theorem floor_entropy_le (h : Vector Half 256) : ⌊4096 * realEntropy (counts h)⌋₊ ≤ 0x8000 :=
  Nat.floor_le_of_le (by push_cast; linarith [realEntropy_counts_le h])

/-- The score is `floor(4096 * H)` (R182). -/
theorem entropyScore_eq_floor (h : Vector Half 256) :
    entropyScore (counts h) = ⌊4096 * realEntropy (counts h)⌋₊ := by
  rw [entropyScore]
  split
  case isTrue hn => simp [realEntropy_of_sum_eq_zero hn]
  case isFalse hn =>
    have bound := floor_entropy_le h
    refine searchScore_eq (fun k => ?_) 16 0 (Nat.zero_le _) (by omega)
    rw [Nat.le_floor_iff (mul_nonneg (by norm_num) (realEntropy_nonneg _)), scoreAtLeast, decide_eq_true_eq,
      ← not_lt, lt_thresholdPower_iff (Nat.pos_of_ne_zero hn), not_lt]

/-- The verdict's two tests in their order, on the real entropy (R183). -/
theorem verdictOf_cases (c : List Nat) (n : Nat) (th : Thresholds) :
    ((th.high.toNat : ℝ) / 4096 < realEntropy c ∧ verdictOf c n th = .suspiciousHigh) ∨
    (realEntropy c ≤ (th.high.toNat : ℝ) / 4096 ∧ (realEntropy c < (th.low.toNat : ℝ) / 4096 ∧ th.floor.toNat < n) ∧
      verdictOf c n th = .suspiciousLow) ∨
    (realEntropy c ≤ (th.high.toNat : ℝ) / 4096 ∧ ¬ (realEntropy c < (th.low.toNat : ℝ) / 4096 ∧ th.floor.toNat < n) ∧
      verdictOf c n th = .benign) := by
  rw [← not_lt, ← entropyAbove_iff, ← entropyBelow_iff, ← decide_eq_true_iff (p := th.floor.toNat < n),
    ← Bool.and_eq_true, verdictOf]
  by_cases above : entropyAbove c th.high = true
  · exact .inl ⟨above, if_pos above⟩
  · rw [if_neg above]
    by_cases below : (entropyBelow c th.low && decide (th.floor.toNat < n)) = true
    · exact .inr (.inl ⟨above, below, if_pos below⟩)
    · exact .inr (.inr ⟨above, below, if_neg below⟩)

/-- Settles O35: CLASSIFY has one end; its score and verdict are those of the real entropy. -/
theorem classifyFollowsRealEntropy : Obligations.ClassifyFollowsRealEntropy := by
  intro s
  refine ⟨s.classify.finish 0x23 .ok, rfl, rfl, ?score, ?verdict⟩
  case score =>
    have fits : entropyScore (counts s.ent.hist) < 2 ^ 16 := by
      have := floor_entropy_le s.ent.hist
      rw [entropyScore_eq_floor]
      omega
    rw [State.finish_ent, State.classify_ent, BitVec.toNat_ofNat, Nat.mod_eq_of_lt fits, entropyScore_eq_floor]
    exact Int.natCast_floor_eq_floor (mul_nonneg (by norm_num) (realEntropy_nonneg _))
  case verdict =>
    rw [State.finish_ent, State.classify_ent]
    rcases verdictOf_cases (counts s.ent.hist) s.ent.n.toNat s.th with ⟨high, hv⟩ | ⟨high, low, hv⟩ | ⟨high, low, hv⟩
    · exact ⟨fun _ => hv, fun h => absurd high (not_lt.mpr h)⟩
    · exact ⟨fun h => absurd h (not_lt.mpr high), fun _ => ⟨fun _ => hv, fun h => absurd low h⟩⟩
    · exact ⟨fun h => absurd h (not_lt.mpr high), fun _ => ⟨fun h => absurd h low, fun _ => hv⟩⟩

end Sys2Proof.Machine
end

section
/-! The DefenseEngine apart from PROCESS (43_filter.md R218, R219, R222): LOG.POP, the log as the registers show it, and
the trimmed span of a payload. -/

namespace Sys2Proof.Machine

open Sys2Proof

/-! ### LOG.POP and the log as it is read -/

/-- LOG_COUNT is the number of records, modulo 256 (R55). -/
theorem State.toNat_logCountWord (s : State) : s.logCountWord.toNat = s.log.length % 256 := by
  rw [State.logCountWord, BitVec.toNat_setWidth, BitVec.toNat_ofNat]
  omega

/-- The head of a nonempty log is its first record (R56). -/
theorem State.logHead_cons {s : State} {r : LogRecord} {rest : List LogRecord} (h : s.log = r :: rest) :
    s.logHead = r := by
  rw [State.logHead, h, List.headD_cons]

/-- The head of an empty log reads as zero words (R222). -/
theorem State.logHead_nil {s : State} (h : s.log = []) : s.logHead = ⟨0, 0, 0, 0⟩ := by
  rw [State.logHead, h, List.headD_nil]

/-- Settles O44: the two ends of LOG.POP, and the log registers as views of the log. -/
theorem logPopRemovesTheHead : Obligations.LogPopRemovesTheHead := by
  intro s r rest
  refine ⟨fun full => ?pop, fun empty => ?fails, fun few => ?count, fun full => ?head, fun empty => ?blank⟩
  case pop =>
    have tail : s.log.tail = rest := by rw [full, List.tail_cons]
    rcases execLogPop_cases s with ⟨-, ends⟩ | ⟨empty, -⟩
    · subst tail
      exact ends
    · rw [full] at empty; cases empty
  case fails =>
    rcases execLogPop_cases s with ⟨nonempty, -⟩ | ⟨-, ends⟩
    · exact absurd empty nonempty
    · exact ends
  case count => exact s.toNat_logCountWord.trans (Nat.mod_eq_of_lt (Nat.lt_succ_of_le few))
  case head => simp [State.readNamed, State.logHead_cons full]
  case blank => simp [State.readNamed, State.logHead_nil empty]

/-! ### Trimming -/

/-- The whitespace set by its six values (R219). -/
theorem isSpace_iff (b : Byte) : isSpace b = true ↔ b.toNat ∈ [0x09, 0x0A, 0x0B, 0x0C, 0x0D, 0x20] := by
  simp [isSpace, BitVec.toNat_eq]

/-- The number of leading blanks is the position of the first byte that is not one (R218). -/
theorem leadingSpaces_eq {p : List Byte} {i : Nat} (hi : i < p.length) (solid : ¬ isSpace p[i] = true)
    (blank : ∀ k, ∀ hk : k < i, isSpace (p[k]'(hk.trans hi)) = true) : leadingSpaces p = i := by
  have first : p.findIdx (fun b => !isSpace b) = i :=
    (List.findIdx_eq hi).mpr ⟨by simpa using solid, fun k hk => by simpa using blank k hk⟩
  rw [leadingSpaces, List.takeWhile_eq_take_findIdx_not, first, List.length_take_of_le hi.le]

/-- The number of trailing blanks counts the positions after the last byte that is not one (R218). -/
theorem leadingSpaces_reverse_eq {p : List Byte} {j : Nat} (hj : j < p.length) (solid : ¬ isSpace p[j] = true)
    (blank : ∀ k, ∀ hk : k < p.length, j < k → isSpace p[k] = true) :
    leadingSpaces p.reverse = p.length - 1 - j := by
  refine leadingSpaces_eq (by rw [List.length_reverse]; omega) ?_ fun k hk => ?_
  · have back : p.length - 1 - (p.length - 1 - j) = j := by omega
    simpa only [List.getElem_reverse, back] using solid
  · rw [List.getElem_reverse]
    exact blank _ _ (by omega)

/-- An all-blank payload is trimmed to nothing (R218). -/
theorem State.trim_of_blank {s : State} (h : ∀ b ∈ s.payload, isSpace b = true) : s.trim = (s.dec.off, 0) :=
  if_pos (List.all_eq_true.mpr h)

/-- The trimmed span runs from the first to the last byte that is not blank (R218). -/
theorem State.trim_of_span {s : State} {i j : Nat} (hi : i < s.payload.length) (hj : j < s.payload.length)
    (first : ¬ isSpace s.payload[i] = true) (last : ¬ isSpace s.payload[j] = true)
    (blank : ∀ k, ∀ hk : k < s.payload.length, k < i ∨ j < k → isSpace s.payload[k] = true) :
    s.trim = (s.dec.off + BitVec.ofNat 16 i, BitVec.ofNat 16 (j - i + 1)) := by
  have order : i ≤ j := Nat.le_of_not_lt fun h => last (blank j hj (.inl h))
  have mixed : ¬ s.payload.all isSpace = true := fun h => first (List.all_eq_true.mp h _ (List.getElem_mem hi))
  have span : s.payload.length - i - (s.payload.length - 1 - j) = j - i + 1 := by omega
  have head := leadingSpaces_eq hi first fun k hk => blank k (hk.trans hi) (.inl hk)
  have tail := leadingSpaces_reverse_eq hj last fun k hk h => blank k hk (.inr h)
  rw [← span, State.trim, if_neg mixed, head, tail]

/-- Settles O43: the payload of DEC_PAY is the slice, and the two cases of the trimming follow. -/
theorem trimIsTheNonSpaceSpan : Obligations.TrimIsTheNonSpaceSpan := by
  intro s
  simp only [slice_eq_bufBytes, ← isSpace_iff]
  exact ⟨State.trim_of_blank, fun i j hi hj first last blank => State.trim_of_span hi hj first last blank⟩

end Sys2Proof.Machine
end

section
/-! PROCESS (43_filter.md R210-R217, R220-R224): the words of its records, the frame it drops or classifies, its end for
each mode and verdict, and the reply. -/

namespace Sys2Proof.Machine

open Sys2Proof

/-! ### The words of a record -/

/-- Two 16-bit fields at their bit positions (R10). -/
theorem halves_eq_ofNat (hi lo : Half) : halves hi lo = BitVec.ofNat 32 (lo.toNat + 65536 * hi.toNat) := by
  rw [Nat.add_comm, Nat.mul_comm, ← toNat_halves, BitVec.ofNat_toNat, BitVec.setWidth_eq]

/-- The code of a verdict as a natural (R52). -/
theorem Verdict.toNat_toBits (v : Verdict) : v.toBits.toNat = verdictCode v := by cases v <;> rfl

/-- The code of a decode result as a natural (R34). -/
theorem DecodeResult.toNat_toBits (d : DecodeResult) : d.toBits.toNat = dresCode d := by cases d <;> rfl

/-- W0 holds the fields of a record at their bit positions (R220). -/
theorem recordHead_eq_recordW0 (kind : BitVec 4) (v : Verdict) (bad : Bool) (d : DecodeResult) (score : Half) :
    recordHead kind v bad d score = recordW0 kind.toNat (verdictCode v) bad.toNat (dresCode d) score.toNat := by
  have weights := toNat_recordHead kind v bad d score
  rw [Verdict.toNat_toBits, DecodeResult.toNat_toBits] at weights
  have sum : (recordHead kind v bad d score).toNat =
      kind.toNat + 16 * verdictCode v + 64 * bad.toNat + 256 * dresCode d + 65536 * score.toNat := by omega
  rw [recordW0, ← sum, BitVec.ofNat_toNat, BitVec.setWidth_eq]

/-- The OBSERVE record by its fields (R220). -/
theorem State.observeRecord_eq (s : State) : s.observeRecord =
    { w0 := recordW0 3 (verdictCode s.ent.verdict) s.dec.csumBad.toNat 1 s.ent.score.toNat
      w1 := s.dec.src, w2 := 0, w3 := recordW3 s.dec } := by
  rw [State.observeRecord, recordHead_eq_recordW0, halves_eq_ofNat]
  rfl

/-- The BLOCK record by its fields (R220). -/
theorem State.blockRecord_eq (s : State) : s.blockRecord =
    { w0 := recordW0 1 (verdictCode s.ent.verdict) s.dec.csumBad.toNat 1 s.ent.score.toNat
      w1 := s.dec.src, w2 := 0, w3 := recordW3 s.dec } := by
  rw [State.blockRecord, recordHead_eq_recordW0, halves_eq_ofNat]
  rfl

/-- The PASS record by its fields (R220). -/
theorem State.passRecord_eq (s : State) : s.passRecord =
    { w0 := recordW0 2 0 s.dec.csumBad.toNat 1 s.ent.score.toNat
      w1 := s.dec.src, w2 := BitVec.ofNat 32 (s.trim.1.toNat + 65536 * s.trim.2.toNat), w3 := recordW3 s.dec } := by
  rw [State.passRecord, recordHead_eq_recordW0, halves_eq_ofNat, halves_eq_ofNat]
  rfl

/-- The DROP record by its fields (R220). -/
theorem State.dropRecord_eq (s : State) : s.dropRecord =
    { w0 := recordW0 4 0 0 (dresCode s.dec.dres) 0, w1 := 0, w2 := 0, w3 := 0 } := by
  rw [State.dropRecord, recordHead_eq_recordW0]
  rfl

/-! ### A full log, a dropped frame -/

/-- With a full log PROCESS ends at once (R211). -/
theorem exec_process_of_full {s : State} (full : s.log.length = s.logDepth.toNat) :
    exec .process s = .next (s.finish 0x30 .logFull) := by
  rcases execProcess_cases s with ⟨-, ends⟩ | ⟨room, -⟩ | ⟨room, -⟩
  · exact ends
  · exact absurd full room
  · exact absurd full room

/-- A failed decode is TRUNCATED or WRONG_PROTO (R151). -/
theorem State.dresCode_of_failed {s : State} (bad : s.decodeFrame.dres ≠ .ok) :
    dresCode s.decodeFrame.dres = if s.decodeFrame.dres = .truncated then 2 else 3 := by
  rcases s.decodeFrame_cases with ⟨-, e⟩ | ⟨-, -, e⟩ | ⟨-, -, e⟩
  · rw [e]; rfl
  · rw [e]; rfl
  · rw [e] at bad; exact absurd rfl bad

/-- The machine's ends after classification append one record (R210, R221). -/
theorem State.filterVerdict_log (s : State) : ∃ r, s.filterVerdict.log = s.log ++ [r] := by
  rcases s.filterVerdict_cases with ⟨-, e⟩ | ⟨-, -, e⟩ | ⟨-, -, e⟩ | ⟨-, -, e⟩ <;> exact ⟨_, congrArg State.log e⟩

/-- The machine's ends after classification leave a terminal state (R212, R223). -/
theorem State.filterVerdict_fstate (s : State) : s.filterVerdict.fstate ≠ .received := by
  rcases s.filterVerdict_cases with ⟨-, e⟩ | ⟨-, -, e⟩ | ⟨-, -, e⟩ | ⟨-, -, e⟩ <;> simp [e]

/-- Settles O37: a full log ends PROCESS before it writes, and each other end appends at most one record. -/
theorem processStopsOnFullLog : Obligations.ProcessStopsOnFullLog := by
  refine ⟨fun s full => exec_process_of_full full, fun s t h => ?_⟩
  rcases execProcess_cases s with ⟨-, ends⟩ | ⟨-, -, ends⟩ | ⟨-, -, ends⟩ <;>
    obtain rfl := Host.Outcome.next.inj (ends.symm.trans h)
  case inl => exact .inl rfl
  case inr.inl =>
    rw [State.finish_log, State.dropFrame_eq]
    split
    · exact .inr ⟨_, rfl⟩
    · exact .inl rfl
  case inr.inr => exact .inr (State.filterVerdict_log _)

/-- Settles O38: the end of a failed decode, and the FSTATE that each end of PROCESS leaves. -/
theorem processDropsMalformedFrames : Obligations.ProcessDropsMalformedFrames := by
  refine ⟨fun s room bad => ?drops, fun s t h => ?terminal⟩
  case drops =>
    rcases execProcess_cases s with ⟨full, -⟩ | ⟨-, -, ends⟩ | ⟨-, ok, -⟩
    · exact absurd full room
    · rw [← State.dresCode_of_failed bad]
      rw [State.dropFrame_eq, State.dropRecord_eq] at ends
      exact ends
    · exact absurd ok bad
  case terminal =>
    rcases execProcess_cases s with ⟨-, ends⟩ | ⟨-, -, ends⟩ | ⟨-, -, ends⟩ <;>
      obtain rfl := Host.Outcome.next.inj (ends.symm.trans h)
    · exact id
    · rw [State.finish_fstate, State.dropFrame_eq]
      exact nofun
    · exact fun received => absurd received (State.filterVerdict_fstate _)

/-! ### The classified frame -/

/-- The state PROCESS decides on: the frame decoded and its payload classified (R213). -/
def State.frameClassified (s : State) : State := { s with dec := s.decodeFrame, ent := frameEnt s }

/-- The payload of the decoded frame, byte by byte (R156). -/
theorem State.frameClassified_payload (s : State) : s.frameClassified.payload = framePayload s :=
  (slice_eq_bufBytes s .rx _ _).symm

/-- Decoding and classifying leave exactly the frame's entropy unit (R213). -/
theorem State.classifyFrame_decoded (s : State) :
    ({ s with dec := s.decodeFrame } : State).classifyFrame = s.frameClassified := by
  have payload : ({ s with dec := s.decodeFrame } : State).payload = framePayload s :=
    (slice_eq_bufBytes s .rx _ _).symm
  have size : Ent.cleared.n + BitVec.ofNat 16 (framePayload s).length = s.decodeFrame.len := by
    simp [← payload, Ent.cleared]
  have hist := bumpAll_eq_counted Ent.cleared.hist (framePayload s)
  rw [State.classifyFrame, payload]
  simp only [State.count, State.classify, hist, size]
  rfl

/-- With room in the log, PROCESS of a frame that decodes decides on it classified (R210, R213). -/
theorem exec_process_of_decoded {s : State} (room : s.log.length ≠ s.logDepth.toNat)
    (ok : s.decodeFrame.dres = .ok) :
    exec .process s = .next (s.frameClassified.filterVerdict.finish 0x30 .ok) := by
  rcases execProcess_cases s with ⟨full, -⟩ | ⟨-, bad, -⟩ | ⟨-, -, ends⟩
  · exact absurd full room
  · exact absurd ok bad
  · rw [State.classifyFrame_decoded] at ends
    exact ends

/-- The PASS record of the classified frame (R216). -/
theorem State.frameClassified_passRecord (s : State) : s.frameClassified.passRecord = framePassRecord s := by
  have trim : s.frameClassified.trim = ({ s with dec := s.decodeFrame } : State).trim := State.trim_congr rfl rfl rfl
  rw [State.passRecord_eq, trim]
  rfl

/-- BuildReply leaves LOG alone (R217). -/
theorem State.buildReply_log (s : State) : s.buildReply.log = s.log := by rw [s.buildReply_frame]

/-- The end of a frame: its terminal state, its one record, and the completed command (R210, R221, R223). -/
def State.endFrame (s : State) (f : FilterState) (r : LogRecord) : State :=
  { s with fstate := f, log := s.log ++ [r], status := endStatus 0x30 .ok }

/-- A state given its terminal state and its record, and then finished, is the end of its frame. -/
theorem State.finish_eq_endFrame {s : State} {l : List LogRecord} (h : s.log = l) (f : FilterState) (r : LogRecord) :
    ({ s with fstate := f, log := l ++ [r] } : State).finish 0x30 .ok = s.endFrame f r := by
  subst h
  rfl

/-- With room in the log, PROCESS of a frame that decodes ends in one of four ways (R210, R214-R217). -/
theorem exec_process_decoded_cases {s : State} (room : s.log.length ≠ s.logDepth.toNat)
    (ok : s.decodeFrame.dres = .ok) :
    (s.ctrl.mode = .observe ∧
      exec .process s = .next (s.frameClassified.endFrame .classified s.frameClassified.observeRecord)) ∨
    (s.ctrl.mode ≠ .observe ∧ (frameEnt s).verdict ≠ .benign ∧
      exec .process s = .next (s.frameClassified.endFrame .blocked s.frameClassified.blockRecord)) ∨
    (s.ctrl.mode = .passive ∧ (frameEnt s).verdict = .benign ∧
      exec .process s = .next (s.frameClassified.endFrame .passed (framePassRecord s))) ∨
    (s.ctrl.mode = .active ∧ (frameEnt s).verdict = .benign ∧
      exec .process s = .next (s.frameClassified.buildReply.endFrame .replied (framePassRecord s))) := by
  rw [exec_process_of_decoded room ok, ← s.frameClassified_passRecord]
  rcases s.frameClassified.filterVerdict_cases with
    ⟨mode, e⟩ | ⟨mode, verdict, e⟩ | ⟨mode, verdict, e⟩ | ⟨mode, verdict, e⟩ <;> rw [e]
  · exact .inl ⟨mode, rfl⟩
  · exact .inr (.inl ⟨mode, verdict, rfl⟩)
  · exact .inr (.inr (.inl ⟨mode, verdict, rfl⟩))
  · exact .inr (.inr (.inr ⟨mode, verdict,
      congrArg Host.Outcome.next (State.finish_eq_endFrame (State.buildReply_log _) _ _)⟩))

/-- Settles O39: of the four ends, OBSERVE has the first. -/
theorem processObserves : Obligations.ProcessObserves := by
  intro s room ok observe
  rcases exec_process_decoded_cases room ok with ⟨-, ends⟩ | ⟨acts, -⟩ | ⟨passive, -⟩ | ⟨active, -⟩
  · rw [State.observeRecord_eq] at ends
    exact ends
  · exact absurd observe acts
  · cases observe.symm.trans passive
  · cases observe.symm.trans active

/-- Settles O40: of the four ends, a suspicious frame outside OBSERVE has the second. -/
theorem processBlocksSuspiciousFrames : Obligations.ProcessBlocksSuspiciousFrames := by
  intro s room ok acts suspicious
  rcases exec_process_decoded_cases room ok with ⟨observe, -⟩ | ⟨-, -, ends⟩ | ⟨-, benign, -⟩ | ⟨-, benign, -⟩
  · exact absurd observe acts
  · rw [State.blockRecord_eq] at ends
    exact ends
  · exact absurd benign suspicious
  · exact absurd benign suspicious

/-! ### The reply -/

/-- BuildReply's bytes are EncodeFrame's: TX_INFO and TX_DST are not among them (R217). -/
theorem State.buildReply_byteAt (s : State) (a : Nat) :
    s.buildReply.byteAt a = ((s.writeBuf .tx Config.innerHdr s.payload).encodeFrame 0 0 s.dec.id s.dec.seq
      s.dec.len.toNat (Config.innerHdr + s.dec.len.toNat)).byteAt a := State.byteAt_congr rfl rfl a

/-- The payload that EncodeFrame finds in place is the one just copied (R217). -/
theorem State.bufBytes_writeBuf_payload (s : State) :
    (s.writeBuf .tx Config.innerHdr s.payload).bufBytes .tx 8 s.dec.len.toNat = s.payload := by
  have same := s.bytesAt_writeAt_same (bufBase .tx + Config.innerHdr) s.payload
  rw [State.length_payload] at same
  exact same

/-- The reply's checksum is that of its frame with a zero field; there is no pad (R217). -/
theorem State.buildReply_csum (s : State) :
    s.buildReply.tx.csum = checksum (wireHeader 0 0 0 s.dec.id s.dec.seq ++ s.payload) := by
  have csum := (s.writeBuf .tx Config.innerHdr s.payload).encodeFrame_csum 0 0 s.dec.id s.dec.seq _ _
    (le_refl (8 + s.dec.len.toNat))
  rw [s.bufBytes_writeBuf_payload, Nat.sub_self, List.replicate_zero, List.append_nil, echoHeader_eq_wireHeader] at csum
  exact csum

/-- The reply as one byte string: header with the checksum reported, and the payload (R217). -/
theorem State.buildReply_bytes (s : State) :
    s.buildReply.bufBytes .tx 0 (8 + s.dec.len.toNat) =
      wireHeader 0 0 s.buildReply.tx.csum s.dec.id s.dec.seq ++ s.payload := by
  have bytes := (s.writeBuf .tx Config.innerHdr s.payload).encodeFrame_bytes 0 0 s.dec.id s.dec.seq
    (le_refl (8 + s.dec.len.toNat))
  rw [s.bufBytes_writeBuf_payload, Nat.sub_self, List.replicate_zero, List.append_nil] at bytes
  exact (State.bytesAt_congr rfl rfl _ _).trans bytes

/-- A TXBUF byte past the reply is as it was (R217). -/
theorem State.buildReply_txByte_above (s : State) {k : Nat} (hk : 8 + s.dec.len.toNat ≤ k) :
    s.buildReply.bufByte .tx k = s.bufByte .tx k := by
  have above := (s.writeBuf .tx Config.innerHdr s.payload).encodeFrame_txByte_above 0 0 s.dec.id s.dec.seq le_rfl hk
  refine (s.buildReply_byteAt _).trans (above.trans (State.byteAt_writeAt_outside s (.inr ?_)))
  rw [State.length_payload, Nat.add_assoc]
  exact Nat.add_le_add_left hk _

/-- The reply leaves RXBUF alone (R85, R217). -/
theorem State.buildReply_below (s : State) {a : Nat} (ha : a < Config.txBase) : s.buildReply.byteAt a = s.byteAt a := by
  rw [State.buildReply_byteAt, State.encodeFrame_below _ _ _ _ _ _ _ ha]
  exact State.byteAt_writeAt_outside s (.inl (Nat.lt_add_right _ ha))

/-- The reply to a frame that decodes is no longer than the capture without its outer header (R153, R156, R217). -/
theorem State.reply_length_le {s : State} (ok : s.decodeFrame.dres = .ok) : 8 + s.decodeFrame.len.toNat ≤ 65515 := by
  rcases s.decodeFrame_cases with ⟨-, e⟩ | ⟨-, -, e⟩ | ⟨whole, -, e⟩
  · rw [e] at ok; cases ok
  · rw [e] at ok; cases ok
  · have bounds := State.bounds_of_not_truncated whole
    have cap := s.capLen.isLt
    have len : s.decodeFrame.len.toNat = (s.capLen.toNat - s.frameHlen - 8) % 2 ^ 16 := by
      rw [e]; exact BitVec.toNat_ofNat _ _
    omega

/-- Settles O41: the two ends of a benign frame push the PASS record, and the reply stays out of RXBUF. -/
theorem processPassesBenignFrames : Obligations.ProcessPassesBenignFrames := by
  intro s room ok acts benign
  rcases exec_process_decoded_cases room ok with
    ⟨observe, -⟩ | ⟨-, suspicious, -⟩ | ⟨-, -, ends⟩ | ⟨active, -, ends⟩
  · exact absurd observe acts
  · exact absurd benign suspicious
  · exact ⟨⟨_, ends, rfl, fun _ _ => rfl⟩, fun _ => ends⟩
  · have log := congrArg (· ++ [framePassRecord s]) s.frameClassified.buildReply_log
    refine ⟨⟨_, ends, log, fun _ ha => s.frameClassified.buildReply_below ha⟩, fun passive => ?_⟩
    cases active.symm.trans passive

/-- Settles O42: of the four ends, a benign frame in ACTIVE has the last, and BuildReply's lemmas say what it leaves. -/
theorem processRepliesToBenignFrames : Obligations.ProcessRepliesToBenignFrames := by
  intro s room ok active benign
  rcases exec_process_decoded_cases room ok with
    ⟨observe, -⟩ | ⟨-, suspicious, -⟩ | ⟨passive, -⟩ | ⟨-, -, ends⟩
  · cases active.symm.trans observe
  · exact absurd benign suspicious
  · cases active.symm.trans passive
  · have frame := s.frameClassified.buildReply_frame
    have csum := s.frameClassified.buildReply_csum
    have bytes := s.frameClassified.buildReply_bytes
    have above k (hk : 8 + s.decodeFrame.len.toNat ≤ k) := s.frameClassified.buildReply_txByte_above hk
    have rx a (ha : a < 0x10000) := s.frameClassified.buildReply_below ha
    rw [s.frameClassified_payload] at csum bytes
    generalize s.frameClassified.buildReply = t at *
    simp only [slice_eq_bufBytes]
    exact ⟨_, ends, congrArg (·.endFrame .replied (framePassRecord s)) frame, State.reply_length_le ok, csum, bytes,
      above, rx⟩

end Sys2Proof.Machine
end

section
/-! The control commands NOP and SRESET (44_control.md R240, R241). -/

namespace Sys2Proof.Machine

open Sys2Proof

/-- Settles O16: NOP has one end, which writes STATUS. -/
theorem nopOnlyEnds : Obligations.NopOnlyEnds := fun _ => rfl

/-! ### SRESET -/

/-- A register apart from STATUS reads none of STATUS, CMDL, the buffers, FAULT, LOG_DEPTH and the environment. -/
theorem State.readNamed_of_ne_status (s : State) (status : Status) (cmdl : Word) (mem : Memory) (faults : List Fault)
    (depth : BitVec 8) (env : Env) {r : RegName} (h : r ≠ .status) :
    ({ s with status := status, cmdl := cmdl, mem := mem, faults := faults, logDepth := depth, env := env } :
      State).readNamed r = s.readNamed r := by
  cases r
  case status => exact absurd rfl h
  all_goals rfl

/-- STATUS is not in the reset table: R280 and R282 give it apart. -/
theorem ne_status_of_mem_resetTable : ∀ p ∈ resetTable, p.1 ≠ .status := by decide

/-- The table of R280 leaves STATUS, CMDL, the buffers, FAULT, LOG_DEPTH and the environment open, so that both resets end
at it (R282). -/
theorem atResetTable_of_reset_registers (status : Status) (cmdl : Word) (mem : Memory) (faults : List Fault)
    (depth : BitVec 8) (env : Env) :
    AtResetTable { State.reset with
      status := status, cmdl := cmdl, mem := mem, faults := faults, logDepth := depth, env := env } := by
  obtain ⟨table, -, log⟩ := atResetTable_reset
  refine ⟨fun p hp => ?_, State.readReg_hist_of_cleared rfl, log⟩
  exact (State.readNamed_of_ne_status _ _ _ _ _ _ _ (ne_status_of_mem_resetTable p hp)).trans (table p hp)

/-- SRESET takes every register from the reset state and keeps what is no register (R241, R282). -/
theorem exec_sreset (s : State) : exec .sreset s = .next { State.reset with
    status := endStatus 0xFF .ok, cmdl := s.cmdl, mem := s.mem, faults := s.faults, logDepth := s.logDepth,
    env := s.env } := rfl

/-- STATUS after a completed SRESET (R22, R241). -/
theorem State.readNamed_status_of_sreset {s : State} (h : s.status = endStatus 0xFF .ok) :
    s.readNamed .status = 0x0000FF00 := by
  refine eq_of_toNat (s.toNat_statusWord.trans ?_)
  rw [h]
  decide

/-- Settles O17: the registers are those of the reset state, and the buffers' bytes are the kept memory's and draws'. -/
theorem sresetRestoresTheTable : Obligations.SresetRestoresTheTable := fun s =>
  ⟨_, exec_sreset s, atResetTable_of_reset_registers _ _ _ _ _ _, State.readNamed_status_of_sreset rfl,
    State.byteAt_congr rfl rfl, rfl, rfl, rfl, rfl⟩

end Sys2Proof.Machine
end

section
/-! The assembled words (30_encoding.md R101-R111): a word decodes to a command exactly when it is that command's word. -/

namespace Sys2Proof

/-- A zero-extended byte has that byte below and 0 above it (R102). -/
theorem setWidth_low (b : Byte) : (b.setWidth 16).extractLsb' 0 8 = b := by
  ext k hk
  simp [show k < 16 by omega, BitVec.getLsbD_eq_getElem hk]

/-- A buffer is read back from its BSEL bit (R101). -/
theorem Buf.ofBsel_bsel (b : Buf) : Buf.ofBsel b.bsel = b := by cases b <;> rfl

/-- BSEL is read back from the buffer it selects (R101). -/
theorem Buf.bsel_ofBsel (c : Bool) : (Buf.ofBsel c).bsel = c := by cases c <;> rfl

/-- A half word with nothing in its high byte is its low byte, zero-extended (R102). -/
theorem setWidth_low_of_high_eq_zero {x : Half} (h : x.extractLsb' 8 8 = 0) : (x.extractLsb' 0 8).setWidth 16 = x := by
  have high := toNat_slice x 8 8
  have low := toNat_slice x 0 8
  rw [h] at high
  refine eq_of_toNat ((BitVec.toNat_setWidth_of_le (by decide)).trans ?_)
  have lt := x.isLt
  simp only [BitVec.ofNat_eq_ofNat, BitVec.toNat_ofNat] at high
  omega

/-- The fields of a command's word are the fields that name the command and hold its operands (R101, R111). -/
theorem CmdFields.eq_fields_iff {f : CmdFields} {i : Instr} : f = i.fields ↔ f.Names i ∧ i.withOperands f = i := by
  constructor
  · rintro rfl
    refine ⟨⟨rfl, rfl, ?fit⟩, ?operands⟩
    case fit =>
      cases i with
      | csumByte b | entByte b => exact ⟨rfl, Laws.EncodedFields.setWidth_high b⟩
      | csumWord | csumBuf | entBuf => rfl
      | _ => exact ⟨rfl, rfl⟩
    case operands =>
      cases i with
      | csumByte b | entByte b => exact congrArg _ (setWidth_low b)
      | csumBuf b | entBuf b => exact congrArg _ b.ofBsel_bsel
      | _ => rfl
  · obtain ⟨op, bsel, rsv, imm⟩ := f
    rintro ⟨⟨rfl, rfl, fit⟩, operands⟩
    rw [← operands]
    cases i with
    | csumByte | entByte =>
      obtain ⟨rfl, high⟩ := fit
      exact congrArg (CmdFields.mk _ false 0) (setWidth_low_of_high_eq_zero high).symm
    | csumWord => obtain rfl := fit; rfl
    | csumBuf | entBuf =>
      obtain rfl := fit
      exact congrArg (CmdFields.mk _ · 0 0) (Buf.bsel_ofBsel bsel).symm
    | _ => obtain ⟨rfl, rfl⟩ := fit; rfl

/-- A word decodes to a command exactly when it is the command's assembled word (R104, R111). -/
theorem decodeWord_eq_ok_iff {w : Word} {i : Instr} : decodeWord w = .ok i ↔ encodeInstr i = w := by
  rw [decodeWord, decodeFields_eq_ok_iff, ← CmdFields.eq_fields_iff, encodeInstr]
  constructor
  · intro h
    rw [← h, CmdFields.toWord_ofWord]
  · rintro rfl
    exact i.fields.ofWord_toWord

/-- Settles O1: the assembled word is itself. -/
theorem decodeInvertsEncode : Obligations.DecodeInvertsEncode := fun _ => decodeWord_eq_ok_iff.mpr rfl

/-- Settles O2: the word that decodes to a command is its assembled word. -/
theorem encodeInvertsDecode : Obligations.EncodeInvertsDecode := fun _ _ => decodeWord_eq_ok_iff.mp

/-- Settles O5: each printed word is the assembled word of its command. -/
theorem printedWordsDecode : Obligations.PrintedWordsDecode := by
  simp only [Obligations.PrintedWordsDecode, decodeWord_eq_ok_iff]
  decide

end Sys2Proof
end

section
/-! All commands (60_exceptions.md R250-R254): the one end each command has when no check fails, and what that end
writes. -/

namespace Sys2Proof.Machine

open Sys2Proof

/-! ### The two ends of a command -/

/-- PROCESS past its check (R210, R212, R213). -/
def State.processed (s : State) : State :=
  if s.decodeFrame.dres = .ok then s.frameClassified.filterVerdict
  else ({ s with dec := s.decodeFrame } : State).dropFrame

/-- What a command that passes its checks leaves, before STATUS is written (R250). -/
def State.effect (s : State) : Instr → State
  | .nop => s
  | .csumClr => { s with csum := { s.csum with acc := 0, par := false } }
  | .csumByte b => s.accumulate [b]
  | .csumWord h => s.accumulate [h.extractLsb' 8 8, h.extractLsb' 0 8]
  | .csumBuf b => s.accumulate (s.argBytes b)
  | .csumFin => { s with csum := { s.csum with res := foldSum s.csum.acc } }
  | .decode => { s with dec := s.decodeFrame }
  | .encode => s.encodeFrame s.enc.typ s.enc.code s.enc.id s.enc.seq s.enc.plen.toNat s.encodeFlen
  | .entClr => { s with ent := Ent.cleared }
  | .entByte b => s.count [b]
  | .entBuf b => s.count (s.argBytes b)
  | .entClassify => s.classify
  | .process => s.processed
  | .logPop => s.popLog
  | .sreset => s.softReset

/-- ENCODE's result is that of its two checks (R163, R166). -/
theorem resultOf_encode (s : State) : resultOf s .encode = if s.encodeTooLarge = true then .encTooLarge else .ok := by
  simp only [s.encodeTooLarge_iff, ite_or]
  rfl

/-- A command without an error ends with its effect, and one with an error ends with its code alone (R251, R252, R254). -/
theorem exec_eq (i : Instr) (s : State) :
    exec i s = .next ((if resultOf s i = .ok then s.effect i else s).finish i.opcode (resultOf s i)) := by
  cases i with
  | csumBuf b =>
    rcases execCsumBuf_cases b s with ⟨inRange, ends⟩ | ⟨out, ends⟩
    · rw [show resultOf s (.csumBuf b) = .ok from if_neg (Nat.not_lt.mpr inRange)]; exact ends
    · rw [show resultOf s (.csumBuf b) = .range from if_pos out]; exact ends
  | encode =>
    rcases execEncode_cases s with ⟨large, ends⟩ | ⟨fits, ends⟩
    · rw [resultOf_encode, if_pos large]; exact ends
    · rw [resultOf_encode, fits]; exact ends
  | entByte b =>
    have full := half_ne_max_iff s.ent.n
    rcases execEntByte_cases b s with ⟨fits, ends⟩ | ⟨past, ends⟩
    · rw [show resultOf s (.entByte b) = .ok from if_neg (full.mpr fits)]; exact ends
    · rw [show resultOf s (.entByte b) = .entFull from if_pos (not_ne_iff.mp (mt full.mp (Nat.not_le.mpr past)))]
      exact ends
  | entBuf b =>
    rcases execEntBuf_cases b s with ⟨inRange, fits, ends⟩ | ⟨out, ends⟩ | ⟨inRange, past, ends⟩
    · rw [show resultOf s (.entBuf b) = .ok from
        (if_neg (Nat.not_lt.mpr inRange)).trans (if_neg (Nat.not_lt.mpr fits))]
      exact ends
    · rw [show resultOf s (.entBuf b) = .range from if_pos out]; exact ends
    · rw [show resultOf s (.entBuf b) = .entFull from (if_neg (Nat.not_lt.mpr inRange)).trans (if_pos past)]
      exact ends
  | process =>
    by_cases full : s.log.length = s.logDepth.toNat
    · rw [show resultOf s .process = .logFull from if_pos full]; exact exec_process_of_full full
    rw [show resultOf s .process = .ok from if_neg full]
    change _ = Host.Outcome.next (s.processed.finish 0x30 .ok)
    rw [State.processed]
    split
    case isTrue ok => exact exec_process_of_decoded full ok
    case isFalse bad =>
      rcases execProcess_cases s with ⟨full', -⟩ | ⟨-, -, ends⟩ | ⟨-, ok, -⟩
      · exact absurd full' full
      · exact ends
      · exact absurd ok bad
  | logPop =>
    rcases execLogPop_cases s with ⟨some, ends⟩ | ⟨none, ends⟩
    · rw [show resultOf s .logPop = .ok from if_neg some]; exact ends
    · rw [show resultOf s .logPop = .logEmpty from if_pos none]; exact ends
  | _ => rfl

/-! ### What an end leaves unchanged -/

/-- Past its check PROCESS writes the frame's registers, the buffers and the log: it drops the frame or classifies it, it
writes the buffers and TX_* only when it replies, and it pushes at most one record (R210, R212, R213, R217, R221). -/
theorem State.processed_frame (s : State) :
    ∃ ent f l m x, s.processed = { s with dec := s.decodeFrame, ent := ent, fstate := f, log := l, mem := m, tx := x } ∧
      f ≠ .received ∧
      ((f = .dropped ∧ ent = s.ent) ∨ (f ≠ .dropped ∧ s.decodeFrame.dres = .ok ∧ ent = frameEnt s)) ∧
      ((m = s.mem ∧ x = s.tx) ∨
        (f = .replied ∧ s.decodeFrame.dres = .ok ∧ m = s.frameClassified.buildReply.mem)) ∧
      (l = s.log ∨ ∃ r, l = s.log ++ [r]) := by
  rw [State.processed]
  split
  case isFalse bad =>
    refine ⟨_, _, _, _, _, State.dropFrame_eq _, nofun, .inl ⟨rfl, rfl⟩, .inl ⟨rfl, rfl⟩, ?_⟩
    split
    · exact .inr ⟨_, rfl⟩
    · exact .inl rfl
  case isTrue ok =>
    have reply := s.frameClassified.buildReply_frame
    rcases s.frameClassified.filterVerdict_cases with ⟨-, e⟩ | ⟨-, -, e⟩ | ⟨-, -, e⟩ | ⟨-, -, e⟩ <;> rw [e]
    case inr.inr.inr =>
      generalize s.frameClassified.buildReply = u at reply
      rw [reply]
      exact ⟨_, _, _, _, _, rfl, nofun, .inr ⟨nofun, ok, rfl⟩, .inr ⟨rfl, ok, rfl⟩, .inr ⟨_, rfl⟩⟩
    all_goals exact ⟨_, _, _, _, _, rfl, nofun, .inr ⟨nofun, ok, rfl⟩, .inl ⟨rfl, rfl⟩, .inr ⟨_, rfl⟩⟩

/-- BuildReply leaves the environment alone (R217). -/
theorem State.buildReply_env (s : State) : s.buildReply.env = s.env := by rw [s.buildReply_frame]

/-- PROCESS leaves RXBUF alone (R85, R217). -/
theorem State.processed_below (s : State) {a : Nat} (ha : a < Config.txBase) : s.processed.byteAt a = s.byteAt a := by
  obtain ⟨ent, f, l, m, x, e, -, -, ⟨rfl, rfl⟩ | ⟨-, -, rfl⟩, -⟩ := s.processed_frame
  all_goals rw [e]
  · exact State.byteAt_congr rfl rfl a
  · have env : s.frameClassified.buildReply.env = s.env := (State.buildReply_env _).trans rfl
    refine (State.byteAt_congr (t := s.frameClassified.buildReply) ?mem ?draws a).trans ?below
    case mem => rfl
    case draws => rw [env]
    case below => exact (s.frameClassified.buildReply_below ha).trans (State.byteAt_congr rfl rfl a)

/-- No command writes FAULT, LOG_DEPTH, CMDL or the environment (R58, R241). -/
theorem State.effect_keeps (s : State) (i : Instr) :
    (s.effect i).faults = s.faults ∧ (s.effect i).logDepth = s.logDepth ∧ (s.effect i).cmdl = s.cmdl ∧
      (s.effect i).env = s.env := by
  cases i with
  | process =>
    obtain ⟨ent, f, l, m, x, e, -⟩ := s.processed_frame
    rw [State.effect, e]
    exact ⟨rfl, rfl, rfl, rfl⟩
  | _ => exact ⟨rfl, rfl, rfl, rfl⟩

/-- A command that answers `t` ended without an error and with its effect, or with an error and no effect. -/
theorem exec_next_cases {i : Instr} {s t : State} (h : exec i s = .next t) :
    (resultOf s i = .ok ∧ t = (s.effect i).finish i.opcode .ok) ∨
    (resultOf s i ≠ .ok ∧ t = s.finish i.opcode (resultOf s i)) := by
  obtain rfl := Host.Outcome.next.inj ((exec_eq i s).symm.trans h)
  by_cases ok : resultOf s i = .ok
  · exact .inl ⟨ok, by rw [if_pos ok, ok]⟩
  · exact .inr ⟨ok, by rw [if_neg ok]⟩

/-- Settles O11: STATUS is written last, and no effect writes the other four fields. -/
theorem everyCommandEndsWithItsResult : Obligations.EveryCommandEndsWithItsResult := by
  intro i s
  refine ⟨_, exec_eq i s, rfl, ?_⟩
  split
  · exact s.effect_keeps i
  · exact ⟨rfl, rfl, rfl, rfl⟩

/-- Settles O12: an end with an error is the end without the effect. -/
theorem errorsChangeOnlyStatus : Obligations.ErrorsChangeOnlyStatus := by
  intro i s t h failed
  rcases exec_next_cases h with ⟨-, rfl⟩ | ⟨-, rfl⟩
  · exact absurd rfl failed
  · rfl

/-- Settles O13: of the effects, ENCODE's and PROCESS's write the buffers, and both stay in TXBUF. -/
theorem engineWritesOnlyTxbuf : Obligations.EngineWritesOnlyTxbuf := by
  intro i s t h
  rcases exec_next_cases h with ⟨-, rfl⟩ | ⟨-, rfl⟩
  case inr => exact ⟨fun _ _ => rfl, fun changed => absurd rfl changed⟩
  cases i with
  | encode => exact ⟨fun a ha => s.encodeFrame_below _ _ _ _ _ _ ha, fun _ => .inl rfl⟩
  | process =>
    have rx a (ha : a < Config.txBase) := s.processed_below ha
    obtain ⟨ent, f, l, m, x, e, -, -, writes, -⟩ := s.processed_frame
    refine ⟨rx, ?_⟩
    rw [State.effect, e]
    exact fun changed => .inr ⟨rfl, (writes.resolve_left fun same => changed same.1).1⟩
  | _ => exact ⟨fun _ _ => rfl, fun changed => absurd rfl changed⟩

/-- Settles O14: each effect writes the registers of its own unit. -/
theorem registersHaveTheirWriters : Obligations.RegistersHaveTheirWriters := by
  intro i s t h other
  rcases exec_next_cases h with ⟨-, rfl⟩ | ⟨-, rfl⟩
  case inr => simp
  cases i with
  | sreset => exact absurd rfl other
  | process =>
    obtain ⟨ent, f, l, m, x, e, -, counts, writes, -⟩ := s.processed_frame
    rw [State.effect, e]
    exact ⟨⟨rfl, rfl, rfl, rfl, rfl, rfl⟩, by simp, by simp, fun _ => .inr rfl,
      fun changed => .inr ⟨rfl, (writes.resolve_left fun same => changed same.2).1⟩,
      fun changed => .inr (.inr (.inr (.inr ⟨rfl, (counts.resolve_left fun same => changed same.2).1⟩))), fun _ => rfl⟩
  | encode =>
    rw [State.effect, State.encodeFrame_frame]
    simp
  | _ => simp [State.effect, addsToStream]

/-- Settles O15: of the effects, PROCESS's appends, LOG.POP's removes and SRESET's empties. -/
theorem logIsAFifo : Obligations.LogIsAFifo := by
  intro i s t h bounded
  rcases exec_next_cases h with ⟨ok, rfl⟩ | ⟨-, rfl⟩
  case inr => exact .inl rfl
  cases i with
  | process =>
    have room : s.log.length ≠ s.logDepth.toNat := fun full => by rw [resultOf, if_pos full] at ok; cases ok
    obtain ⟨ent, f, l, m, x, e, -, -, -, same | ⟨r, rfl⟩⟩ := s.processed_frame
    all_goals rw [State.effect, e]
    · exact .inl same
    · refine .inr (.inl ⟨rfl, ⟨r, rfl⟩, ?_⟩)
      simpa using Nat.lt_of_le_of_ne bounded room
  | logPop =>
    have full : s.log ≠ [] := fun empty => by rw [resultOf, if_pos empty] at ok; cases ok
    exact .inr (.inr (.inl ⟨rfl, s.log.head full, (List.cons_head_tail full).symm⟩))
  | sreset => exact .inr (.inr (.inr ⟨rfl, rfl⟩))
  | _ => exact .inl rfl

end Sys2Proof.Machine
end

section
/-! The step (60_exceptions.md R250, 44_control.md R242): what a busy and an idle engine do, and that CMDL is not observable
while the block is idle (10_state.md R58). -/

namespace Sys2Proof.Machine

open Sys2Proof

/-! ### The engine's step -/

/-- A busy engine runs the command its latched word names (R250). -/
theorem engineStep_legal {s : State} (hb : s.status.busy = true) {i : Instr} (hd : decodeWord s.cmdl = .ok i) :
    engineStep s = exec i s := by
  rcases engineStep_cases s with ⟨idle, -⟩ | ⟨-, j, hj, runs⟩ | ⟨-, ⟨e, he⟩, -⟩
  · rw [hb] at idle; cases idle
  · rw [hd] at hj; cases hj; exact runs
  · rw [hd] at he; cases he

/-- An idle engine waits (R283). -/
theorem engineStep_idle {s : State} (hb : s.status.busy = false) : engineStep s = .next s := by
  rcases engineStep_cases s with ⟨-, waits⟩ | ⟨busy, -⟩ | ⟨busy, -⟩
  · exact waits
  · rw [hb] at busy; cases busy
  · rw [hb] at busy; cases busy

/-- A word that no row selects is illegal (R105). -/
theorem decodeWord_error_of_no_row {w : Word} (h : ∀ r ∈ opTable, w &&& r.mask ≠ r.pattern) :
    ∃ e, decodeWord w = .error e :=
  (decodeWord_error_iff w).mpr ((no_row_selects_iff w).mp h)

/-- A word carries the OP byte of the command it decodes to (R101). -/
theorem opcode_of_decodeWord {w : Word} {i : Instr} (h : decodeWord w = .ok i) : i.opcode = w.extractLsb' 0 8 :=
  (decodeFields_eq_ok_iff.mp h).1.1.symm

/-- Settles O6: the token is taken before the engine moves, and it leaves the latched word alone. -/
theorem stepRunsTheLatchedCommand : Obligations.StepRunsTheLatchedCommand := fun s _ hf hb hd =>
  ⟨fun hi => (step_noInput hf hi).trans (engineStep_legal hb hd),
    fun hi => (step_engineTurn hf hi).trans (engineStep_legal (s := s.takeInput) hb hd)⟩

/-- Settles O7: a word that no row selects is one the decoder refuses. -/
theorem illegalWordChangesOnlyStatus : Obligations.IllegalWordChangesOnlyStatus := by
  intro s hf hb rows
  obtain ⟨e, hd⟩ := decodeWord_error_of_no_row rows
  exact ⟨fun hi => (step_noInput hf hi).trans (engineStep_illegal hb hd),
    fun hi => (step_engineTurn hf hi).trans (engineStep_illegal (s := s.takeInput) hb hd)⟩

/-- Settles O8: the latched word ends as its command or as an illegal word. -/
theorem engineStepClearsBusy : Obligations.EngineStepClearsBusy := by
  rintro s ⟨hf, hi⟩ hb
  rw [step_noInput hf hi]
  cases hd : decodeWord s.cmdl with
  | ok i =>
    rw [engineStep_legal hb hd, exec_eq]
    exact ⟨_, rfl, rfl, opcode_of_decodeWord hd⟩
  | error e => exact ⟨_, engineStep_illegal hb hd, rfl, rfl⟩

/-- Settles O9: with no input the step is the engine's, which waits. -/
theorem idleEngineWaits : Obligations.IdleEngineWaits := fun _ ⟨hf, hi⟩ hb =>
  (step_noInput hf hi).trans (engineStep_idle hb)

/-! ### The idle latch -/

theorem SameButIdleLatch.refl (s : State) : SameButIdleLatch s s := ⟨rfl, fun _ => rfl⟩

theorem OutcomesAgree.refl (o : Host.Outcome State Fault Refusal) : OutcomesAgree o o := by
  cases o with
  | next s => exact SameButIdleLatch.refl s
  | fault | refused => rfl

/-- With BUSY = 1 the latch is the same too (R58). -/
theorem SameButIdleLatch.eq_of_busy {s t : State} (h : SameButIdleLatch s t) (busy : s.status.busy = true) : s = t := by
  obtain ⟨rest, latch⟩ := h
  rw [rest, latch busy]

/-- While idle, the word in the latch may be any. -/
theorem SameButIdleLatch.of_idle {s t : State} (rest : s = { t with cmdl := s.cmdl }) (idle : t.status.busy = false) :
    SameButIdleLatch s t := by
  refine ⟨rest, fun busy => ?_⟩
  rw [rest] at busy
  cases idle.symm.trans busy

/-- States that differ in the idle latch only are an idle state with two words in the latch. -/
theorem SameButIdleLatch.exists_of_idle {s t : State} (h : SameButIdleLatch s t) (idle : s.status.busy = false) :
    t.status.busy = false ∧ ∃ c, s = { t with cmdl := c } := by
  obtain ⟨rest, -⟩ := h
  refine ⟨?_, _, rest⟩
  rw [rest] at idle
  exact idle

/-- An exchange is recorded alike (R18). -/
theorem SameButIdleLatch.observe {s t : State} (h : SameButIdleLatch s t) (x : HostAccess) (r : Response) :
    SameButIdleLatch (s.observe x r) (t.observe x r) := by
  obtain ⟨rest, latch⟩ := h
  exact ⟨congrArg (State.observe · x r) rest, latch⟩

section
variable {t : State} (idle : t.status.busy = false) (c : Word)
include idle

/-- A host write to an idle block does not depend on the latch, and a write to CMD ends the difference (R23). -/
theorem State.writeData_sameButIdleLatch (a : Addr) (w : Width) (v : Word) :
    SameButIdleLatch (({ t with cmdl := c } : State).writeData a w v) (t.writeData a w v) := by
  simp only [State.writeData]
  split
  case h_1 => exact .of_idle rfl idle
  case h_3 => exact .of_idle rfl idle
  case h_2 =>
    split
    case h_2 => exact .of_idle rfl idle
    case h_1 r _ =>
      cases r with
      | hist v => exact .of_idle rfl idle
      | named r =>
        cases r
        case cmd => exact .refl _
        all_goals exact .of_idle rfl idle

/-- A host access to an idle block does not depend on the latch, nor does its response. -/
theorem State.hostAccess_sameButIdleLatch (x : HostAccess) :
    SameButIdleLatch (({ t with cmdl := c } : State).hostAccess x) (t.hostAccess x) := by
  cases x with
  | read a w => exact .of_idle rfl idle
  | write a w v =>
    cases ok : busOk a w with
    | false =>
      rw [State.hostAccess_write_busError _ ok, State.hostAccess_write_busError _ ok]
      exact SameButIdleLatch.observe (.of_idle rfl idle) _ _
    | true =>
      rw [State.hostAccess_write_idle _ ok idle, State.hostAccess_write_idle { t with cmdl := c } ok idle]
      exact (State.writeData_sameButIdleLatch idle c a w v).observe _ _

/-- An unmarked step of an idle block never reads the latch (R58). -/
theorem stepUnmarked_sameButIdleLatch : OutcomesAgree (stepUnmarked { t with cmdl := c }) (stepUnmarked t) := by
  simp only [stepUnmarked]
  cases t.env.inputs with
  | nil =>
    rw [engineStep_idle idle, engineStep_idle (s := { t with cmdl := c }) idle]
    exact .of_idle rfl idle
  | cons x xs =>
    cases x with
    | access x => exact State.hostAccess_sameButIdleLatch (t := t.takeInput) idle c x
    | hardReset => exact .refl _
    | engineTurn =>
      simp only
      rw [engineStep_idle (s := t.takeInput) idle, engineStep_idle (s := ({ t with cmdl := c } : State).takeInput) idle]
      exact SameButIdleLatch.of_idle (t := t.takeInput) rfl idle

end

/-- A marked state stops at every step but a hardware reset (R258). -/
theorem step_marked {s : State} {f : Fault} {fs : List Fault} (hf : s.faults = f :: fs)
    (hi : s.env.inputs.head? ≠ some .hardReset) : step s = .fault f := by
  simp [step, hi, hf]

/-- A step that is not stopped by a mark goes by its inputs (R255, R258). -/
theorem step_eq_stepUnmarked {s : State} (h : s.env.inputs.head? = some .hardReset ∨ s.faults = []) :
    step s = stepUnmarked s := by
  unfold step
  rcases h with reset | unmarked
  · exact if_pos reset
  · simp [unmarked]

/-- Settles O10: with BUSY = 1 the states are equal, and an idle step never reads the latch. -/
theorem idleLatchIsUnobservable : Obligations.IdleLatchIsUnobservable := by
  intro s t same
  cases busy : s.status.busy with
  | true =>
    rw [same.eq_of_busy busy]
    exact .refl _
  | false =>
    obtain ⟨idle, c, rfl⟩ := same.exists_of_idle busy
    by_cases goes : t.env.inputs.head? = some .hardReset ∨ t.faults = []
    · rw [step_eq_stepUnmarked goes, step_eq_stepUnmarked (s := { t with cmdl := c }) goes]
      exact stepUnmarked_sameButIdleLatch idle c
    · obtain ⟨noReset, marked⟩ := not_or.mp goes
      obtain ⟨f, fs, hf⟩ := List.exists_cons_of_ne_nil marked
      rw [step_marked hf noReset, step_marked (s := { t with cmdl := c }) hf noReset]
      exact .refl _

end Sys2Proof.Machine
end

section
/-! The register words of the map (10_state.md section 2) by their fields, and what a host access is answered with
(20_memory.md R72-R83). -/

namespace Sys2Proof.Machine

open Sys2Proof

/-! ### Words by their fields -/

/-- The word with the given fields is the one whose value is their weighted sum (R10). -/
theorem eq_fieldWord {w : Word} {fields : List (Nat × Nat)} (h : w.toNat = (fields.map fun f => 2 ^ f.1 * f.2).sum) :
    w = fieldWord fields := by
  rw [fieldWord, ← h, BitVec.ofNat_toNat, BitVec.setWidth_eq]

/-- One field in the low bits (R10). -/
theorem setWidth_eq_fieldWord {n : Nat} (hn : n ≤ 32) (x : BitVec n) : x.setWidth 32 = fieldWord [(0, x.toNat)] :=
  eq_fieldWord (by simpa using BitVec.toNat_setWidth_of_le hn)

theorem lowHalf_eq_fieldWord (lo : Half) : lowHalf lo = fieldWord [(0, lo.toNat)] :=
  eq_fieldWord (by simpa using toNat_lowHalf lo)

theorem halves_eq_fieldWord (hi lo : Half) : halves hi lo = fieldWord [(0, lo.toNat), (16, hi.toNat)] :=
  (halves_eq_ofNat hi lo).trans (by simp [fieldWord])

/-- Two bytes in the lower half (R42). -/
theorem lowHalf_append_eq_fieldWord (hi lo : Byte) : lowHalf (hi ++ lo) = fieldWord [(0, lo.toNat), (8, hi.toNat)] := by
  have value := (toNat_lowHalf (hi ++ lo)).trans (toNat_append_eq hi lo)
  refine eq_fieldWord (value.trans ?_)
  simp only [List.map_cons, List.map_nil, List.sum_cons, List.sum_nil]
  omega

theorem CmdError.toNat_toBits (e : CmdError) : e.toBits.toNat = errCode e := by cases e <;> rfl

theorem Mode.toNat_toBits (m : Mode) : m.toBits.toNat = modeCode m := by cases m <;> rfl

theorem FilterState.toNat_toBits (f : FilterState) : f.toBits.toNat = fstateCode f := by cases f <;> rfl

theorem State.statusWord_eq (s : State) : s.statusWord = statusFields s := by
  refine eq_fieldWord (s.toNat_statusWord.trans ?_)
  simp only [CmdError.toNat_toBits, List.map_cons, List.map_nil, List.sum_cons, List.sum_nil]
  omega

theorem State.ctrlWord_eq (s : State) : s.ctrlWord =
    fieldWord [(0, s.ctrl.csumVerify.toNat), (1, modeCode s.ctrl.mode), (3, s.ctrl.logMalformed.toNat)] := by
  refine eq_fieldWord (s.toNat_ctrlWord.trans ?_)
  simp only [Mode.toNat_toBits, List.map_cons, List.map_nil, List.sum_cons, List.sum_nil]
  omega

theorem State.decStatusWord_eq (s : State) : s.decStatusWord =
    fieldWord [(0, dresCode s.dec.dres), (2, s.dec.csumChecked.toNat), (3, s.dec.csumBad.toNat)] := by
  have h1 := toNat_append_eq (bit s.dec.csumChecked) s.dec.dres.toBits
  have h2 := toNat_append_eq (bit s.dec.csumBad) (bit s.dec.csumChecked ++ s.dec.dres.toBits)
  refine eq_fieldWord ((toNat_append_eq (0 : BitVec 28) _).trans ?_)
  rw [h2, h1, toNat_singleBit, toNat_singleBit, DecodeResult.toNat_toBits]
  simp only [BitVec.ofNat_eq_ofNat, BitVec.toNat_ofNat, List.map_cons, List.map_nil, List.sum_cons, List.sum_nil]
  omega

theorem State.decTcWord_eq (s : State) : s.decTcWord =
    fieldWord [(0, s.dec.typ.toNat), (8, s.dec.code.toNat), (16, s.dec.proto.toNat), (24, s.dec.ihl.toNat)] := by
  have h1 := toNat_append_eq s.dec.code s.dec.typ
  have h2 := toNat_append_eq s.dec.proto (s.dec.code ++ s.dec.typ)
  have h3 := toNat_append_eq s.dec.ihl (s.dec.proto ++ (s.dec.code ++ s.dec.typ))
  refine eq_fieldWord ((toNat_append_eq (0 : BitVec 4) _).trans ?_)
  rw [h3, h2, h1]
  simp only [BitVec.ofNat_eq_ofNat, BitVec.toNat_ofNat, List.map_cons, List.map_nil, List.sum_cons, List.sum_nil]
  omega

theorem State.entResultWord_eq (s : State) : s.entResultWord =
    fieldWord [(0, s.ent.score.toNat), (16, verdictCode s.ent.verdict), (31, s.ent.valid.toNat)] := by
  have h1 := toNat_append_eq s.ent.verdict.toBits s.ent.score
  have h2 := toNat_append_eq (0 : BitVec 13) (s.ent.verdict.toBits ++ s.ent.score)
  refine eq_fieldWord ((toNat_append_eq (bit s.ent.valid) _).trans ?_)
  rw [h2, h1, toNat_singleBit, Verdict.toNat_toBits]
  simp only [BitVec.ofNat_eq_ofNat, BitVec.toNat_ofNat, List.map_cons, List.map_nil, List.sum_cons, List.sum_nil]
  omega

theorem State.logCountWord_eq (s : State) : s.logCountWord = fieldWord [(0, s.log.length % 256)] :=
  eq_fieldWord (by simpa using s.toNat_logCountWord)

/-- A word of the head record (R56). -/
theorem State.logHead_word (s : State) {f : LogRecord → Word} (zero : f ⟨0, 0, 0, 0⟩ = 0) :
    f s.logHead = headWord f s.log := by
  unfold State.logHead headWord
  cases s.log with
  | nil => exact zero
  | cons r rest => rfl

/-- The register map lists every named register with its offset and the word it reads as (10_state.md section 2). -/
theorem windowTable_eq (s : State) : windowTable s = RegName.all.map fun r => (r, r.offset, s.readNamed r) := by
  simp only [RegName.all, List.map_cons, List.map_nil, State.readNamed, RegName.offset]
  rw [lowHalf_append_eq_fieldWord]
  simp only [s.statusWord_eq, s.ctrlWord_eq, s.decStatusWord_eq, s.decTcWord_eq, s.entResultWord_eq, s.logCountWord_eq,
    lowHalf_eq_fieldWord, halves_eq_fieldWord, setWidth_eq_fieldWord (show 8 ≤ 32 by decide),
    setWidth_eq_fieldWord (show 1 ≤ 32 by decide), setWidth_eq_fieldWord (show 3 ≤ 32 by decide), toNat_singleBit,
    FilterState.toNat_toBits, s.logHead_word (f := LogRecord.w0) rfl, s.logHead_word (f := LogRecord.w1) rfl,
    s.logHead_word (f := LogRecord.w2) rfl, s.logHead_word (f := LogRecord.w3) rfl]
  rfl

theorem RegName.mem_all (r : RegName) : r ∈ RegName.all := by cases r <;> decide

theorem mem_windowTable_iff {s : State} {p : RegName × Nat × Word} :
    p ∈ windowTable s ↔ ∃ r : RegName, p = (r, r.offset, s.readNamed r) := by
  rw [windowTable_eq, List.mem_map]
  exact ⟨fun ⟨r, _, h⟩ => ⟨r, h.symm⟩, fun ⟨r, h⟩ => ⟨r, r.mem_all, h.symm⟩⟩

end Sys2Proof.Machine
end

section
/-! The host's accesses by their outcome (20_memory.md R72-R84, R258): bus errors, the register window of an idle block,
and a busy block. -/

namespace Sys2Proof.Machine

open Sys2Proof

/-! ### Bus errors -/

/-- The bus accepts exactly the accesses without a bus error (R72, R77, R78). -/
theorem busOk_eq_false_iff (a : Addr) (w : Width) : busOk a w = false ↔ IsBusError a w := by
  unfold busOk IsBusError
  rcases regionOf_cases a with ⟨h, e⟩ | ⟨h1, h2, e⟩ | ⟨h, e⟩ <;> rw [e]
  · simp only [beq_eq_false_iff_ne]
    simp only [Config.regBase] at h
    omega
  · simp only [Bool.and_eq_false_iff, beq_eq_false_iff_ne]
    simp only [Config.regBase, Config.regEnd] at h1 h2
    constructor
    · exact fun bad => .inr (.inr ⟨h1, h2, bad⟩)
    · rintro (h | h | h)
      · omega
      · omega
      · exact h.2.2
  · exact iff_of_true rfl (.inl h)

theorem busOk_of_not_isBusError {a : Addr} {w : Width} (h : ¬ IsBusError a w) : busOk a w = true := by
  rwa [← busOk_eq_false_iff, Bool.not_eq_false] at h

/-- Settles O45: a read and a write that the bus refuses leave the block as it is, busy or not. -/
theorem busErrorsChangeNothing : Obligations.BusErrorsChangeNothing := by
  rintro s x ⟨hf, hi⟩ bad
  rw [← busOk_eq_false_iff] at bad
  rw [step_access hf hi]
  cases x with
  | read a w => rw [State.hostAccess_read_busError (a := a) (w := w) _ bad]; rfl
  | write a w v => rw [State.hostAccess_write_busError (a := a) (w := w) _ bad]; rfl

/-! ### An idle block -/

/-- An idle block answers a read with its value and changes nothing (R74, R84). -/
theorem step_read_idle {s : State} {a : Addr} {w : Width} (next : s.HostNext (.read a w))
    (idle : s.status.busy = false) (ok : busOk a w = true) :
    step s = .next (answered s (.read a w) (.data (s.readData a w))) := by
  rw [step_access next.1 next.2, s.takeInput.hostAccess_read_value ok (State.readIsDraw_idle idle a)]
  rfl

/-- Performing a write and recording it may be exchanged: no write reaches the observation (R18). -/
theorem State.writeData_observe (s : State) (a : Addr) (w : Width) (v : Word) (x : HostAccess) (r : Response) :
    (s.writeData a w v).observe x r = (s.observe x r).writeData a w v := by
  simp only [State.writeData]
  split
  case h_2 =>
    split
    case h_1 r _ =>
      cases r with
      | hist => rfl
      | named r => cases r <;> rfl
    case h_2 => rfl
  all_goals rfl

/-- An idle block accepts a write and performs it (R74, R80, R81). -/
theorem step_write_idle {s : State} {a : Addr} {w : Width} {v : Word} (next : s.HostNext (.write a w v))
    (idle : s.status.busy = false) (ok : busOk a w = true) :
    step s = .next ((answered s (.write a w v) .written).writeData a w v) := by
  rw [step_access next.1 next.2, s.takeInput.hostAccess_write_idle ok idle, State.writeData_observe]
  rfl

/-- Settles O47: the first two lanes stored, read back big-endian. -/
theorem engineSeesByteSwappedHalf : Obligations.EngineSeesByteSwappedHalf := by
  intro s a v next idle ha aligned
  have inBuffers : a.toNat < 0x20000 := by omega
  obtain ⟨t, steps, -, lane, -⟩ := (bufferAccessesMoveTheirLanes s a .w4 idle inBuffers aligned).1 v next
  have lane0 : t.byteAt a.toNat = v.extractLsb' 0 8 := lane 0 (by decide)
  have lane1 : t.byteAt (a.toNat + 1) = v.extractLsb' 8 8 := lane 1 (by decide)
  refine ⟨t, steps, lane0, lane1, ?_⟩
  have value := beValue_pair (t.byteAt a.toNat) (t.byteAt (a.toNat + 1))
  rw [lane0, lane1, toNat_slice, toNat_slice] at value
  rw [State.memRead, State.bufBytes_rx]
  refine Eq.trans ?_ (value.trans (by omega))
  rw [← lane0, ← lane1]
  rfl

/-! ### The register window -/

/-- A 4-aligned, 4-byte access to the window gets no bus error (R78). -/
theorem busOk_window {a : Addr} (h1 : Config.regBase ≤ a.toNat) (h2 : a.toNat < Config.regEnd) (h4 : a.toNat % 4 = 0) :
    busOk a .w4 = true := by
  simp [busOk, regionOf_window h1 h2, h4]

/-- A register is found at its own offset only (10_state.md section 2). -/
theorem offset_of_regAt {a : Addr} {r : Reg} (h1 : Config.regBase ≤ a.toNat) (h2 : a.toNat < Config.regEnd)
    (h4 : a.toNat % 4 = 0) (h : regAt (a.extractLsb' 0 11) = some r) : a.toNat = Config.regBase + r.offset := by
  simp only [Config.regBase, Config.regEnd] at h1 h2 ⊢
  have off : (a.extractLsb' 0 11).toNat = a.toNat - 0x20000 := by rw [toNat_slice]; omega
  have top := toNat_bit (a.extractLsb' 0 11) 10
  unfold regAt at h
  split at h
  case isTrue counter =>
    obtain rfl := Option.some.inj h
    have value := toNat_slice (a.extractLsb' 0 11) 2 8
    rw [counter, Bool.toNat_true] at top
    simp only [Reg.offset, value]
    omega
  case isFalse =>
    obtain ⟨q, found, rfl⟩ := Option.map_eq_some_iff.mp h
    have same : q.offset = (a.extractLsb' 0 11).toNat := by simpa using List.find?_some found
    rw [Reg.offset, same]
    omega

/-- At an offset without a register the window reads 0 and ignores a write (R80). -/
theorem State.readData_reserved (s : State) {a : Addr} (h1 : Config.regBase ≤ a.toNat) (h2 : a.toNat < Config.regEnd)
    (none : regAt (a.extractLsb' 0 11) = none) (w : Width) : s.readData a w = 0 := by
  simp only [State.readData, regionOf_window h1 h2, none]

/-- A read of a counter (R53). -/
theorem State.readData_hist (s : State) {a : Addr} {v : Byte} (e : a.toNat = 0x20400 + 4 * v.toNat) (w : Width) :
    s.readData a w = s.readReg (.hist v) := by
  have hv := v.isLt
  have window := regionOf_window (a := a) (by rw [e, Config.regBase]; omega) (by rw [e, Config.regEnd]; omega)
  simp only [State.readData, window, regAt_hist (a := a) (v := v) e]

/-- A step that reads a named register of an idle block (R82). -/
theorem step_read_named {s : State} {r : RegName} (next : s.HostNext (.read r.addr .w4))
    (idle : s.status.busy = false) :
    step s = .next (answered s (.read r.addr .w4) (.data (s.readNamed r))) := by
  rw [step_read_idle next idle (busOk_named r), State.readData_named]

/-- Settles O48: an address of the window is a named register's, a counter's or reserved, and each reads as its word. -/
theorem registerWindowReads : Obligations.RegisterWindowReads := by
  intro s
  have counter (v : Byte) : s.readReg (.hist v) = fieldWord [(0, (s.ent.hist[v.toNat]'v.isLt).toNat)] :=
    lowHalf_eq_fieldWord _
  refine ⟨fun p hp => ?word, counter, fun a next idle => ⟨fun p hp at_ => ?named, fun v at_ => ?hist,
    fun h1 h2 h4 free => ?reserved⟩⟩
  case word =>
    obtain ⟨r, rfl⟩ := mem_windowTable_iff.mp hp
    rfl
  case named =>
    obtain ⟨r, rfl⟩ := mem_windowTable_iff.mp hp
    obtain rfl := addr_of_offset at_
    exact step_read_named next idle
  case hist =>
    have hv := v.isLt
    have ok : busOk a .w4 = true := busOk_window (by rw [at_, Config.regBase]; omega) (by rw [at_, Config.regEnd]; omega)
      (by omega)
    rw [step_read_idle next idle ok, s.readData_hist at_, counter]
  case reserved =>
    have h3 : a.toNat < Config.regEnd := by simp only [Config.regEnd]; omega
    rw [step_read_idle next idle (busOk_window h1 h3 h4)]
    cases found : regAt (a.extractLsb' 0 11) with
    | none => rw [s.readData_reserved h1 h3 found]
    | some r =>
      have at_ := offset_of_regAt h1 h3 h4 found
      cases r with
      | named r => exact absurd at_ (free _ (mem_windowTable_iff.mpr ⟨r, rfl⟩))
      | hist v => simp only [Config.regBase, Reg.offset] at at_; omega

/-- A step that writes a named register of an idle block (R82). -/
theorem step_write_named {s : State} {r : RegName} {v : Word} (next : s.HostNext (.write r.addr .w4 v))
    (idle : s.status.busy = false) :
    step s = .next ((answered s (.write r.addr .w4 v) .written).writeNamed v r) := by
  rw [step_write_idle next idle (busOk_named r), State.writeData_named]

/-- The low `n` bits of a word, kept by their mask. -/
theorem toNat_and_mask (v : Word) {m : Word} {n : Nat} (hm : m.toNat = 2 ^ n - 1) : (v &&& m).toNat = v.toNat % 2 ^ n := by
  rw [BitVec.toNat_and, hm, Nat.and_two_pow_sub_one_eq_mod]

/-- A 16-bit field takes the low half of the data word. -/
theorem lowHalf_lo16 (v : Word) : lowHalf (lo16 v) = v &&& 0x0000FFFF := by
  refine eq_of_toNat ((toNat_lowHalf _).trans ?_)
  rw [lo16, toNat_slice, toNat_and_mask v (n := 16) (by decide)]
  omega

/-- Two 16-bit fields take the two halves of the data word. -/
theorem halves_hi16_lo16 (v : Word) : halves (hi16 v) (lo16 v) = v &&& 0xFFFFFFFF := by
  have lt := v.isLt
  refine eq_of_toNat ((toNat_halves _ _).trans ?_)
  rw [hi16, lo16, toNat_slice, toNat_slice, toNat_and_mask v (n := 32) (by decide)]
  omega

/-- An 8-bit field takes the low byte of the data word. -/
theorem setWidth_lowByte (v : Word) : (v.extractLsb' 0 8).setWidth 32 = v &&& 0x000000FF := by
  refine eq_of_toNat ((BitVec.toNat_setWidth_of_le (by decide)).trans ?_)
  rw [toNat_slice, toNat_and_mask v (n := 8) (by decide)]
  omega

/-- Two 8-bit fields take the two bytes of the low half of the data word. -/
theorem lowHalf_bytes (v : Word) : lowHalf (v.extractLsb' 8 8 ++ v.extractLsb' 0 8) = v &&& 0x0000FFFF := by
  refine eq_of_toNat ((toNat_lowHalf _).trans ((toNat_append_eq _ _).trans ?_))
  rw [toNat_slice, toNat_slice, toNat_and_mask v (n := 16) (by decide)]
  omega

/-- The RW registers apart from CMD and CTRL, in the order of the map (10_state.md section 2). -/
def RegName.plainWritable : List RegName :=
  [.capLen, .arg, .expProto, .encTc, .encIdseq, .encLen, .thHigh, .thLow, .lenFloor]

/-- What a write makes of the state, as the table of writes says (R25-R27, R42-R44, R48-R50). -/
theorem writeTable_eq (s : State) (v : Word) :
    writeTable s v = RegName.plainWritable.map fun r => (r.offset, s.writeNamed v r) := rfl

/-- The table of writable bits lists those registers with their offsets. -/
theorem writableBits_map : writableBits.map (fun q => (q.1, q.2.1)) = RegName.plainWritable.map fun r => (r, r.offset) := rfl

/-- A register just written reads as the data word's writable bits (10_state.md section 2). -/
theorem State.readNamed_writeNamed (s : State) (v : Word) :
    ∀ q ∈ writableBits, (s.writeNamed v q.1).readNamed q.1 = v &&& q.2.2 := by
  simp only [writableBits, List.forall_mem_cons, List.not_mem_nil, false_imp_iff, implies_true, and_true]
  exact ⟨lowHalf_lo16 v, halves_hi16_lo16 v, setWidth_lowByte v, lowHalf_bytes v, halves_hi16_lo16 v,
    halves_hi16_lo16 v, lowHalf_lo16 v, lowHalf_lo16 v, lowHalf_lo16 v⟩

/-- A write to a register that is not RW is ignored (R81). -/
theorem State.writeNamed_readOnly (s : State) (v : Word) {r : RegName} (cmd : r ≠ .cmd) (ctrl : r ≠ .ctrl)
    (ro : r ∉ RegName.plainWritable) : s.writeNamed v r = s := by
  cases r
  case cmd => exact absurd rfl cmd
  case ctrl => exact absurd rfl ctrl
  case capLen | arg | expProto | encTc | encIdseq | encLen | thHigh | thLow | lenFloor => exact absurd (by decide) ro
  all_goals rfl

/-- The offsets of a table of RW registers are the registers' own. -/
theorem exists_of_mem_writableBits {q : RegName × Nat × Word} (hq : q ∈ writableBits) :
    q.1 ∈ RegName.plainWritable ∧ q.2.1 = q.1.offset := by
  have mem := List.mem_map_of_mem (f := fun q : RegName × Nat × Word => (q.1, q.2.1)) hq
  rw [writableBits_map, List.mem_map] at mem
  obtain ⟨r, hr, e⟩ := mem
  obtain ⟨rfl, off⟩ := Prod.ext_iff.mp e
  exact ⟨hr, off.symm⟩

/-- Every RW register apart from CMD and CTRL is in the table. -/
theorem exists_mem_writableBits {r : RegName} (hr : r ∈ RegName.plainWritable) : ∃ q ∈ writableBits, q.2.1 = r.offset := by
  have mem := List.mem_map_of_mem (f := fun r : RegName => (r, r.offset)) hr
  rw [← writableBits_map, List.mem_map] at mem
  obtain ⟨q, hq, e⟩ := mem
  exact ⟨q, hq, (Prod.ext_iff.mp e).2⟩

/-- Settles O49: a write to the window goes to the register at its offset, and only the listed ones take it. -/
theorem registerWindowWrites : Obligations.RegisterWindowWrites := by
  intro s a v next idle
  refine ⟨fun p hp at_ => ?fields, fun q hq at_ => ?readBack, fun h1 h2 h4 cmd ctrl free => ?ignored⟩
  case fields =>
    rw [writeTable_eq] at hp
    obtain ⟨r, -, rfl⟩ := List.mem_map.mp hp
    obtain rfl := addr_of_offset at_
    exact step_write_named next idle
  case readBack =>
    rw [(exists_of_mem_writableBits hq).2] at at_
    obtain rfl := addr_of_offset at_
    exact ⟨_, step_write_named next idle, State.readNamed_writeNamed _ v q hq⟩
  case ignored =>
    rw [step_write_idle next idle (busOk_window h1 h2 h4)]
    refine congrArg Host.Outcome.next ?_
    rcases (answered s (.write a .w4 v) .written).writeData_cases a .w4 v with ⟨buffer, -⟩ | ⟨-, r, found, e⟩ | ⟨-, e⟩
    · exact absurd h1 (Nat.not_le.mpr buffer)
    · rw [e]
      have at_ := offset_of_regAt h1 h2 h4 found
      cases r with
      | hist => rfl
      | named r =>
        have here := addr_of_offset at_
        refine State.writeNamed_readOnly _ v (fun h => cmd ?_) (fun h => ctrl ?_) fun rw => ?_
        · rw [here, h]; rfl
        · rw [here, h]; rfl
        · obtain ⟨q, hq, off⟩ := exists_mem_writableBits rw
          exact free q hq (by rw [off]; exact at_)
    · exact e

/-! ### CTRL and CMD -/

/-- A write of 0b11 keeps the mode, any other value is its code (R24). -/
theorem Mode.toBits_write (m : Mode) (v : BitVec 2) : (m.write v).toBits = if v = 3 then m.toBits else v := by
  revert v
  cases m <;> decide

/-- The four bits of CTRL: LOG_MALFORMED, MODE, CSUM_VERIFY (R24). -/
def ctrlNibble (logMalformed : Bool) (mode : BitVec 2) (csumVerify : Bool) : BitVec 4 :=
  bit logMalformed ++ (mode ++ bit csumVerify)

theorem State.ctrlWord_eq_nibble (s : State) :
    s.ctrlWord = (ctrlNibble s.ctrl.logMalformed s.ctrl.mode.toBits s.ctrl.csumVerify).setWidth 32 :=
  BitVec.setWidth_eq_append (show 4 ≤ 32 by decide) |>.symm

/-- The rule for bits 3:0, over all values written and all values of CTRL (R24). -/
theorem ctrlNibble_write : ∀ (lm cv : Bool) (m : BitVec 2) (x : BitVec 4),
    ctrlNibble (x.getLsbD 3) (if x.extractLsb' 1 2 = 3 then m else x.extractLsb' 1 2) (x.getLsbD 0) =
      if x &&& 6 = 6 then (x &&& 9) ||| (ctrlNibble lm m cv &&& 6) else x := by
  decide

/-- A constant below 16 masks the low four bits of a word. -/
theorem and_low (v : Word) (m : BitVec 4) : v &&& m.setWidth 32 = (v.extractLsb' 0 4 &&& m).setWidth 32 := by
  ext k hk
  by_cases h : k < 4 <;> simp [h, BitVec.getLsbD_eq_getElem hk, BitVec.getLsbD_of_ge, Nat.le_of_not_lt]

/-- The fields a write to CTRL takes are bits of the data word's low nibble (R24). -/
theorem State.ctrlWord_write_fields (s : State) (v : Word) :
    ({ s with ctrl := s.ctrl.write v } : State).ctrlWord = (ctrlNibble ((v.extractLsb' 0 4).getLsbD 3)
      (if (v.extractLsb' 0 4).extractLsb' 1 2 = 3 then s.ctrl.mode.toBits else (v.extractLsb' 0 4).extractLsb' 1 2)
      ((v.extractLsb' 0 4).getLsbD 0)).setWidth 32 := by
  have mode : (v.extractLsb' 0 4).extractLsb' 1 2 = v.extractLsb' 1 2 := by
    ext k hk
    simp
  rw [State.ctrlWord_eq_nibble, mode, ← Mode.toBits_write]
  simp [Ctrl.write]

/-- CTRL after a write (R24). -/
theorem State.ctrlWord_write (s : State) (v : Word) : ({ s with ctrl := s.ctrl.write v } : State).ctrlWord =
    if v &&& 6 = 6 then (v &&& 9) ||| (s.ctrlWord &&& 6) else v &&& 0xF := by
  have old : s.ctrlWord.extractLsb' 0 4 = ctrlNibble s.ctrl.logMalformed s.ctrl.mode.toBits s.ctrl.csumVerify := by
    rw [State.ctrlWord_eq_nibble]
    ext k hk
    simp [show k < 32 by omega, BitVec.getLsbD_eq_getElem hk]
  have mask6 : v &&& 6 = (v.extractLsb' 0 4 &&& 6).setWidth 32 := and_low v 6
  have mask9 : v &&& 9 = (v.extractLsb' 0 4 &&& 9).setWidth 32 := and_low v 9
  have mask15 : v &&& 0xF = (v.extractLsb' 0 4).setWidth 32 :=
    (and_low v (BitVec.allOnes 4)).trans (by rw [BitVec.and_allOnes])
  have old6 : s.ctrlWord &&& 6 = (s.ctrlWord.extractLsb' 0 4 &&& 6).setWidth 32 := and_low s.ctrlWord 6
  have keeps : v &&& 6 = 6 ↔ v.extractLsb' 0 4 &&& 6 = 6 := by
    rw [mask6]
    generalize v.extractLsb' 0 4 &&& 6 = y
    revert y
    decide
  rw [s.ctrlWord_write_fields, ctrlNibble_write s.ctrl.logMalformed s.ctrl.csumVerify, mask9, mask15, old6, old,
    if_congr keeps rfl rfl, ← BitVec.setWidth_or, apply_ite (BitVec.setWidth 32)]

/-- Settles O50: the write reaches CTRL, which then reads by its rule. -/
theorem ctrlWriteKeepsALegalMode : Obligations.CtrlWriteKeepsALegalMode := by
  intro s v next idle
  have steps := step_write_named (r := .ctrl) next idle
  exact ⟨_, steps, rfl, State.ctrlWord_write _ v⟩

/-- A write that finds the block busy marks FAULT (R258). -/
theorem step_write_busy {s : State} {a : Addr} {w : Width} {v : Word} (next : s.HostNext (.write a w v))
    (busy : s.status.busy = true) (ok : busOk a w = true) :
    ∃ t, step s = .next t ∧ Fault.writeWhileBusy ∈ t.faults := by
  refine ⟨_, step_access next.1 next.2, ?_⟩
  rw [s.takeInput.hostAccess_write_busy ok busy, State.observe_faults, State.markFault_eq]
  simp [next.1]

/-- Settles O51: CMD is a named register, which an idle block latches and reads as 0. -/
theorem cmdWriteLatches : Obligations.CmdWriteLatches := fun _ _ =>
  ⟨fun idle next => step_write_named (r := .cmd) next idle,
    fun busy next => step_write_busy next busy (busOk_named .cmd),
    fun idle next => step_read_named (r := .cmd) next idle⟩

/-! ### A busy block -/

/-- Settles O52: while busy STATUS is the one address whose read is no draw. -/
theorem readsWhileBusyAreDraws : Obligations.ReadsWhileBusyAreDraws := by
  intro s a w next busy legal
  have ok := busOk_of_not_isBusError legal
  rw [step_access next.1 next.2]
  refine ⟨fun status => ?value, fun other => ?draw⟩
  case value =>
    have noDraw : s.takeInput.readIsDraw a = false := by
      rw [status]
      simp [State.readIsDraw, RegName.addr, RegName.offset]
    have word : s.takeInput.readData a w = statusFields s := by
      rw [show a = RegName.status.addr from status, State.readData_named]
      exact s.statusWord_eq
    rw [State.hostAccess_read_value _ ok noDraw, word]
    rfl
  case draw =>
    have draws : s.takeInput.readIsDraw a = true := by
      have elsewhere : a ≠ RegName.status.addr := other
      simp [State.readIsDraw, busy, elsewhere]
    refine ⟨_, Config.busyRead s.env.draws, rfl, rfl, ?_⟩
    rw [State.hostAccess_read_draw _ ok draws]
    rfl

/-- Settles O53: a marked state stops with its mark, and WriteWhileBusy is the only one. -/
theorem writeWhileBusyRefutesTheRun : Obligations.WriteWhileBusyRefutesTheRun := by
  refine ⟨fun s a w v next busy legal => step_write_busy next busy (busOk_of_not_isBusError legal),
    fun s marked noReset => ?_⟩
  obtain ⟨⟨⟩, fs, hf⟩ := List.exists_cons_of_ne_nil (List.ne_nil_of_mem marked)
  exact step_marked hf noReset

end Sys2Proof.Machine
end

section
/-! The checksum over streams (40_checksum.md R132, R135, R137-R141): the fold as a residue, pieces of a stream, and frames
that hold their own checksum. -/

namespace Sys2Proof.Machine

open Sys2Proof

/-! ### CSUM.WORD and CSUM.FIN -/

/-- From either parity a word adds its two bytes, swapped at parity 1, and keeps the parity (R135). -/
theorem addBytes_wire16 (acc : Word) (par : Bool) (h : Half) :
    addBytes (acc, par) (wire16 h) =
      (acc + BitVec.ofNat 32 (if par then h.toNat % 256 * 256 + h.toNat / 256 else h.toNat), par) := by
  have high := toNat_slice h 8 8
  have low := toNat_slice h 0 8
  have lt := h.isLt
  rw [wire16, addBytes_cons, addBytes_cons, addBytes_nil, addByte_eq, addByte_eq, BitVec.add_assoc, ← BitVec.ofNat_add,
    high, low]
  cases par with
  | true => exact congrArg (fun n => (acc + BitVec.ofNat 32 n, true)) (by simp; omega)
  | false => exact congrArg (fun n => (acc + BitVec.ofNat 32 n, false)) (by simp; omega)

/-- Settles O20: two AddBytes, high byte first. -/
theorem csumWordKeepsParity : Obligations.CsumWordKeepsParity := by
  intro h s
  change Host.Outcome.next ((s.accumulate (wire16 h)).finish 0x03 .ok) = _
  rw [BitVec.ofNat_add, BitVec.ofNat_toNat, BitVec.setWidth_eq]
  simp only [State.accumulate, addBytes_wire16]
  rfl

/-- The ones'-complement sum of the two halves of a natural below 2^32: its residue modulo 65535, with 65535 for the
residue 0 of a nonzero one (R132, R139). -/
def onesSum (n : Nat) : Nat := if n = 0 then 0 else if n % 65535 = 0 then 65535 else n % 65535

/-- A number up to 65535 is the ones'-complement sum of what it is congruent to modulo 65535, 0 of 0 alone (R139). -/
theorem onesSum_eq {n k r : Nat} (hn : n = 65535 * k + r) (hr : r ≤ 65535) (zero : r = 0 → n = 0) : onesSum n = r := by
  have residue : n % 65535 = r % 65535 := by rw [hn, Nat.mul_add_mod]
  rw [onesSum, residue]
  split_ifs <;> omega

/-- Two folds leave the ones'-complement sum (R132, R139). -/
theorem twoFolds_eq {n : Nat} (h : n < 2 ^ 32) :
    ((n % 65536 + n / 65536) % 65536 + (n % 65536 + n / 65536) / 65536) % 65536 = onesSum n := by
  have halves := Nat.div_add_mod n 65536
  have low := Nat.mod_lt n (show 0 < 65536 by decide)
  have high : n / 65536 < 65536 := Nat.div_lt_of_lt_mul h
  generalize n / 65536 = q at *
  generalize n % 65536 = r at *
  symm
  rcases Nat.lt_or_ge (r + q) 65536 with small | carry
  · rw [Nat.mod_eq_of_lt small, Nat.div_eq_of_lt small, Nat.add_zero, Nat.mod_eq_of_lt small]
    exact onesSum_eq (k := q) (by omega) (by omega) (by omega)
  · have keep : (r + q) % 65536 = r + q - 65536 := by omega
    have once : (r + q) / 65536 = 1 := by omega
    rw [keep, once, Nat.mod_eq_of_lt (by omega)]
    exact onesSum_eq (k := q + 1) (by omega) (by omega) (by omega)

theorem foldSum_eq (acc : Word) : foldSum acc = BitVec.ofNat 16 (65535 - onesSum acc.toNat) :=
  congrArg (fun n => BitVec.ofNat 16 (65535 - n)) (twoFolds_eq acc.isLt)

/-- Settles O22: the fold is CSUM.FIN's one computation. -/
theorem csumFinIsTheOnesComplement : Obligations.CsumFinIsTheOnesComplement := by
  intro s
  change Host.Outcome.next (({ s with csum := { s.csum with res := foldSum s.csum.acc } } : State).finish 0x05 .ok) = _
  rw [foldSum_eq]
  rfl

/-! ### Streams -/

/-- What a piece adds to the stream depends on its own ARG and buffers and on the number of the draw. -/
theorem Feed.csumInput_place (f : Feed) {s t : State} (h : s.env.resets = t.env.resets) :
    csumInput (f.place s) f.command = csumInput (f.place t) f.command := by
  cases hc : f.command with
  | csumBuf b =>
    rw [csumInput, csumInput, slice_eq_bufBytes, slice_eq_bufBytes]
    exact State.bytesAt_congr (s := f.place s) (t := f.place t) rfl h _ _
  | _ => rfl

/-- A checksum command without a RANGE error adds its bytes to the accumulator (R134-R136). -/
theorem exec_addsToStream {i : Instr} {s : State} (adds : addsToStream i = true) (ok : resultOf s i = .ok) :
    exec i s = .next ((s.accumulate (csumInput s i)).finish i.opcode .ok) := by
  rw [exec_eq, ok, if_pos rfl]
  cases i with
  | csumByte | csumWord => rfl
  | csumBuf b => rw [csumInput, slice_eq_bufBytes]; rfl
  | _ => cases adds

/-- A piece of a stream completes (R136). -/
def Feed.Completes (f : Feed) : Prop :=
  addsToStream f.command = true ∧ ∀ b, f.command = .csumBuf b → f.arg.off.toNat + f.arg.len.toNat ≤ 65536

theorem Feed.resultOf_place {f : Feed} (h : f.Completes) (s : State) : resultOf (f.place s) f.command = .ok := by
  obtain ⟨adds, range⟩ := h
  cases hc : f.command with
  | csumBuf b => exact if_neg (Nat.not_lt.mpr (range b hc))
  | csumByte | csumWord => rfl
  | _ => rw [hc] at adds; cases adds

/-- A run of pieces completes and adds their bytes one after another (R140). -/
theorem runFeeds_accumulates {fs : List Feed} (h : ∀ f ∈ fs, f.Completes) {s : State} (t : State)
    (draws : t.env.resets = s.env.resets) :
    ∃ u, runFeeds fs t = some u ∧ (u.csum.acc, u.csum.par) =
      addBytes (t.csum.acc, t.csum.par) (fs.flatMap fun f => csumInput (f.place s) f.command) := by
  induction fs generalizing t with
  | nil => exact ⟨t, rfl, rfl⟩
  | cons f fs ih =>
    obtain ⟨first, rest⟩ := List.forall_mem_cons.mp h
    have ends := exec_addsToStream (s := f.place t) first.1 (Feed.resultOf_place first t)
    rw [f.csumInput_place draws] at ends
    obtain ⟨u, runs, acc⟩ :=
      ih rest (((f.place t).accumulate (csumInput (f.place s) f.command)).finish f.command.opcode .ok) draws
    refine ⟨u, ?_, acc.trans ?_⟩
    · simp only [runFeeds, ends, runs]
    · rw [List.flatMap_cons, addBytes_append]
      rfl

/-- Settles O24: from an empty accumulator the pieces leave the sum of all bytes, which CSUM.FIN folds. -/
theorem streamingEqualsWholeBuffer : Obligations.StreamingEqualsWholeBuffer := by
  intro fs s h
  obtain ⟨u, runs, acc⟩ := runFeeds_accumulates (s := s) h
    { s with csum := { acc := 0, par := false, res := s.csum.res }, status := endStatus 0x01 .ok } rfl
  exact ⟨_, u, _, csumClrZeroesTheAccumulator s, runs, rfl, congrArg foldSum (congrArg Prod.fst acc)⟩

/-! ### Self-consistency -/

/-- A word sum is at most 65535 for each word (R138). -/
theorem wordSum_le (bs : List Byte) : wordSum bs ≤ 65535 * ((bs.length + 1) / 2) := by
  induction bs using List.twoStepInduction with
  | nil => simp
  | singleton a =>
    have ha := a.isLt
    rw [wordSum_singleton, List.length_singleton]
    omega
  | cons_cons a b bs ih _ =>
    have ha := a.isLt
    have hb := b.isLt
    rw [wordSum_cons_cons, List.length_cons, List.length_cons]
    omega

/-- The word sum of a string is that with one of its words read as 0, and that word (R131). -/
theorem wordSum_set_word (a b : Byte) {bs : List Byte} {z : Nat} (even : z % 2 = 0) (hz : z + 1 < bs.length) :
    wordSum ((bs.set z a).set (z + 1) b) = wordSum ((bs.set z 0).set (z + 1) 0) + (a.toNat * 256 + b.toNat) := by
  induction bs using List.twoStepInduction generalizing z with
  | nil => simp at hz
  | singleton => simp at hz
  | cons_cons x y bs ih _ =>
    match z with
    | 0 => simp [Nat.add_comm]
    | 1 => cases even
    | z + 2 =>
      have rest := ih (z := z) (by omega) (by simp only [List.length_cons] at hz; omega)
      simp only [List.set_cons_succ, wordSum_cons_cons, rest, Nat.add_assoc]

/-- The checksum of a string whose word sum does not wrap (R131, R138). -/
theorem checksum_eq {bs : List Byte} (h : bs.length ≤ 131074) :
    checksum bs = BitVec.ofNat 16 (65535 - onesSum (wordSum bs)) := by
  have bound := wordSum_le bs
  have small : wordSum bs < 2 ^ 32 := by omega
  rw [checksum, addBytes_even, foldSum_eq]
  simp only [BitVec.ofNat_eq_ofNat, BitVec.zero_add, BitVec.toNat_ofNat, Nat.mod_eq_of_lt small]

/-- A number and the complement of its ones'-complement sum add up to a nonzero multiple of 65535 (R139, R141). -/
theorem onesSum_add_complement (n : Nat) : onesSum (n + (65535 - onesSum n)) = 65535 := by
  have split := Nat.div_add_mod n 65535
  have lt := Nat.mod_lt n (show 0 < 65535 by decide)
  have sum : onesSum n = if n = 0 then 0 else if n % 65535 = 0 then 65535 else n % 65535 := rfl
  split_ifs at sum with zero multiple
  · exact onesSum_eq (k := 0) (by omega) (le_refl _) (by omega)
  · exact onesSum_eq (k := n / 65535 - 1) (by omega) (le_refl _) (by omega)
  · exact onesSum_eq (k := n / 65535) (by omega) (le_refl _) (by omega)

/-- Settles O25: the field adds the complement of the rest, and the sum is then 65535 for its ones'-complement sum. -/
theorem checksumSelfConsistent : Obligations.ChecksumSelfConsistent := by
  intro bs z even hz short
  have field : ((checksumZ bs z).extractLsb' 8 8).toNat * 256 + ((checksumZ bs z).extractLsb' 0 8).toNat =
      65535 - onesSum (wordSum ((bs.set z 0).set (z + 1) 0)) := by
    have lt := (checksumZ bs z).isLt
    have value : (checksumZ bs z).toNat = 65535 - onesSum (wordSum ((bs.set z 0).set (z + 1) 0)) := by
      rw [checksumZ, checksum_eq (by simpa using short), BitVec.toNat_ofNat, Nat.mod_eq_of_lt (by omega)]
    rw [toNat_slice, toNat_slice, ← value]
    omega
  rw [checksum_eq (by simpa using short), wordSum_set_word _ _ even hz, field, onesSum_add_complement]
  rfl

end Sys2Proof.Machine
end

section
/-! The round trip of the codec (41_codec.md R169): what a completed ENCODE leaves, and what DECODE finds in a capture that
carries it. -/

namespace Sys2Proof.Machine

open Sys2Proof

/-- A 16-bit field is its two bytes in wire order (R12). -/
theorem wire16_join (v : Half) : v.extractLsb' 8 8 ++ v.extractLsb' 0 8 = v := by
  have lt := v.isLt
  refine eq_of_toNat ((toNat_append_eq _ _).trans ?_)
  rw [toNat_slice, toNat_slice]
  omega

/-- Reading the checksum field as 0 makes any header the one with checksum 0 (R131, R157). -/
theorem checksumZ_wireHeader (typ code : Byte) (c id seq : Half) (rest : List Byte) :
    checksumZ (wireHeader typ code c id seq ++ rest) 2 = checksum (wireHeader typ code 0 id seq ++ rest) := rfl

theorem length_wireHeader (typ code : Byte) (c id seq : Half) : (wireHeader typ code c id seq).length = 8 := rfl

/-- A header in RXBUF, field by field (R107). -/
theorem fields_of_wireHeader {u : State} {a : Nat} {typ code : Byte} {c id seq : Half}
    (h : u.bufBytes .rx a 8 = wireHeader typ code c id seq) :
    u.byteAt a = typ ∧ u.byteAt (a + 1) = code ∧ rxField16 u (a + 2) = c ∧ rxField16 u (a + 4) = id ∧
      rxField16 u (a + 6) = seq := by
  rw [State.bufBytes_rx] at h
  simp only [List.range'_succ, List.map_cons, wireHeader, wire16, List.cons_append, List.nil_append,
    List.cons.injEq] at h
  obtain ⟨h0, h1, h2, h3, h4, h5, h6, h7, -⟩ := h
  refine ⟨h0, h1, ?_, ?_, ?_⟩
  · rw [← wire16_join c, ← h2, ← h3]; rfl
  · rw [← wire16_join id, ← h4, ← h5]; rfl
  · rw [← wire16_join seq, ← h6, ← h7]; rfl

/-- A completed ENCODE leaves its frame, of the length and with the checksum that TX_INFO reports (R163, R164). -/
theorem exec_encode_ok {s t : State} (h : exec .encode s = .next t) (ok : t.status.err = .ok) :
    ∃ pad, t.tx.len.toNat = 8 + (s.enc.plen.toNat + pad) ∧
      t.tx.csum = checksum (wireHeader s.enc.typ s.enc.code 0 s.enc.id s.enc.seq ++
        (slice s .tx 8 s.enc.plen.toNat ++ List.replicate pad 0x20)) ∧
      t.bufBytes .tx 0 t.tx.len.toNat = wireHeader s.enc.typ s.enc.code t.tx.csum s.enc.id s.enc.seq ++
        (slice s .tx 8 s.enc.plen.toNat ++ List.replicate pad 0x20) := by
  have fits : s.encodeTooLarge = false := by
    rcases execEncode_cases s with ⟨-, ends⟩ | ⟨fits, -⟩
    · obtain rfl := Host.Outcome.next.inj (ends.symm.trans h)
      cases ok
    · exact fits
  have size := s.encodeTooLarge_iff
  rw [fits, Bool.false_eq_true, false_iff, not_or, not_and, not_lt, not_lt] at size
  obtain ⟨small, room⟩ := size
  have fsize := s.enc.fsize.isLt
  have choice : s.enc.fsize = 0 ∧ s.encodeFlen = 8 + s.enc.plen.toNat ∨
      s.enc.fsize ≠ 0 ∧ s.encodeFlen = s.enc.fsize.toNat ∧ 8 + s.enc.plen.toNat ≤ s.encodeFlen := by
    by_cases free : s.enc.fsize = 0
    · exact .inl ⟨free, if_pos free⟩
    · have fixed : s.encodeFlen = s.enc.fsize.toNat := if_neg free
      exact .inr ⟨free, fixed, fixed ▸ room free⟩
  obtain ⟨t', ends, frame, csum, bytes, -⟩ := encodeBuildsTheFrame s s.encodeFlen small choice
  obtain rfl := Host.Outcome.next.inj (h.symm.trans ends)
  have len : t.tx.len.toNat = s.encodeFlen := by
    rw [frame, BitVec.toNat_ofNat, Nat.mod_eq_of_lt (by omega)]
  refine ⟨s.encodeFlen - (8 + s.enc.plen.toNat), by omega, csum, ?_⟩
  rw [len, ← slice_eq_bufBytes]
  exact bytes

/-- The bytes of a run, compared one by one. -/
theorem State.bufBytes_congr {s t : State} {b c : Buf} {a d n : Nat}
    (h : ∀ k < n, s.bufByte b (a + k) = t.bufByte c (d + k)) : s.bufBytes b a n = t.bufBytes c d n := by
  refine List.ext_getElem (by simp) fun k h1 h2 => ?_
  rw [State.getElem_bufBytes, State.getElem_bufBytes]
  exact h k (by simpa using h1)

/-- Settles O29: the capture's inner frame is the encoded one, so each decoded field is the encoded field. -/
theorem encodeThenDecodeRoundTrip : Obligations.EncodeThenDecodeRoundTrip := by
  intro s t u encodes ok cap version proto verify carried
  obtain ⟨pad, len, csum, bytes⟩ := exec_encode_ok encodes ok
  have inner : u.bufBytes .rx 20 t.tx.len.toNat = t.bufBytes .tx 0 t.tx.len.toNat :=
    State.bufBytes_congr fun k hk => by rw [Nat.zero_add]; exact carried k hk
  rw [bytes] at inner
  have parts := inner
  rw [len, State.bufBytes, State.bytesAt_add, State.bytesAt_add] at parts
  obtain ⟨header, body⟩ := List.append_inj parts (by simp [length_wireHeader])
  obtain ⟨payload, -⟩ := List.append_inj body (by simp [slice_eq_bufBytes])
  obtain ⟨typ, code, stored, id, seq⟩ := fields_of_wireHeader header
  have nonempty : u.capLen ≠ 0 := fun h => by
    have zero : u.capLen.toNat = 0 := by rw [h]; rfl
    omega
  have hlen : declaredHlen u = 20 := by rw [declaredHlen, if_neg nonempty, version]
  have computed : checksumZ (slice u .rx 20 (u.capLen.toNat - 20)) 2 = t.tx.csum := by
    rw [cap, Nat.add_sub_cancel_left, slice_eq_bufBytes, inner, checksumZ_wireHeader, ← csum]
  have decodes := (decodeFollowsItsSteps u).2.2 (by omega) (by omega) proto
  rw [hlen, verify, computed, typ, code, stored, id, seq] at decodes
  have off : u.capLen.toNat - 20 - 8 < 2 ^ 16 := by omega
  refine ⟨_, decodes, rfl, rfl, rfl, rfl, rfl, rfl, rfl, by simp, rfl, ?_, ?_⟩
  · rw [BitVec.toNat_ofNat, Nat.mod_eq_of_lt off, cap, Nat.add_sub_cancel_left]
  · rw [slice_eq_bufBytes]
    exact payload

end Sys2Proof.Machine
end

section
/-! The exact entropy comparisons and the score against the real entropy (42_entropy.md R180-R182, R190). -/

namespace Sys2Proof.Machine

open Sys2Proof

/-- Settles O34: the two comparisons by their logarithms. -/
theorem comparisonsDecideRealEntropy : Obligations.ComparisonsDecideRealEntropy := fun h t =>
  ⟨entropyAbove_iff (counts h) t, entropyBelow_iff (counts h) t⟩

/-! ### The largest admitted score -/

/-- The inequality of R182 admits exactly the naturals up to `4096 * H`. -/
theorem admitted_iff {c : List Nat} (hn : 0 < c.sum) (k : Nat) :
    2 ^ (c.sum * k) * (c.map fun c => c ^ c).prod ^ 4096 ≤ c.sum ^ (4096 * c.sum) ↔ k ≤ ⌊4096 * realEntropy c⌋₊ := by
  have threshold : 2 ^ (c.sum * k) * (c.map fun c => c ^ c).prod ^ 4096 = thresholdPower c k := by
    rw [thresholdPower, countPower, Nat.mul_comm c.sum k, pow_mul]
  have total : c.sum ^ (4096 * c.sum) = totalPower c.sum := by rw [totalPower, Nat.mul_comm, pow_mul]
  rw [threshold, total, Nat.le_floor_iff (mul_nonneg (by norm_num) (realEntropy_nonneg _)), ← not_lt,
    lt_thresholdPower_iff hn, not_lt]

/-- Settles O33: the score is `floor(4096 * H)`, which is the greatest natural admitted. -/
theorem scoreIsTheLargestAdmitted : Obligations.ScoreIsTheLargestAdmitted := by
  intro h
  refine ⟨fun empty => ?zero, fun hn => ?greatest, ?bound⟩
  case zero => rw [entropyScore, if_pos empty]
  case greatest =>
    rw [entropyScore_eq_floor]
    exact ⟨(admitted_iff hn _).mpr le_rfl, fun k hk => (admitted_iff hn k).mp hk⟩
  case bound =>
    rw [entropyScore_eq_floor]
    exact floor_entropy_le h

/-! ### The extremes -/

/-- A value that never occurs, or alone, adds nothing (R180). -/
theorem entropyTerm_eq_zero {n k : Nat} (h : k = 0 ∨ k = n) : entropyTerm n k = 0 := by
  rcases h with rfl | rfl
  · simp [entropyTerm]
  · rcases eq_or_ne k 0 with rfl | hk
    · simp [entropyTerm]
    · simp [entropyTerm, div_self (Nat.cast_ne_zero.mpr hk : (k : ℝ) ≠ 0)]

/-- A histogram of one value at most has entropy 0 (R190). -/
theorem realEntropy_of_single {c : List Nat} (h : ∀ k ∈ c, k = 0 ∨ k = c.sum) : realEntropy c = 0 := by
  rw [realEntropy_eq_sum]
  refine List.sum_eq_zero fun x hx => ?_
  obtain ⟨k, hk, rfl⟩ := List.mem_map.mp hx
  exact entropyTerm_eq_zero (h k hk)

/-- The counter of `n` identical bytes holds `n`, and every other counter 0 (R186). -/
theorem counts_of_identical (b : Byte) {n : Nat} (hn : n ≤ 0xFFFF) :
    ∀ k ∈ counts (bumpAll Ent.cleared.hist (List.replicate n b)), k = 0 ∨ k = n := by
  intro k hk
  obtain ⟨x, hx, rfl⟩ := List.mem_map.mp hk
  obtain ⟨v, hv, rfl⟩ := Vector.getElem_of_mem (Vector.mem_toList_iff.mp hx)
  have zero : Ent.cleared.hist[v] = 0 := by simp [Ent.cleared]
  rw [getElem_bumpAll, zero, List.countP_replicate]
  split
  · right
    simp
    omega
  · left
    simp

/-- 256 equal nonzero counts have entropy 8 (R190). -/
theorem realEntropy_of_equal {k : Nat} (hk : k ≠ 0) : realEntropy (List.replicate 256 k) = 8 := by
  have hk' : (k : ℝ) ≠ 0 := Nat.cast_ne_zero.mpr hk
  have share : (k : ℝ) / ((256 * k : Nat) : ℝ) = (2 ^ 8)⁻¹ := by
    push_cast
    field_simp
    norm_num
  rw [realEntropy_eq_sum, List.sum_replicate, List.map_replicate, List.sum_replicate, smul_eq_mul, entropyTerm, share,
    Real.logb_inv, Real.logb_pow, Real.logb_self_eq_one one_lt_two]
  norm_num

/-- Settles O36: the score of entropy 0 and of entropy 8. -/
theorem scoreExtremes : Obligations.ScoreExtremes := by
  refine ⟨fun b n hn => ?identical, fun k hk => ?equal⟩
  case identical =>
    have sum := sum_counts_bumpAll (List.replicate n b) Ent.cleared.hist
    rw [← Ent.cleared_count, List.length_replicate] at sum
    have total : (counts (bumpAll Ent.cleared.hist (List.replicate n b))).sum = n :=
      (sum (by simpa [Ent.cleared] using hn)).trans (by simp [Ent.cleared])
    have entropy := realEntropy_of_single (fun k hk => by rw [total]; exact counts_of_identical b hn k hk)
    rw [entropyScore_eq_floor, entropy, mul_zero, Nat.floor_zero]
  case equal =>
    have list : counts (Vector.replicate 256 k) = List.replicate 256 k.toNat := by
      rw [counts, Vector.toList_replicate, List.map_replicate]
    have nonzero : k.toNat ≠ 0 := fun h => hk (BitVec.eq_of_toNat_eq h)
    rw [entropyScore_eq_floor, list, realEntropy_of_equal nonzero]
    norm_num

end Sys2Proof.Machine
end

section
/-! Resets and the invariant (70_reset_and_hazards.md R280-R282; 10_state.md R51-R56; 41_codec.md R161): what each kind of
step keeps. -/

namespace Sys2Proof.Machine

open Sys2Proof

/-! ### Resets -/

/-- Settles O55: the reset is taken first, marked or not, and every register is that of the reset state. -/
theorem hardResetAtAnyTime : Obligations.HardResetAtAnyTime := fun s reset =>
  ⟨s.takeInput.hardReset, step_hardReset reset, atResetTable_of_reset_registers State.reset.status 0 [] [] _ _,
    resetIsTheTable.2.1, rfl, rfl, rfl⟩

/-- Cleared decode registers belong together (R34). -/
theorem Dec.cleared_coherent : Dec.cleared.Coherent where
  none _ := rfl
  truncated := nofun
  wrongProto := nofun
  payload := nofun
  unchecked _ := ⟨rfl, rfl⟩
  checked := nofun

/-- The registers at reset meet the invariant, whatever the buffers, the marks and the depth that a reset leaves (R280,
R282). -/
theorem State.inv_of_reset_registers (status : Status) (cmdl : Word) {mem : Memory} (hm : mem.wf) {faults : List Fault}
    (hf : faults.Nodup) {depth : BitVec 8} (hd : 1 ≤ depth.toNat) (env : Env) :
    State.Inv { State.reset with
      status := status, cmdl := cmdl, mem := mem, faults := faults, logDepth := depth, env := env } where
  mem := hm
  count := Ent.cleared_count
  score := nofun
  log := Nat.zero_le _
  depth := hd
  fstate := nofun
  dec := Dec.cleared_coherent
  faults := hf

/-- Settles O57: the reset state has empty buffers, no mark and the default depth. -/
theorem resetMeetsTheInvariant : Obligations.ResetMeetsTheInvariant :=
  State.inv_of_reset_registers _ _ Memory.wf_nil List.nodup_nil (by decide) _

/-! ### The decode registers -/

/-- A frame that passed both checks has its payload inside the capture, and its flag is the comparison (R156, R157). -/
theorem State.decodeInner_coherent {s : State} (whole : s.frameTruncated = false) : s.decodeInner.Coherent where
  none := nofun
  truncated := nofun
  wrongProto := nofun
  payload _ := by
    have bounds := State.bounds_of_not_truncated whole
    have cap := s.capLen.isLt
    have hlen : s.frameHlen = 4 * s.frameIhl.toNat := rfl
    simp only [State.decodeInner, Config.innerHdr, BitVec.toNat_ofNat]
    omega
  unchecked off := by
    have off' : s.ctrl.csumVerify = false := off
    simp [State.decodeInner, off']
  checked on := by
    have on' : s.ctrl.csumVerify = true := on
    simp [State.decodeInner, on']

/-- DecodeFrame leaves registers that belong together (R151, R161). -/
theorem State.decodeFrame_coherent (s : State) : s.decodeFrame.Coherent := by
  rcases s.decodeFrame_cases with ⟨-, e⟩ | ⟨-, -, e⟩ | ⟨whole, -, e⟩ <;> rw [e]
  · exact ⟨nofun, fun _ => rfl, nofun, nofun, fun _ => ⟨rfl, rfl⟩, nofun⟩
  · exact ⟨nofun, nofun, fun _ => rfl, nofun, fun _ => ⟨rfl, rfl⟩, nofun⟩
  · exact State.decodeInner_coherent whole

/-! ### Counting -/

/-- Counting bytes that fit keeps ENT_N the sum of the histogram (R188). -/
theorem State.Inv.count_bytes {s : State} (h : s.Inv) {bs : List Byte} (fits : s.ent.n.toNat + bs.length ≤ 0xFFFF) :
    (s.count bs).Inv := by
  have sum := sum_counts_bumpAll bs s.ent.hist (by rw [← h.count]; exact fits)
  have size : (s.ent.n + BitVec.ofNat 16 bs.length).toNat = s.ent.n.toNat + bs.length := by
    rw [BitVec.toNat_add, BitVec.toNat_ofNat]
    omega
  exact { h with
    count := size.trans (by rw [h.count]; exact sum.symm)
    score := nofun }

/-- The unit of a classified frame counts its payload (R188, R213). -/
theorem frameEnt_count (s : State) : (frameEnt s).n.toNat = (counts (frameEnt s).hist).sum := by
  have length : (framePayload s).length = s.decodeFrame.len.toNat := by simp [framePayload, slice]
  have short := s.decodeFrame.len.isLt
  have sum := sum_counts_bumpAll (framePayload s) Ent.cleared.hist
  have zero : Ent.cleared.n.toNat = 0 := rfl
  rw [bumpAll_eq_counted, ← Ent.cleared_count, length, zero, Nat.zero_add] at sum
  exact (sum (Nat.le_of_lt_succ short)).symm

/-! ### Commands -/

/-- Ending a command keeps the invariant: STATUS is not in it. -/
theorem State.Inv.finish {s : State} (h : s.Inv) (op : Byte) (e : CmdError) : (s.finish op e).Inv := { h with }

/-- PROCESS past its check keeps the invariant. -/
theorem State.Inv.processed {s : State} (h : s.Inv) (room : s.log.length ≠ s.logDepth.toNat) : s.processed.Inv := by
  obtain ⟨ent, f, l, m, x, e, terminal, counts, writes, pushes⟩ := s.processed_frame
  have mem : m.wf := by
    rcases writes with ⟨rfl, -⟩ | ⟨-, ok, rfl⟩
    · exact h.mem
    · have short : 8 + s.frameClassified.dec.len.toNat ≤ 65536 := (State.reply_length_le ok).trans (by decide)
      exact State.buildReply_wf (s := s.frameClassified) h.mem short
  have log : l.length ≤ s.logDepth.toNat := by
    have bound := h.log
    rcases pushes with rfl | ⟨r, rfl⟩
    · exact bound
    · rw [List.length_append, List.length_singleton]
      omega
  rw [e]
  rcases counts with ⟨-, rfl⟩ | ⟨-, -, rfl⟩
  · exact { h with mem := mem, log := log, fstate := terminal, dec := s.decodeFrame_coherent }
  · exact { h with
      mem := mem, count := frameEnt_count s, score := fun _ => rfl, log := log, fstate := terminal
      dec := s.decodeFrame_coherent }

/-- The frame of an accepted ENCODE fits TXBUF (R163, R166). -/
theorem State.encodeFlen_le {s : State} (fits : s.encodeTooLarge = false) :
    s.encodeFlen ≤ 65536 ∧ 8 + s.enc.plen.toNat ≤ 65536 := by
  have size := s.encodeTooLarge_iff
  rw [fits, Bool.false_eq_true, false_iff, not_or, not_lt] at size
  have fsize := s.enc.fsize.isLt
  have plen := size.1
  have payload : 8 + s.enc.plen.toNat ≤ 65536 := by omega
  refine ⟨?_, payload⟩
  unfold State.encodeFlen
  split
  · exact payload
  · omega

/-- The effect of a command that passes its checks keeps the invariant. -/
theorem State.Inv.effect {s : State} (h : s.Inv) {i : Instr} (ok : resultOf s i = .ok) : (s.effect i).Inv := by
  cases i with
  | decode => exact { h with dec := s.decodeFrame_coherent }
  | encode =>
    have fits : s.encodeTooLarge = false := Bool.eq_false_iff.mpr fun large => by
      rw [resultOf_encode, if_pos large] at ok; cases ok
    obtain ⟨flen, payload⟩ := State.encodeFlen_le fits
    exact { h with mem := State.encodeFrame_wf h.mem _ _ _ _ flen payload }
  | entClr => exact { h with count := Ent.cleared_count, score := nofun }
  | entByte b =>
    exact h.count_bytes ((half_ne_max_iff _).mp fun full => by rw [resultOf, if_pos full] at ok; cases ok)
  | entBuf b =>
    refine h.count_bytes ?_
    rw [State.argBytes, State.length_bufBytes]
    rw [resultOf] at ok
    split_ifs at ok with out past
    exact Nat.not_lt.mp past
  | entClassify => exact { h with score := fun _ => rfl }
  | process => exact h.processed fun full => by rw [resultOf, if_pos full] at ok; cases ok
  | logPop => exact { h with log := (List.length_tail ▸ Nat.sub_le _ _).trans h.log }
  | sreset => exact State.inv_of_reset_registers _ _ h.mem h.faults h.depth _
  | _ => exact { h with }

/-! ### Steps -/

/-- The engine's step keeps the invariant. -/
theorem State.Inv.engineStep {s t : State} (h : s.Inv) (steps : engineStep s = .next t) : t.Inv := by
  rcases engineStep_cases s with ⟨-, waits⟩ | ⟨-, i, -, runs⟩ | ⟨-, -, ends⟩
  · obtain rfl := Host.Outcome.next.inj (waits.symm.trans steps)
    exact h
  · rcases exec_next_cases (runs.symm.trans steps) with ⟨ok, rfl⟩ | ⟨-, rfl⟩
    · exact (h.effect ok).finish _ _
    · exact h.finish _ _
  · obtain rfl := Host.Outcome.next.inj (ends.symm.trans steps)
    exact h.finish _ _

/-- A host write of a register keeps the invariant: it reads none of the RW registers. -/
theorem State.Inv.writeReg {s : State} (h : s.Inv) (v : Word) (r : Reg) : (s.writeReg v r).Inv := by
  cases r with
  | hist => exact h
  | named r => cases r <;> exact { h with }

/-- A write that the bus accepts keeps the invariant: it stays inside the buffers, or writes a register (R77, R81). -/
theorem State.Inv.writeData {s : State} (h : s.Inv) {a : Addr} {w : Width} (ok : busOk a w = true) (v : Word) :
    (s.writeData a w v).Inv := by
  rcases s.writeData_cases a w v with ⟨buffer, e⟩ | ⟨-, r, -, e⟩ | ⟨-, e⟩ <;> rw [e]
  · have inside := busOk_buffer_end ok buffer
    exact { h with mem := Memory.wf_write h.mem (by rw [length_lanes]; exact inside) }
  · exact h.writeReg v r
  · exact h

/-- A mark joins the set of faults once (R58, R258). -/
theorem State.Inv.markFault {s : State} (h : s.Inv) (f : Fault) : (s.markFault f).Inv := by
  refine { h with faults := ?_ }
  rw [State.markFault_eq]
  dsimp only
  split
  case isTrue => exact h.faults
  case isFalse new =>
    rw [← List.concat_eq_append]
    exact h.faults.concat new

/-- A host access keeps the invariant. -/
theorem State.Inv.hostAccess {s : State} (h : s.Inv) (x : HostAccess) : (s.hostAccess x).Inv := by
  cases x with
  | read a w => rw [State.hostAccess_read]; exact { h with }
  | write a w v =>
    have write : (s.afterWrite a w v).Inv := by
      rcases s.afterWrite_cases a w v with ⟨-, e⟩ | ⟨-, -, e⟩ | ⟨ok, -, e⟩ <;> rw [e]
      · exact h
      · exact h.markFault _
      · exact h.writeData ok v
    exact { write with }

/-- Settles O56: a reset, a host access and the engine's step each keep the invariant. -/
theorem everyStepKeepsTheInvariant : Obligations.EveryStepKeepsTheInvariant := by
  intro s t h steps
  have taken : s.takeInput.Inv := { h with }
  rcases step_cases steps with ⟨-, rfl⟩ | ⟨-, x, -, rfl⟩ | ⟨-, -, turn⟩ | ⟨-, -, turn⟩
  · exact State.inv_of_reset_registers _ _ Memory.wf_nil List.nodup_nil h.depth _
  · exact taken.hostAccess x
  · exact taken.engineStep turn
  · exact h.engineStep turn

end Sys2Proof.Machine
end
